-- ==== Sys2Proof/Word.lean ====
section
/-! DEFINITION. The value types of the Encryptocat CORE: the 32-bit word of a command or a register, and the bit
sequence every q register holds (rules R11 and R13 of spec/00_scope.md). -/

namespace Sys2Proof

/-- A command word or the value of a control, status or configuration register: `XLEN = 32` bits, bit 31 the most
significant (rules R9 and R13). -/
abbrev Word := BitVec 32

/-- A BitSequence (rule R11): an ordered list of bits, position 0 the first bit in sequence order and the most
significant one when the sequence is read as a number. -/
abbrev Bits := List Bool

/-- One entry of a permutation table: a 16-bit number (rules R34 and R60). -/
abbrev Entry := BitVec 16

end Sys2Proof
end

