-- ==== Sys2Proof/Config.lean ====
section
/-! DEFINITION. What an implementation of the CORE fixes: the constants of the source (rule R6), the size limits
and readings the spec gives a value to (rule R9), and the two built-in tables whose entries no source gives
(rules R7 and R8), which stay uninterpreted here. UNVERIFIED (log entry 8): the parameters of rule R9 have the
values the spec takes; `NQ = 8` is the type `QReg` of register numbers, `XLEN = 32` the type `Word`. -/

namespace Sys2Proof

/-- `QMAX`: the capacity of one bit-sequence register, in bits (rule R9). -/
abbrev Config.qMax : Nat := 65536

/-- `NR_MAX`: the largest round count the round-key file holds (rule R9). -/
abbrev Config.nrMax : Nat := 64

/-- `RKS_MAX`: the largest round-key size, in bits (rule R9). -/
abbrev Config.rksMax : Nat := 1024

/-- `PW_MAX`: the largest permutation chunk width, and the number of entries of a table (rule R9). -/
abbrev Config.pwMax : Nat := 256

/-- `LCG_A`: the multiplier of the round-key generator (rule R6). -/
def Config.lcgA : Nat := 1664525

/-- `LCG_C`: the increment of the round-key generator (rule R6). -/
def Config.lcgC : Nat := 1013904223

/-- `KS_LOCAL_ADD_INDEX`: the local copy of the scheduler's seed advances with the round index added
(rules R9 and R162, decision D13). UNVERIFIED (log entry 10). -/
def Config.ksLocalAddIndex : Bool := true

/-- `HEX_PREFIX`: the two bytes of `0x` (rules R9 and R121, decision D7). UNVERIFIED (log entry 9). -/
def Config.hexPrefix : List Nat := [0x30, 0x78]

/-- An arbitrary permutation of {0..15}: it has no body, so nothing can be proved about its values beyond its being
a bijection. `Config.sbox` is made from it. DESIGN CHOICE (log entry 1): the source gives one entry of the
substitution table only. -/
opaque Config.sboxSeed : Equiv.Perm (Fin 16)

/-- `SBOX` (rules R7 and R142): a bijection of {0..15} with `SBOX[0] = 8` and nothing else known of it. Swapping the
value at 0 with 8 turns an arbitrary permutation into one that meets both constraints, and leaves alone every
permutation that meets them, so every legal table is a value this one may have (log entry 1). -/
def Config.sbox : Equiv.Perm (Fin 16) :=
  Config.sboxSeed.trans (Equiv.swap (Config.sboxSeed 0) 8)

/-- `PBOX16` (rule R8) with source and destination positions counted from 0: a bijection of the sixteen positions, and
nothing else known of it (log entry 2). -/
opaque Config.pbox16 : Equiv.Perm (Fin 16)

end Sys2Proof
end

