-- ==== Sys2Proof/Syntax.lean ====
section
/-! DEFINITION. The commands of `ECC32` version 1 as syntax: one constructor per row of spec/opcode_table.json, in the
table's order (rule R94 of spec/30_encoding.md). -/

namespace Sys2Proof

/-- The number of a bit-sequence register, 0..7 for `q0`..`q7`: `NQ = 8`, the value rule R9 takes (rules R21
and R93). -/
abbrev QReg := Fin 8

/-- A command (rules R91 to R94). Register operands come destination first, as the assembler writes them (rule R100);
an immediate is a round-key index, which the encoding limits to 0..32767 (rule R93, `Instr.WellFormed`). -/
inductive Instr where
  -- family 1, codec
  /-- `tobits rd, rs1` -/
  | tobits (rd rs1 : QReg)
  /-- `frombits rd, rs1` -/
  | frombits (rd rs1 : QReg)
  /-- `tohex rd, rs1` -/
  | tohex (rd rs1 : QReg)
  /-- `fromhex rd, rs1` -/
  | fromhex (rd rs1 : QReg)
  -- family 2, tables
  /-- `xor rd, rs1, rs2` -/
  | xor (rd rs1 rs2 : QReg)
  /-- `sub4 rd, rs1` -/
  | sub4 (rd rs1 : QReg)
  /-- `sub4.i rd, rs1` -/
  | sub4I (rd rs1 : QReg)
  /-- `perm rd, rs1` -/
  | perm (rd rs1 : QReg)
  /-- `perm.i rd, rs1` -/
  | permI (rd rs1 : QReg)
  /-- `pdflt` -/
  | pdflt
  /-- `pload` -/
  | pload
  -- family 3, scheduler
  /-- `ksched rs1` -/
  | ksched (rs1 : QReg)
  /-- `rkget rd, imm` -/
  | rkget (rd : QReg) (imm : Nat)
  -- family 4, Feistel
  /-- `frnd rd, rs1, imm` -/
  | frnd (rd rs1 : QReg) (imm : Nat)
  /-- `frnd.i rd, rs1, imm` -/
  | frndI (rd rs1 : QReg) (imm : Nat)
  /-- `feis.e rd, rs1` -/
  | feisE (rd rs1 : QReg)
  /-- `feis.d rd, rs1` -/
  | feisD (rd rs1 : QReg)
  -- family 5, SPN
  /-- `srnd rd, rs1, imm` -/
  | srnd (rd rs1 : QReg) (imm : Nat)
  /-- `srnd.i rd, rs1, imm` -/
  | srndI (rd rs1 : QReg) (imm : Nat)
  /-- `spn.e rd, rs1` -/
  | spnE (rd rs1 : QReg)
  /-- `spn.d rd, rs1` -/
  | spnD (rd rs1 : QReg)
  -- family 6, chaining
  /-- `pad rd, rs1` -/
  | pad (rd rs1 : QReg)
  /-- `unpad rd, rs1` -/
  | unpad (rd rs1 : QReg)
  /-- `ecb.e.f rd, rs1` -/
  | ecbEF (rd rs1 : QReg)
  /-- `ecb.d.f rd, rs1` -/
  | ecbDF (rd rs1 : QReg)
  /-- `ecb.e.s rd, rs1` -/
  | ecbES (rd rs1 : QReg)
  /-- `ecb.d.s rd, rs1` -/
  | ecbDS (rd rs1 : QReg)
  /-- `cbc.e.f rd, rs1, rs2` -/
  | cbcEF (rd rs1 rs2 : QReg)
  /-- `cbc.d.f rd, rs1, rs2` -/
  | cbcDF (rd rs1 rs2 : QReg)
  /-- `cbc.e.s rd, rs1, rs2` -/
  | cbcES (rd rs1 rs2 : QReg)
  /-- `cbc.d.s rd, rs1, rs2` -/
  | cbcDS (rd rs1 rs2 : QReg)
  -- family 7, system
  /-- `nop` -/
  | nop
  /-- `clrerr` -/
  | clrerr
  /-- `mov rd, rs1` -/
  | mov (rd rs1 : QReg)
deriving DecidableEq, Repr

end Sys2Proof
end

