-- ==== Sys2Proof/WellFormed.lean ====
section
/-! DEFINITION. Which terms of `Instr` a command word can stand for. Register numbers are in range by their type
(rule R93: with `NQ = 8` every 3-bit value is a register); what is left to check is the immediate. -/

namespace Sys2Proof

/-- The immediate a command carries, where its format has one (formats I and K, rule R92). -/
def Instr.imm? : Instr → Option Nat
  | .rkget _ imm | .frnd _ _ imm | .frndI _ _ imm | .srnd _ _ imm | .srndI _ _ imm => some imm
  | .tobits _ _ | .frombits _ _ | .tohex _ _ | .fromhex _ _ | .xor _ _ _ | .sub4 _ _ | .sub4I _ _ | .perm _ _
  | .permI _ _ | .pdflt | .pload | .ksched _ | .feisE _ _ | .feisD _ _ | .spnE _ _ | .spnD _ _ | .pad _ _
  | .unpad _ _ | .ecbEF _ _ | .ecbDF _ _ | .ecbES _ _ | .ecbDS _ _ | .cbcEF _ _ _ | .cbcDF _ _ _ | .cbcES _ _ _
  | .cbcDS _ _ _ | .nop | .clrerr | .mov _ _ => none

/-- Rule R93: the immediate is an unsigned 15-bit number, 0..32767. -/
def immFits (imm : Nat) : Bool := decide (imm < 2 ^ 15)

/-- A command that some command word encodes: its immediate, if it has one, fits the `imm` field. -/
def Instr.WellFormed (i : Instr) : Bool := i.imm?.all immFits

end Sys2Proof
end

