-- ==== Sys2Proof/Decode.lean ====
section
/-! DEFINITION. From command words to commands and back: the fields of a word (rules R13 and R91), the six formats
(rule R92), the opcode table (rule R94), the decoder (rules R95 and R98), the encoder, and the assembler's spelling
(rule R100). -/

namespace Sys2Proof

/-- `w[hi:lo]`: the field of bits hi down to lo of a word, read as an unsigned number (rule R13). -/
def field (w : Word) (hi lo : Nat) : Nat := w.toNat / 2 ^ lo % 2 ^ (hi + 1 - lo)

/-- A 3-bit register field (rule R93): every value names a register. -/
def regField (w : Word) (lo : Nat) : QReg := Fin.ofNat 8 (field w (lo + 2) lo)

/-- `rd = w[23:21]` (rule R91). -/
def rdOf (w : Word) : QReg := regField w 21

/-- `rs1 = w[20:18]` (rule R91). -/
def rs1Of (w : Word) : QReg := regField w 18

/-- `rs2 = w[17:15]` (rule R91). -/
def rs2Of (w : Word) : QReg := regField w 15

/-- `imm = w[14:0]`, unsigned and used as it stands (rules R91 and R93). -/
def immOf (w : Word) : Nat := field w 14 0

/-- Format Z (rule R92): no operand, every bit below the opcode is 0. -/
def formatZ (w : Word) (mk : Instr) : Option Instr :=
  if field w 23 0 = 0 then some mk else none

/-- Format S (rule R92): `rs1` alone. -/
def formatS (w : Word) (mk : QReg → Instr) : Option Instr :=
  if field w 23 21 = 0 ∧ field w 17 0 = 0 then some (mk (rs1Of w)) else none

/-- Format D (rule R92): `rd` and `rs1`. -/
def formatD (w : Word) (mk : QReg → QReg → Instr) : Option Instr :=
  if field w 17 0 = 0 then some (mk (rdOf w) (rs1Of w)) else none

/-- Format T (rule R92): `rd`, `rs1` and `rs2`. -/
def formatT (w : Word) (mk : QReg → QReg → QReg → Instr) : Option Instr :=
  if field w 14 0 = 0 then some (mk (rdOf w) (rs1Of w) (rs2Of w)) else none

/-- Format I (rule R92): `rd`, `rs1` and `imm`. -/
def formatI (w : Word) (mk : QReg → QReg → Nat → Instr) : Option Instr :=
  if field w 17 15 = 0 then some (mk (rdOf w) (rs1Of w) (immOf w)) else none

/-- Format K (rule R92): `rd` and `imm`. -/
def formatK (w : Word) (mk : QReg → Nat → Instr) : Option Instr :=
  if field w 20 15 = 0 then some (mk (rdOf w) (immOf w)) else none

/-- The decoder (rules R95 and R98): total on every 32-bit word; `none` is an illegal word, one that matches no row of
the opcode table. Bits 31:24 are `op` and `var` together, which name the row; the format then asks its unused
fields to be 0. -/
def decode (w : Word) : Option Instr :=
  match field w 31 24 with
  | 0x20 => formatD w .tobits
  | 0x24 => formatD w .frombits
  | 0x28 => formatD w .tohex
  | 0x2C => formatD w .fromhex
  | 0x40 => formatT w .xor
  | 0x44 => formatD w .sub4
  | 0x45 => formatD w .sub4I
  | 0x48 => formatD w .perm
  | 0x49 => formatD w .permI
  | 0x4C => formatZ w .pdflt
  | 0x50 => formatZ w .pload
  | 0x60 => formatS w .ksched
  | 0x64 => formatK w .rkget
  | 0x80 => formatI w .frnd
  | 0x81 => formatI w .frndI
  | 0x84 => formatD w .feisE
  | 0x85 => formatD w .feisD
  | 0xA0 => formatI w .srnd
  | 0xA1 => formatI w .srndI
  | 0xA4 => formatD w .spnE
  | 0xA5 => formatD w .spnD
  | 0xC0 => formatD w .pad
  | 0xC4 => formatD w .unpad
  | 0xC8 => formatD w .ecbEF
  | 0xC9 => formatD w .ecbDF
  | 0xCA => formatD w .ecbES
  | 0xCB => formatD w .ecbDS
  | 0xCC => formatT w .cbcEF
  | 0xCD => formatT w .cbcDF
  | 0xCE => formatT w .cbcES
  | 0xCF => formatT w .cbcDS
  | 0xE0 => formatZ w .nop
  | 0xE4 => formatZ w .clrerr
  | 0xE8 => formatD w .mov
  | _ => none

/-- A command word from its fields (rule R91); `opVar` is `op` and `var` together, bits 31:24. -/
def wordOf (opVar : Nat) (rd rs1 rs2 : QReg) (imm : Nat) : Word :=
  BitVec.ofNat 32 (opVar * 2 ^ 24 + rd.val * 2 ^ 21 + rs1.val * 2 ^ 18 + rs2.val * 2 ^ 15 + imm % 2 ^ 15)

/-- The command word of a command (rules R92 and R94): the fields its format does not use are 0. -/
def encode : Instr → Word
  | .tobits rd rs1 => wordOf 0x20 rd rs1 0 0
  | .frombits rd rs1 => wordOf 0x24 rd rs1 0 0
  | .tohex rd rs1 => wordOf 0x28 rd rs1 0 0
  | .fromhex rd rs1 => wordOf 0x2C rd rs1 0 0
  | .xor rd rs1 rs2 => wordOf 0x40 rd rs1 rs2 0
  | .sub4 rd rs1 => wordOf 0x44 rd rs1 0 0
  | .sub4I rd rs1 => wordOf 0x45 rd rs1 0 0
  | .perm rd rs1 => wordOf 0x48 rd rs1 0 0
  | .permI rd rs1 => wordOf 0x49 rd rs1 0 0
  | .pdflt => wordOf 0x4C 0 0 0 0
  | .pload => wordOf 0x50 0 0 0 0
  | .ksched rs1 => wordOf 0x60 0 rs1 0 0
  | .rkget rd imm => wordOf 0x64 rd 0 0 imm
  | .frnd rd rs1 imm => wordOf 0x80 rd rs1 0 imm
  | .frndI rd rs1 imm => wordOf 0x81 rd rs1 0 imm
  | .feisE rd rs1 => wordOf 0x84 rd rs1 0 0
  | .feisD rd rs1 => wordOf 0x85 rd rs1 0 0
  | .srnd rd rs1 imm => wordOf 0xA0 rd rs1 0 imm
  | .srndI rd rs1 imm => wordOf 0xA1 rd rs1 0 imm
  | .spnE rd rs1 => wordOf 0xA4 rd rs1 0 0
  | .spnD rd rs1 => wordOf 0xA5 rd rs1 0 0
  | .pad rd rs1 => wordOf 0xC0 rd rs1 0 0
  | .unpad rd rs1 => wordOf 0xC4 rd rs1 0 0
  | .ecbEF rd rs1 => wordOf 0xC8 rd rs1 0 0
  | .ecbDF rd rs1 => wordOf 0xC9 rd rs1 0 0
  | .ecbES rd rs1 => wordOf 0xCA rd rs1 0 0
  | .ecbDS rd rs1 => wordOf 0xCB rd rs1 0 0
  | .cbcEF rd rs1 rs2 => wordOf 0xCC rd rs1 rs2 0
  | .cbcDF rd rs1 rs2 => wordOf 0xCD rd rs1 rs2 0
  | .cbcES rd rs1 rs2 => wordOf 0xCE rd rs1 rs2 0
  | .cbcDS rd rs1 rs2 => wordOf 0xCF rd rs1 rs2 0
  | .nop => wordOf 0xE0 0 0 0 0
  | .clrerr => wordOf 0xE4 0 0 0 0
  | .mov rd rs1 => wordOf 0xE8 rd rs1 0 0

/-- The destination register of a command, where its format has one (rule R92). -/
def Instr.rd? : Instr → Option QReg
  | .tobits rd _ | .frombits rd _ | .tohex rd _ | .fromhex rd _ | .xor rd _ _ | .sub4 rd _ | .sub4I rd _
  | .perm rd _ | .permI rd _ | .rkget rd _ | .frnd rd _ _ | .frndI rd _ _ | .feisE rd _ | .feisD rd _
  | .srnd rd _ _ | .srndI rd _ _ | .spnE rd _ | .spnD rd _ | .pad rd _ | .unpad rd _ | .ecbEF rd _
  | .ecbDF rd _ | .ecbES rd _ | .ecbDS rd _ | .cbcEF rd _ _ | .cbcDF rd _ _ | .cbcES rd _ _ | .cbcDS rd _ _
  | .mov rd _ => some rd
  | .pdflt | .pload | .ksched _ | .nop | .clrerr => none

/-- The first source register of a command, where its format has one (rule R92). -/
def Instr.rs1? : Instr → Option QReg
  | .tobits _ rs1 | .frombits _ rs1 | .tohex _ rs1 | .fromhex _ rs1 | .xor _ rs1 _ | .sub4 _ rs1
  | .sub4I _ rs1 | .perm _ rs1 | .permI _ rs1 | .ksched rs1 | .frnd _ rs1 _ | .frndI _ rs1 _ | .feisE _ rs1
  | .feisD _ rs1 | .srnd _ rs1 _ | .srndI _ rs1 _ | .spnE _ rs1 | .spnD _ rs1 | .pad _ rs1 | .unpad _ rs1
  | .ecbEF _ rs1 | .ecbDF _ rs1 | .ecbES _ rs1 | .ecbDS _ rs1 | .cbcEF _ rs1 _ | .cbcDF _ rs1 _
  | .cbcES _ rs1 _ | .cbcDS _ rs1 _ | .mov _ rs1 => some rs1
  | .pdflt | .pload | .rkget _ _ | .nop | .clrerr => none

/-- The second source register of a command, where its format has one (rule R92). -/
def Instr.rs2? : Instr → Option QReg
  | .xor _ _ rs2 | .cbcEF _ _ rs2 | .cbcDF _ _ rs2 | .cbcES _ _ rs2 | .cbcDS _ _ rs2 => some rs2
  | .tobits _ _ | .frombits _ _ | .tohex _ _ | .fromhex _ _ | .sub4 _ _ | .sub4I _ _ | .perm _ _
  | .permI _ _ | .pdflt | .pload | .ksched _ | .rkget _ _ | .frnd _ _ _ | .frndI _ _ _ | .feisE _ _
  | .feisD _ _ | .srnd _ _ _ | .srndI _ _ _ | .spnE _ _ | .spnD _ _ | .pad _ _ | .unpad _ _ | .ecbEF _ _
  | .ecbDF _ _ | .ecbES _ _ | .ecbDS _ _ | .nop | .clrerr | .mov _ _ => none

/-- A row of the opcode table of rule R94: a word w is the row's command exactly when `w AND mask = match`. -/
structure OpcodeRow where
  mnemonic : String
  pattern : Word
  mask : Word
deriving DecidableEq, Repr

/-- The opcode table of rule R94, with the words and masks as the spec writes them. -/
def opcodeTable : List OpcodeRow := [
  ⟨"tobits", 0x20000000, 0xFF03FFFF⟩,
  ⟨"frombits", 0x24000000, 0xFF03FFFF⟩,
  ⟨"tohex", 0x28000000, 0xFF03FFFF⟩,
  ⟨"fromhex", 0x2C000000, 0xFF03FFFF⟩,
  ⟨"xor", 0x40000000, 0xFF007FFF⟩,
  ⟨"sub4", 0x44000000, 0xFF03FFFF⟩,
  ⟨"sub4.i", 0x45000000, 0xFF03FFFF⟩,
  ⟨"perm", 0x48000000, 0xFF03FFFF⟩,
  ⟨"perm.i", 0x49000000, 0xFF03FFFF⟩,
  ⟨"pdflt", 0x4C000000, 0xFFFFFFFF⟩,
  ⟨"pload", 0x50000000, 0xFFFFFFFF⟩,
  ⟨"ksched", 0x60000000, 0xFFE3FFFF⟩,
  ⟨"rkget", 0x64000000, 0xFF1F8000⟩,
  ⟨"frnd", 0x80000000, 0xFF038000⟩,
  ⟨"frnd.i", 0x81000000, 0xFF038000⟩,
  ⟨"feis.e", 0x84000000, 0xFF03FFFF⟩,
  ⟨"feis.d", 0x85000000, 0xFF03FFFF⟩,
  ⟨"srnd", 0xA0000000, 0xFF038000⟩,
  ⟨"srnd.i", 0xA1000000, 0xFF038000⟩,
  ⟨"spn.e", 0xA4000000, 0xFF03FFFF⟩,
  ⟨"spn.d", 0xA5000000, 0xFF03FFFF⟩,
  ⟨"pad", 0xC0000000, 0xFF03FFFF⟩,
  ⟨"unpad", 0xC4000000, 0xFF03FFFF⟩,
  ⟨"ecb.e.f", 0xC8000000, 0xFF03FFFF⟩,
  ⟨"ecb.d.f", 0xC9000000, 0xFF03FFFF⟩,
  ⟨"ecb.e.s", 0xCA000000, 0xFF03FFFF⟩,
  ⟨"ecb.d.s", 0xCB000000, 0xFF03FFFF⟩,
  ⟨"cbc.e.f", 0xCC000000, 0xFF007FFF⟩,
  ⟨"cbc.d.f", 0xCD000000, 0xFF007FFF⟩,
  ⟨"cbc.e.s", 0xCE000000, 0xFF007FFF⟩,
  ⟨"cbc.d.s", 0xCF000000, 0xFF007FFF⟩,
  ⟨"nop", 0xE0000000, 0xFFFFFFFF⟩,
  ⟨"clrerr", 0xE4000000, 0xFFFFFFFF⟩,
  ⟨"mov", 0xE8000000, 0xFF03FFFF⟩]

/-- The rule of R94 and R95: does the word belong to the row? -/
def OpcodeRow.covers (r : OpcodeRow) (w : Word) : Bool := w &&& r.mask == r.pattern

/-- The name of a command as the opcode table and the assembler spell it (rules R94 and R100). -/
def Instr.mnemonic : Instr → String
  | .tobits _ _ => "tobits"
  | .frombits _ _ => "frombits"
  | .tohex _ _ => "tohex"
  | .fromhex _ _ => "fromhex"
  | .xor _ _ _ => "xor"
  | .sub4 _ _ => "sub4"
  | .sub4I _ _ => "sub4.i"
  | .perm _ _ => "perm"
  | .permI _ _ => "perm.i"
  | .pdflt => "pdflt"
  | .pload => "pload"
  | .ksched _ => "ksched"
  | .rkget _ _ => "rkget"
  | .frnd _ _ _ => "frnd"
  | .frndI _ _ _ => "frnd.i"
  | .feisE _ _ => "feis.e"
  | .feisD _ _ => "feis.d"
  | .srnd _ _ _ => "srnd"
  | .srndI _ _ _ => "srnd.i"
  | .spnE _ _ => "spn.e"
  | .spnD _ _ => "spn.d"
  | .pad _ _ => "pad"
  | .unpad _ _ => "unpad"
  | .ecbEF _ _ => "ecb.e.f"
  | .ecbDF _ _ => "ecb.d.f"
  | .ecbES _ _ => "ecb.e.s"
  | .ecbDS _ _ => "ecb.d.s"
  | .cbcEF _ _ _ => "cbc.e.f"
  | .cbcDF _ _ _ => "cbc.d.f"
  | .cbcES _ _ _ => "cbc.e.s"
  | .cbcDS _ _ _ => "cbc.d.s"
  | .nop => "nop"
  | .clrerr => "clrerr"
  | .mov _ _ => "mov"

/-- A register operand as the assembler writes it: `q0` .. `q7` (rule R100). -/
def regText (r : QReg) : String := "q" ++ toString r.val

/-- A command as one line of assembler text (rule R100): the mnemonic, then the operands separated by commas, the
destination first. -/
def Instr.asm (i : Instr) : String :=
  let ops := match i with
    | .tobits rd rs1 => [regText rd, regText rs1]
    | .frombits rd rs1 => [regText rd, regText rs1]
    | .tohex rd rs1 => [regText rd, regText rs1]
    | .fromhex rd rs1 => [regText rd, regText rs1]
    | .xor rd rs1 rs2 => [regText rd, regText rs1, regText rs2]
    | .sub4 rd rs1 => [regText rd, regText rs1]
    | .sub4I rd rs1 => [regText rd, regText rs1]
    | .perm rd rs1 => [regText rd, regText rs1]
    | .permI rd rs1 => [regText rd, regText rs1]
    | .pdflt => []
    | .pload => []
    | .ksched rs1 => [regText rs1]
    | .rkget rd imm => [regText rd, toString imm]
    | .frnd rd rs1 imm => [regText rd, regText rs1, toString imm]
    | .frndI rd rs1 imm => [regText rd, regText rs1, toString imm]
    | .feisE rd rs1 => [regText rd, regText rs1]
    | .feisD rd rs1 => [regText rd, regText rs1]
    | .srnd rd rs1 imm => [regText rd, regText rs1, toString imm]
    | .srndI rd rs1 imm => [regText rd, regText rs1, toString imm]
    | .spnE rd rs1 => [regText rd, regText rs1]
    | .spnD rd rs1 => [regText rd, regText rs1]
    | .pad rd rs1 => [regText rd, regText rs1]
    | .unpad rd rs1 => [regText rd, regText rs1]
    | .ecbEF rd rs1 => [regText rd, regText rs1]
    | .ecbDF rd rs1 => [regText rd, regText rs1]
    | .ecbES rd rs1 => [regText rd, regText rs1]
    | .ecbDS rd rs1 => [regText rd, regText rs1]
    | .cbcEF rd rs1 rs2 => [regText rd, regText rs1, regText rs2]
    | .cbcDF rd rs1 rs2 => [regText rd, regText rs1, regText rs2]
    | .cbcES rd rs1 rs2 => [regText rd, regText rs1, regText rs2]
    | .cbcDS rd rs1 rs2 => [regText rd, regText rs1, regText rs2]
    | .nop => []
    | .clrerr => []
    | .mov rd rs1 => [regText rd, regText rs1]
  if ops.isEmpty then i.mnemonic else i.mnemonic ++ " " ++ String.intercalate ", " ops

/-- What the decoder reads from an opcode-table word of `nbits` bits: a command is always one 32-bit word (rules R90
and R99), so the bits above `nbits` are 0. -/
def decodeTableWord (nbits w : Nat) : Option Instr := decode (BitVec.ofNat 32 (w % 2 ^ nbits))

end Sys2Proof
end

