-- ==== Sys2Proof/Machine/State.lean ====
section
/-! DEFINITION. The state of the CORE as plain data: everything rule R20 of spec/10_state.md lists, the host's pending
accesses and the data they have read (the model's own fields), the causes of an error, and the state after reset
(rule R43). -/

namespace Sys2Proof.Machine

/-- The errors a command can raise (rule R220). Their codes are `errorCode` in Ops.lean. -/
inductive CmdError where
  /-- code 1: a text operand that is not whole characters, or a character that is no hexadecimal digit -/
  | invalidFormat
  /-- code 2: a length or a recorded width that does not fit the operation -/
  | lengthMismatch
  /-- code 3: a supplied permutation table that is not a bijection over its width -/
  | nonInvertibleTable
  /-- code 4: a word that matches no row of the opcode table -/
  | illegalCommand
  /-- code 5: a configuration register holds a value the command cannot work with -/
  | badConfig
  /-- code 6: no schedule is recorded, or the round-key index is not below `RKN` -/
  | noRoundKey
  /-- code 7: a result longer than `QMAX` bits -/
  | overflow
deriving DecidableEq, Repr

/-- The twenty registers of the host's register space (rule R42). -/
inductive Csr where
  | cmd | status | errcode | errinfo | ie | nr | rks | bs | pws | pw | pidx | pdata | pact | rkn | rkw | seed
  | qsel | qlen | qptr | qdata
deriving DecidableEq, Repr

/-- What the outside world can do to the CORE: a host access to the register space, or the reset input. An access
carries its byte offset in the register space (rule R69 counts from `CORE_BASE`) and its size in bytes; only an
aligned word inside the space has a meaning (rule R61). Offsets are counted from `CORE_BASE` (DESIGN CHOICE, log
entry 11); the shape of an access is DEDUCED (log entries 12 and 13). -/
inductive HostEvent where
  /-- a host read of `bytes` bytes at offset `addr` -/
  | read (addr bytes : Nat)
  /-- a host write of `bytes` bytes at offset `addr`; `value` is the word written when `bytes = 4` -/
  | write (addr bytes : Nat) (value : Word)
  /-- `rst` is asserted and released (rule R250) -/
  | rst
deriving DecidableEq, Repr

/-- The state (rule R20), one field for each register or store, and the model's two fields for the host's side. -/
structure State where
  /-- `q0`..`q7`: each a bit sequence of 0..QMAX bits (rule R21) -/
  q : Vector Bits 8
  /-- the round-key file: `RK[i]` is entry i of the list; entries at or above `RKN` hold nothing (rule R36;
  DEDUCED, log entry 14) -/
  rk : List Bits
  /-- `RKN`: how many round keys the file holds (rule R35) -/
  rkn : Word
  /-- `RKW`: the length of each round key, in bits (rule R35) -/
  rkw : Word
  /-- `STATUS.RKV`: the file holds a schedule (rules R25 and R35) -/
  rkv : Bool
  /-- `SEED`: the scheduler seed as the last successful `ksched` left it (rule R35) -/
  seed : Word
  /-- `PTAB[1..PW_MAX]`: the active permutation table, `PTAB[p]` at index p - 1 (rule R39) -/
  ptab : Vector Entry Config.pwMax
  /-- `PW`: the width of the active table (rule R33) -/
  pw : Word
  /-- `PSTG[1..PW_MAX]`: the staging permutation table, `PSTG[p]` at index p - 1 (rule R39) -/
  pstg : Vector Entry Config.pwMax
  /-- `PWS`: the width of the staging table (rule R32) -/
  pws : Word
  /-- `NR`: the round count of the next `ksched` (rule R29) -/
  nr : Word
  /-- `RKS`: the round-key size of the next `ksched` (rule R30) -/
  rks : Word
  /-- `BS`: the block size in bits (rule R31) -/
  bs : Word
  /-- `STATUS.ERR`: an error is latched (rule R25) -/
  err : Bool
  /-- `STATUS.PAMB`: the last successful `unpad` returned its input unmodified (rule R25) -/
  pamb : Bool
  /-- `STATUS.FMT`: the format the last successful `tobits` matched (rule R25) -/
  fmt : BitVec 2
  /-- `ERRCODE[2:0]`: the code of the latched error (rule R26) -/
  errcode : BitVec 3
  /-- `ERRINFO`: the command word that raised the latched error (rule R27) -/
  errinfo : Word
  /-- `IE.ERRIE`: the interrupt line follows `STATUS.ERR` (rule R28) -/
  errie : Bool
  /-- `QSEL[2:0]`: the q register the host's window addresses (rule R37) -/
  qsel : QReg
  /-- `QPTR`: the index of the word of `q[QSEL]` that `QDATA` addresses (rule R37) -/
  qptr : Word
  /-- `PIDX`: the 1-based position the table windows address (rule R34) -/
  pidx : Word
  /-- `SBOX[0..15]`: the built-in substitution table, a constant (rule R40; DESIGN CHOICE, log entry 15) -/
  sbox : Vector (BitVec 4) 16
  /-- `PBOX16[1..16]`: the built-in permutation table, a constant, `PBOX16[p]` at index p - 1 (rule R40; DESIGN
  CHOICE, log entry 15) -/
  pbox16 : Vector Entry 16
  /-- the MODEL's field: the accesses the host has issued and the CORE has not served yet, oldest first (rule R71,
  log entry 3) -/
  pending : List HostEvent
  /-- the MODEL's field: the words the host's reads have returned, oldest first (log entry 4) -/
  replies : List Word
deriving DecidableEq, Repr

/-- The reasons the machine could stop with a fault: none. The CORE has no condition in which it stops; every failure
of a command is latched and the CORE goes on (rules R222 and R228). -/
inductive Fault where
deriving DecidableEq, Repr

/-- The reasons a step has no meaning. -/
inductive Refusal where
  /-- An instruction that has no meaning in the model; raised by no arm of `exec`. Safe: nothing can be proved through
  a refused step. -/
  | notModelled (mnemonic : String)
  /-- Raised by the host bus for an access narrower or wider than a word, which rule R61 gives no meaning. Safe. -/
  | accessNotAWord
  /-- Raised by the host bus for an access at an offset above 0xFF, outside the register space (rule R61). Safe. -/
  | accessOutsideSpace
  /-- Raised by the host bus for an access at an offset that is no multiple of 4 (rule R61). Safe. -/
  | accessMisaligned
deriving DecidableEq, Repr

/-- `PBOX16` in the first sixteen entries of a 256-entry table and 0 above them: `PSTG` after reset (rule R39), and
`PTAB`, whose entries above `PW = 16` the spec leaves unreadable (DESIGN CHOICE, log entry 5). -/
def defaultTable (pbox16 : Vector Entry 16) : Vector Entry Config.pwMax :=
  pbox16 ++ (Vector.replicate 240 0 : Vector Entry 240)

/-- The state after reset (rule R43) of a CORE built with these two tables, with no host access pending. -/
def State.resetWith (sbox : Vector (BitVec 4) 16) (pbox16 : Vector Entry 16) : State where
  q := Vector.replicate 8 []
  rk := []
  rkn := 0
  rkw := 0
  rkv := false
  seed := 0
  ptab := defaultTable pbox16
  pw := 16
  pstg := defaultTable pbox16
  pws := 16
  nr := 0
  rks := 0
  bs := 0
  err := false
  pamb := false
  fmt := 0
  errcode := 0
  errinfo := 0
  errie := false
  qsel := 0
  qptr := 0
  pidx := 0
  sbox := sbox
  pbox16 := pbox16
  pending := []
  replies := []

/-- The substitution table the CORE is built with, as data (rule R40). -/
def builtinSbox : Vector (BitVec 4) 16 := Vector.ofFn fun x => BitVec.ofNat 4 (Config.sbox x).val

/-- The permutation table the CORE is built with, as data with 1-based entries (rules R8 and R40). -/
def builtinPbox16 : Vector Entry 16 := Vector.ofFn fun p => BitVec.ofNat 16 ((Config.pbox16 p).val + 1)

/-- The machine right after reset (rules R43 and R250), its two tables the uninterpreted constants of Config. -/
def State.reset : State := State.resetWith builtinSbox builtinPbox16

end Sys2Proof.Machine
end

