-- ==== Sys2Proof/Machine/Bits.lean ====
section
/-! DEFINITION. The operations on bit sequences the spec's pseudocode uses (rule R12 of spec/00_scope.md), and the two
on numbers it needs (rule R16). -/

namespace Sys2Proof.Machine

/-- `ceil(n / m)` for `m >= 1`: the least k with `k*m >= n` (rule R16(d)). -/
def ceilDiv (n m : Nat) : Nat := (n + m - 1) / m

/-- The slice `s[i..j)` (rule R12). -/
def slice (s : Bits) (i j : Nat) : Bits := (s.drop i).take (j - i)

/-- `zeros(n)` -/
def zeros (n : Nat) : Bits := List.replicate n false

/-- `padr(s, n)`: zeros appended on the right up to length n. -/
def padR (s : Bits) (n : Nat) : Bits := s ++ zeros (n - s.length)

/-- `padl(s, n)`: zeros prepended on the left up to length n. -/
def padL (s : Bits) (n : Nat) : Bits := zeros (n - s.length) ++ s

/-- `padr_mult(s, w)`: right-zero-pad to the next multiple of w; the empty sequence stays empty. -/
def padRMult (s : Bits) (w : Nat) : Bits := padR s (w * ceilDiv s.length w)

/-- `val(s)`: the sequence read as an unsigned number, first bit most significant. -/
def val (s : Bits) : Nat := s.foldl (fun acc b => 2 * acc + b.toNat) 0

/-- `bits_n(v)`: for `v < 2^n`, the n-bit sequence whose value is v. -/
def bitsOf : Nat → Nat → Bits
  | 0, _ => []
  | n + 1, v => v.testBit n :: bitsOf n v

/-- `minbits(v)`: for `v >= 1`, the shortest sequence whose value is v. -/
def minBits (v : Nat) : Bits := bitsOf (Nat.log2 v + 1) v

/-- `xor(a, b)`: for sequences of equal length, the exclusive-or position by position. -/
def xorBits (a b : Bits) : Bits := List.zipWith xor a b

/-- The first n chunks of w bits of a sequence. -/
def chunksN (w : Nat) : Nat → Bits → List Bits
  | 0, _ => []
  | n + 1, s => s.take w :: chunksN w n (s.drop w)

/-- `chunks(s, w)`: for `|s|` a multiple of w, its chunks of w bits, in order. -/
def chunks (s : Bits) (w : Nat) : List Bits := chunksN w (s.length / w) s

/-- `bytes(s)`: for `|s|` a multiple of 8, the value of each group of 8 bits, in order (rules R12 and R15). -/
def bytesOf (s : Bits) : List Nat := (chunks s 8).map val

/-- The bit sequence of a list of byte values, 8 bits each, most significant bit first (rule R64(c)). -/
def ofBytes (c : List Nat) : Bits := c.flatMap (bitsOf 8)

end Sys2Proof.Machine
end

