-- ==== Sys2Proof/Machine/Flags.lean ====
section
/-! DEFINITION. The four fields of `STATUS` (rules R25 and R44): the word a host read returns, and the flags a command
writes. The CORE has no arithmetic condition codes. -/

namespace Sys2Proof.Machine

/-- `STATUS` as a word (rule R25): `ERR` in bit 0, `PAMB` in bit 1, `FMT` in bits 3:2, `RKV` in bit 4, bits 31:5 zero. -/
def State.statusWord (s : State) : Word :=
  (0 : BitVec 27) ++ BitVec.ofBool s.rkv ++ s.fmt ++ BitVec.ofBool s.pamb ++ BitVec.ofBool s.err

/-- `STATUS.PAMB <- v`, written by every `unpad` that completes (rules R44 and R193). -/
def State.setPamb (s : State) (v : Bool) : State := { s with pamb := v }

/-- `STATUS.FMT <- rule - 1`, written by every `tobits` that completes (rules R44 and R122). -/
def State.setFmt (s : State) (rule : Nat) : State := { s with fmt := BitVec.ofNat 2 (rule - 1) }

/-- `irq = STATUS.ERR and IE.ERRIE`: the one output line, a level that holds nothing (rule R226). -/
def State.irq (s : State) : Bool := s.err && s.errie

end Sys2Proof.Machine
end

