-- ==== Sys2Proof/Machine/Operands.lean ====
section
/-! DEFINITION. The operand forms of the commands: a q register read and written whole (rules R21, R70 and R93), text
operands (rules R15 and R120), a round key by index (rules R36 and R93), and the two tables as the commands use
them (rules R39 and R40). -/

namespace Sys2Proof.Machine

/-- Read of a bit-sequence register, length and bits together (rule R21). -/
def State.readQ (s : State) (r : QReg) : Bits := s.q[r]

/-- Write of a bit-sequence register, length and bits replaced together (rule R21). -/
def State.writeQ (s : State) (r : QReg) (b : Bits) : State := { s with q := s.q.set r b }

/-- A text operand is a whole number of characters, 8 bits each (rule R120). -/
def isText (t : Bits) : Bool := t.length % 8 == 0

/-- `RK[i]`: round key i of the file, for `i < RKN` (rule R36). -/
def State.roundKey (s : State) (i : Nat) : Bits := s.rk.getD i []

/-- `RK[0..RKN)`: the round keys a whole cipher uses, in order (rules R35 and R36). -/
def State.roundKeys (s : State) : List Bits := s.rk.take s.rkn.toNat

/-- The entries 1..w of a table as numbers; positions above `PW_MAX` do not exist. -/
def tableEntries (t : Vector Entry Config.pwMax) (w : Nat) : List Nat := (t.toList.take w).map BitVec.toNat

/-- A table as (source, destination) pairs of 1-based positions (rule R145). -/
def tablePairs (entries : List Nat) : List (Nat × Nat) := entries.zipIdx.map fun (dst, k) => (k + 1, dst)

/-- `PTAB[1..PW]` as (source, destination) pairs: the permutation table every command uses (rules R33 and R39). -/
def State.activeTable (s : State) : List (Nat × Nat) := tablePairs (tableEntries s.ptab s.pw.toNat)

/-- `SBOX[x]` (rule R142). -/
def sboxAt (sbox : Vector (BitVec 4) 16) (x : Nat) : Nat := (sbox.toList.getD x 0).toNat

/-- `INVSBOX[y]`: the x with `SBOX[x] = y` (rules R7 and R142). -/
def invSboxAt (sbox : Vector (BitVec 4) 16) (y : Nat) : Nat := sbox.toList.findIdx fun e => e.toNat == y

/-- One entry of a permutation table by its 1-based position, 0 outside `1..limit` (rule R34). -/
def entryAt (t : Vector Entry Config.pwMax) (limit p : Nat) : Entry :=
  if 1 ≤ p ∧ p ≤ limit then t.toList.getD (p - 1) 0 else 0

/-- `for p in 1..w: T[p] <- f p` on a permutation table; the entries above w keep their values (rule R147). -/
def fillTable (t : Vector Entry Config.pwMax) (w : Nat) (f : Nat → Entry) : Vector Entry Config.pwMax :=
  t.mapIdx fun k e => if k < w then f (k + 1) else e

end Sys2Proof.Machine
end

