-- ==== Sys2Proof/Machine/Ops.lean ====
section
/-! DEFINITION. The operations every command shares: raising an error (rules R220 and R222), leaving the error state
(rules R211 and R227), and running a command's body behind the error latch (rules R70, R223 and R224). -/

namespace Sys2Proof.Machine

/-- The code of an error in `ERRCODE` (rule R220). -/
def errorCode : CmdError → BitVec 3
  | .invalidFormat => 1
  | .lengthMismatch => 2
  | .nonInvertibleTable => 3
  | .illegalCommand => 4
  | .badConfig => 5
  | .noRoundKey => 6
  | .overflow => 7

/-- Error entry (rule R222): the latch is set with the error's code and the command word, and nothing else changes.
Nothing is saved and control goes nowhere: the CORE has no program counter, no mode and no handler. -/
def State.raise (s : State) (e : CmdError) (w : Word) : State :=
  { s with err := true, errcode := errorCode e, errinfo := w }

/-- The return from an error (rules R211 and R227): the latch is cleared and nothing is restored, because error entry
saved nothing. -/
def State.clearLatch (s : State) : State := { s with err := false, errcode := 0, errinfo := 0 }

/-- Gating (rule R223): while an error is latched a command is dropped and nothing changes. -/
def State.unlessLatched (s t : State) : State := if s.err then s else t

/-- Run a command whose body answers the state it writes, or the first error its checks reach (rules R70 and R224): the
command is dropped while an error is latched (rule R223); an error writes the latch alone, with the command's
own word in `ERRINFO` (rule R222; DEDUCED, log entry 16); otherwise the body's state is the next state. -/
def State.command (s : State) (i : Instr) (body : Except CmdError State) : Host.Outcome State Fault Refusal :=
  .next (s.unlessLatched (match body with
    | .ok t => t
    | .error e => s.raise e (encode i)))

/-- The bits of a result are written only when they fit a q register (`QMAX`): otherwise Overflow (rule R220). `len` is
the length the result has. -/
def fitsQ (len : Nat) : Bool := decide (len ≤ Config.qMax)

end Sys2Proof.Machine
end

