-- ==== Sys2Proof/Machine/Codec.lean ====
section
/-! DEFINITION. The bit-sequence codec: `tobits`, `frombits`, `tohex` and `fromhex` (rules R120 to R129 of
spec/41_codec.md). -/

namespace Sys2Proof.Machine

/-- `isbin`: the characters `0` and `1` (rule R121). -/
def isBin (c : Nat) : Bool := c == 0x30 || c == 0x31

/-- `isdec`: the characters `0`..`9` (rule R121). -/
def isDec (c : Nat) : Bool := decide (0x30 ≤ c) && decide (c ≤ 0x39)

/-- `isletter`: the characters `a`..`f` and `A`..`F` (rule R121). UNVERIFIED (log entry 9). -/
def isLetter (c : Nat) : Bool :=
  (decide (0x61 ≤ c) && decide (c ≤ 0x66)) || (decide (0x41 ≤ c) && decide (c ≤ 0x46))

/-- `ishex`: a decimal digit or a letter `a`..`f` in either case (rule R121). -/
def isHex (c : Nat) : Bool := isDec c || isLetter c

/-- `hexval`: the value of a hexadecimal digit (rule R121). -/
def hexVal (c : Nat) : Nat :=
  if isDec c then c - 0x30 else if 0x61 ≤ c then c - 0x61 + 10 else c - 0x41 + 10

/-- `hexchar`: the lower-case digit of a value 0..15 (rule R121). -/
def hexChar (v : Nat) : Nat := if v ≤ 9 then 0x30 + v else 0x61 + v - 10

/-- The bits of a string of hexadecimal digits: four for each digit, in order (rules R121 and R128). -/
def hexBits (c : List Nat) : Bits := c.flatMap fun d => bitsOf 4 (hexVal d)

/-- The number a string of decimal digits stands for (rule R121, format rule 3). -/
def decimalValue (c : List Nat) : Nat := c.foldl (fun v d => 10 * v + (d - 0x30)) 0

/-- `detect`: the format of a string and the bits it stands for, the four format rules tried in order, first match wins
(rules R121 and R123). DEDUCED (log entry 7): text such as "A" is hexadecimal, against one test vector of the spec. -/
def detect (c : List Nat) : Except CmdError (Nat × Bits) :=
  if c.all isBin then .ok (1, c.map fun d => d == 0x31)
  else if Config.hexPrefix.isPrefixOf c then
    if (c.drop Config.hexPrefix.length).all isHex then .ok (2, hexBits (c.drop Config.hexPrefix.length))
    else .error .invalidFormat
  else if c.all isHex && c.any isLetter then .ok (2, hexBits c)
  else if c.all isDec then .ok (3, minBits (decimalValue c))
  else .ok (4, ofBytes c)

/-- The text `tohex` makes: the sequence left-zero-padded to a 4-bit boundary, one lower-case digit for each nibble, 8
bits each (rule R126). -/
def hexText (b : Bits) : Bits :=
  ofBytes ((chunks (padL b (4 * ceilDiv b.length 4)) 4).map fun nib => hexChar (val nib))

/-- `tobits rd, rs1` (rule R122). -/
def execTobits (rd rs1 : QReg) (s : State) : Host.Outcome State Fault Refusal :=
  s.command (.tobits rd rs1) <|
    if !isText (s.readQ rs1) then .error .invalidFormat
    else match detect (bytesOf (s.readQ rs1)) with
      | .error e => .error e
      | .ok (rule, b) => .ok ((s.writeQ rd b).setFmt rule)

/-- `frombits rd, rs1` (rule R124). -/
def execFrombits (rd rs1 : QReg) (s : State) : Host.Outcome State Fault Refusal :=
  s.command (.frombits rd rs1) <|
    if !isText (s.readQ rs1) then .error .invalidFormat
    else .ok (s.writeQ rd (s.readQ rs1))

/-- `tohex rd, rs1` (rule R126). -/
def execTohex (rd rs1 : QReg) (s : State) : Host.Outcome State Fault Refusal :=
  s.command (.tohex rd rs1) <|
    if !fitsQ (8 * ceilDiv (s.readQ rs1).length 4) then .error .overflow
    else .ok (s.writeQ rd (hexText (s.readQ rs1)))

/-- `fromhex rd, rs1` (rule R128). -/
def execFromhex (rd rs1 : QReg) (s : State) : Host.Outcome State Fault Refusal :=
  s.command (.fromhex rd rs1) <|
    if !isText (s.readQ rs1) then .error .invalidFormat
    else if !(bytesOf (s.readQ rs1)).all isHex then .error .invalidFormat
    else .ok (s.writeQ rd (hexBits (bytesOf (s.readQ rs1))))

end Sys2Proof.Machine
end

