-- ==== Sys2Proof/Machine/Scheduler.lean ====
section
/-! DEFINITION. The round-key scheduler: `ksched` and `rkget` (rules R160 to R166 of spec/43_scheduler.md). -/

namespace Sys2Proof.Machine

/-- `seed0(k)` (rule R161): the exclusive-or of the two halves read as numbers, its 32 least significant bits. -/
def seed0 (k : Bits) : Nat := (val (k.take (k.length / 2)) ^^^ val (k.drop (k.length / 2))) % 2 ^ 32

/-- `step(s, i)` (rules R16(c) and R162): the recurrence of the generator, reduced at the end. -/
def lcgStep (seed i : Nat) : Nat := (Config.lcgA * (seed + i) + Config.lcgC) % 2 ^ 32

/-- The recurrence of the local copy of the seed: the same one, with the round index added when
`KS_LOCAL_ADD_INDEX` says so (rules R9 and R162). -/
def localStep (seed i : Nat) : Nat := lcgStep seed (if Config.ksLocalAddIndex then i else 0)

/-- The next n words the local copy emits in round i, each after its advance, big-endian (rules R64(d) and R162). -/
def localWords (i : Nat) : Nat → Nat → Bits
  | 0, _ => []
  | n + 1, loc => bitsOf 32 (localStep loc i) ++ localWords i n (localStep loc i)

/-- The round key of round i from the seed of that round: words until at least `size` bits are there, `ceil(size/32)`
of them, then the first `size` bits (rule R162). -/
def roundKeyFrom (seed i size : Nat) : Bits := (localWords i (ceilDiv size 32) seed).take size

/-- The round keys of n rounds from round i on, and the seed after the last of them (rule R162). -/
def scheduleFrom (size : Nat) : Nat → Nat → Nat → List Bits × Nat
  | 0, _, seed => ([], seed)
  | n + 1, i, seed =>
    let rest := scheduleFrom size n (i + 1) (lcgStep seed i)
    (roundKeyFrom (lcgStep seed i) i size :: rest.1, rest.2)

/-- `schedule(k, n, size)` (rule R162): the n round keys and the final seed. -/
def schedule (k : Bits) (n size : Nat) : List Bits × Nat := scheduleFrom size n 0 (seed0 k)

/-- The state a successful `ksched` writes, all together (rule R164). -/
def State.installSchedule (s : State) (keys : List Bits) (seed : Nat) : State :=
  { s with rk := keys, rkn := s.nr, rkw := s.rks, seed := BitVec.ofNat 32 seed, rkv := true }

/-- `ksched rs1` (rule R163). -/
def execKsched (rs1 : QReg) (s : State) : Host.Outcome State Fault Refusal :=
  s.command (.ksched rs1) <|
    if Config.nrMax < s.nr.toNat ∨ s.rks.toNat < 1 ∨ Config.rksMax < s.rks.toNat then .error .badConfig
    else if (s.readQ rs1).length < 2 ∨ (s.readQ rs1).length % 2 ≠ 0 then .error .lengthMismatch
    else .ok (s.installSchedule (schedule (s.readQ rs1) s.nr.toNat s.rks.toNat).1
      (schedule (s.readQ rs1) s.nr.toNat s.rks.toNat).2)

/-- No round key with this index: no schedule is recorded, or the index is not below `RKN` (rules R93 and R166). -/
def State.keyMissing (s : State) (imm : Nat) : Bool := !s.rkv || decide (s.rkn.toNat ≤ imm)

/-- `rkget rd, imm` (rule R166). -/
def execRkget (rd : QReg) (imm : Nat) (s : State) : Host.Outcome State Fault Refusal :=
  s.command (.rkget rd imm) <|
    if s.keyMissing imm then .error .noRoundKey
    else .ok (s.writeQ rd (s.roundKey imm))

end Sys2Proof.Machine
end

