-- ==== Sys2Proof/Machine/Tables.lean ====
section
/-! DEFINITION. The table primitives: `xor`, `sub4`, `sub4.i`, `perm`, `perm.i`, `pdflt` and `pload` (rules R141 to
R149 of spec/42_tables.md), with the two functions `substitute` and `permute` the round engines use. -/

namespace Sys2Proof.Machine

/-- `substitute(s, inverse)` (rule R143): every group of 4 bits is looked up in `SBOX`, or in its inverse, a short last
group zero-padded on the right first; the padding is not removed. -/
def substitute (sbox : Vector (BitVec 4) 16) (inverse : Bool) (b : Bits) : Bits :=
  (chunks (padRMult b 4) 4).flatMap fun nib =>
    bitsOf 4 (if inverse then invSboxAt sbox (val nib) else sboxAt sbox (val nib))

/-- The relation a table stands for in one direction: the pairs as they are, or with source and destination swapped
(rule R145). -/
def direction (inverse : Bool) (table : List (Nat × Nat)) : List (Nat × Nat) :=
  if inverse then table.map Prod.swap else table

/-- The bit of one output chunk at 1-based position `dst`: the input bit of the pair that ends there, 0 where no pair
does (rule R145). DEDUCED (log entry 6): where two pairs end at one position, which no active table has, the
first is taken. -/
def permutedBit (pairs : List (Nat × Nat)) (chunk : Bits) (dst : Nat) : Bool :=
  match pairs.find? fun p => p.2 == dst with
  | some (src, _) => chunk.getD (src - 1) false
  | none => false

/-- One chunk of w bits permuted (rule R145). -/
def permuteChunk (pairs : List (Nat × Nat)) (w : Nat) (chunk : Bits) : Bits :=
  (List.range w).map fun k => permutedBit pairs chunk (k + 1)

/-- `permute(s, inverse, T, w)` (rule R145): every chunk of w bits is permuted by itself, a short last chunk zero-padded
on the right first; the padding is not removed. -/
def permute (table : List (Nat × Nat)) (w : Nat) (inverse : Bool) (b : Bits) : Bits :=
  (chunks (padRMult b w) w).flatMap (permuteChunk (direction inverse table) w)

/-- `isbij(T, w)` on the entries of a table (rule R148): every entry is in 1..w and no two are equal. -/
def isBijection (entries : List Nat) (w : Nat) : Bool :=
  entries.all (fun d => decide (1 ≤ d) && decide (d ≤ w)) && decide entries.Nodup

/-- Is `PWS` a width `pdflt` and `pload` can install (rules R32, R147 and R148)? -/
def State.widthOk (s : State) : Bool := decide (1 ≤ s.pws.toNat) && decide (s.pws.toNat ≤ Config.pwMax)

/-- Entry p of the default table for width w: `PBOX16` for width 16, the identity for any other (rules R8 and R147). -/
def State.defaultEntry (s : State) (w p : Nat) : Entry :=
  if w = 16 then s.pbox16.toList.getD (p - 1) 0 else BitVec.ofNat 16 p

/-- `sub4` and `sub4.i` (rule R144). -/
def State.sub4 (s : State) (inverse : Bool) (rd rs1 : QReg) : Except CmdError State :=
  if !fitsQ (4 * ceilDiv (s.readQ rs1).length 4) then .error .overflow
  else .ok (s.writeQ rd (substitute s.sbox inverse (s.readQ rs1)))

/-- `perm` and `perm.i` (rule R146). -/
def State.perm (s : State) (inverse : Bool) (rd rs1 : QReg) : Except CmdError State :=
  if !fitsQ (s.pw.toNat * ceilDiv (s.readQ rs1).length s.pw.toNat) then .error .overflow
  else .ok (s.writeQ rd (permute s.activeTable s.pw.toNat inverse (s.readQ rs1)))

/-- `xor rd, rs1, rs2` (rule R141). -/
def execXor (rd rs1 rs2 : QReg) (s : State) : Host.Outcome State Fault Refusal :=
  s.command (.xor rd rs1 rs2) <|
    if (s.readQ rs1).length ≠ (s.readQ rs2).length then .error .lengthMismatch
    else .ok (s.writeQ rd (xorBits (s.readQ rs1) (s.readQ rs2)))

/-- `sub4 rd, rs1` (rule R144). -/
def execSub4 (rd rs1 : QReg) (s : State) : Host.Outcome State Fault Refusal :=
  s.command (.sub4 rd rs1) (s.sub4 false rd rs1)

/-- `sub4.i rd, rs1` (rule R144). -/
def execSub4I (rd rs1 : QReg) (s : State) : Host.Outcome State Fault Refusal :=
  s.command (.sub4I rd rs1) (s.sub4 true rd rs1)

/-- `perm rd, rs1` (rule R146). -/
def execPerm (rd rs1 : QReg) (s : State) : Host.Outcome State Fault Refusal :=
  s.command (.perm rd rs1) (s.perm false rd rs1)

/-- `perm.i rd, rs1` (rule R146). -/
def execPermI (rd rs1 : QReg) (s : State) : Host.Outcome State Fault Refusal :=
  s.command (.permI rd rs1) (s.perm true rd rs1)

/-- `pdflt` (rule R147): the default table for width `PWS` into the staging and the active table. -/
def execPdflt (s : State) : Host.Outcome State Fault Refusal :=
  s.command .pdflt <|
    if !s.widthOk then .error .badConfig
    else .ok { s with
      pstg := fillTable s.pstg s.pws.toNat (s.defaultEntry s.pws.toNat)
      ptab := fillTable s.ptab s.pws.toNat (s.defaultEntry s.pws.toNat)
      pw := s.pws }

/-- `pload` (rule R148): the staging table, checked to be a bijection, becomes the active table. -/
def execPload (s : State) : Host.Outcome State Fault Refusal :=
  s.command .pload <|
    if !s.widthOk then .error .badConfig
    else if !isBijection (tableEntries s.pstg s.pws.toNat) s.pws.toNat then .error .nonInvertibleTable
    else .ok { s with
      ptab := fillTable s.ptab s.pws.toNat (entryAt s.pstg s.pws.toNat)
      pw := s.pws }

end Sys2Proof.Machine
end

