-- ==== Sys2Proof/Machine/Feistel.lean ====
section
/-! DEFINITION. The Feistel round engine: `frnd`, `frnd.i`, `feis.e` and `feis.d` (rules R170 to R177 of
spec/44_feistel.md). -/

namespace Sys2Proof.Machine

/-- `h = BS/2`, the length of a half-block (rule R170). -/
def State.halfBlock (s : State) : Nat := s.bs.toNat / 2

/-- A block size no Feistel command can work with (rule R171). -/
def State.badFeistelBlock (s : State) : Bool :=
  decide (s.bs.toNat < 2) || decide (s.bs.toNat % 2 ≠ 0) || decide (Config.qMax < s.bs.toNat)

/-- The recorded key width and the active table's width fit the half-block (rule R171). -/
def State.feistelWidthsFit (s : State) : Bool :=
  s.rkw.toNat == s.halfBlock && s.halfBlock % 4 == 0 && s.halfBlock % s.pw.toNat == 0

/-- `feistel_checks(nk)` (rule R171): the first error it reaches, if any; `nk` is how many round keys the command
will use. -/
def State.feistelChecks (s : State) (nk : Nat) : Option CmdError :=
  if s.badFeistelBlock then some .badConfig
  else if !s.rkv then some .noRoundKey
  else if 0 < nk ∧ !s.feistelWidthsFit then some .lengthMismatch
  else none

/-- `F(R, k)` (rule R172), and one forward SPN round of one chunk (rule R180): key mix, substitution, permutation. -/
def State.roundFunction (s : State) (r k : Bits) : Bits :=
  permute s.activeTable s.pw.toNat false (substitute s.sbox false (xorBits r k))

/-- `fround(b, k)` (rules R170 and R173): `L' = R`, `R' = xor(L, F(R, k))`, on a block of 2h bits. That L is the first
half is UNVERIFIED (log entry 9). -/
def State.feistelRound (s : State) (b k : Bits) : Bits :=
  b.drop (b.length / 2) ++ xorBits (b.take (b.length / 2)) (s.roundFunction (b.drop (b.length / 2)) k)

/-- `fround_inv(b, k)` (rule R173): the round function recomputed on the left half, which is the former right half. -/
def State.feistelRoundInv (s : State) (b k : Bits) : Bits :=
  xorBits (b.drop (b.length / 2)) (s.roundFunction (b.take (b.length / 2)) k) ++ b.take (b.length / 2)

/-- `feistel_enc(b)` (rule R175): the rounds in key order 0..N-1. -/
def State.feistelEnc (s : State) (b : Bits) : Bits := s.roundKeys.foldl s.feistelRound b

/-- `feistel_dec(b)` (rule R175): the inverse rounds, last round key first. -/
def State.feistelDec (s : State) (b : Bits) : Bits := s.roundKeys.reverse.foldl s.feistelRoundInv b

/-- One Feistel round with `RK[imm]` on the block in `q[rs1]` (rule R174). -/
def State.oneFeistelRound (s : State) (inverse : Bool) (rd rs1 : QReg) (imm : Nat) : Except CmdError State :=
  if s.badFeistelBlock then .error .badConfig
  else if s.keyMissing imm then .error .noRoundKey
  else if !s.feistelWidthsFit then .error .lengthMismatch
  else if (s.readQ rs1).length ≠ s.bs.toNat then .error .lengthMismatch
  else .ok (s.writeQ rd (if inverse then s.feistelRoundInv (s.readQ rs1) (s.roundKey imm)
    else s.feistelRound (s.readQ rs1) (s.roundKey imm)))

/-- Feistel encryption or decryption of the block in `q[rs1]` (rule R175). -/
def State.feistelBlock (s : State) (inverse : Bool) (rd rs1 : QReg) : Except CmdError State :=
  match s.feistelChecks s.rkn.toNat with
  | some e => .error e
  | none =>
    if (s.readQ rs1).length ≠ s.bs.toNat then .error .lengthMismatch
    else .ok (s.writeQ rd (if inverse then s.feistelDec (s.readQ rs1) else s.feistelEnc (s.readQ rs1)))

/-- `frnd rd, rs1, imm` (rule R174). -/
def execFrnd (rd rs1 : QReg) (imm : Nat) (s : State) : Host.Outcome State Fault Refusal :=
  s.command (.frnd rd rs1 imm) (s.oneFeistelRound false rd rs1 imm)

/-- `frnd.i rd, rs1, imm` (rule R174). -/
def execFrndI (rd rs1 : QReg) (imm : Nat) (s : State) : Host.Outcome State Fault Refusal :=
  s.command (.frndI rd rs1 imm) (s.oneFeistelRound true rd rs1 imm)

/-- `feis.e rd, rs1` (rule R175). -/
def execFeisE (rd rs1 : QReg) (s : State) : Host.Outcome State Fault Refusal :=
  s.command (.feisE rd rs1) (s.feistelBlock false rd rs1)

/-- `feis.d rd, rs1` (rule R175). -/
def execFeisD (rd rs1 : QReg) (s : State) : Host.Outcome State Fault Refusal :=
  s.command (.feisD rd rs1) (s.feistelBlock true rd rs1)

end Sys2Proof.Machine
end

