-- ==== Sys2Proof/Machine/Spn.lean ====
section
/-! DEFINITION. The SPN round engine: `srnd`, `srnd.i`, `spn.e` and `spn.d` (rules R180 to R187 of spec/45_spn.md). -/

namespace Sys2Proof.Machine

/-- `sround(c, k)` (rule R180): key mix, substitution, permutation. It is the same function as the Feistel `F`. -/
def State.spnChunk (s : State) (c k : Bits) : Bits := s.roundFunction c k

/-- `sround_inv(c, k)` (rule R180): inverse permutation, inverse substitution, key mix. -/
def State.spnChunkInv (s : State) (c k : Bits) : Bits :=
  xorBits (substitute s.sbox true (permute s.activeTable s.pw.toNat true c)) k

/-- `spn_round(x, k, inv)` (rule R181): one round over every chunk of `RKW` bits, a short last chunk zero-padded on the
right first; every chunk uses the same key. -/
def State.spnRound (s : State) (inverse : Bool) (x k : Bits) : Bits :=
  (chunks (padRMult x s.rkw.toNat) s.rkw.toNat).flatMap fun c =>
    if inverse then s.spnChunkInv c k else s.spnChunk c k

/-- The recorded key width is not a multiple of 4 and of `PW` (rule R182). -/
def State.spnWidthsBad (s : State) : Bool :=
  decide (s.rkw.toNat % 4 ≠ 0) || decide (s.rkw.toNat % s.pw.toNat ≠ 0)

/-- `spn_checks(nk)` (rule R182): the first error it reaches, if any. -/
def State.spnChecks (s : State) (nk : Nat) : Option CmdError :=
  if !s.rkv then some .noRoundKey
  else if 0 < nk ∧ s.spnWidthsBad then some .lengthMismatch
  else none

/-- `spn_enc(x)` (rule R185): padded to whole chunks first, then the rounds in key order 0..N-1. -/
def State.spnEnc (s : State) (x : Bits) : Bits := s.roundKeys.foldl (s.spnRound false) (padRMult x s.rkw.toNat)

/-- `spn_dec(x)` (rule R185): padded to whole chunks first, then the inverse rounds, last round key first. -/
def State.spnDec (s : State) (x : Bits) : Bits := s.roundKeys.reverse.foldl (s.spnRound true) (padRMult x s.rkw.toNat)

/-- One SPN round with `RK[imm]` over the chunks of `q[rs1]` (rule R184). -/
def State.oneSpnRound (s : State) (inverse : Bool) (rd rs1 : QReg) (imm : Nat) : Except CmdError State :=
  if s.keyMissing imm then .error .noRoundKey
  else if s.spnWidthsBad then .error .lengthMismatch
  else if !fitsQ (s.rkw.toNat * ceilDiv (s.readQ rs1).length s.rkw.toNat) then .error .overflow
  else .ok (s.writeQ rd (s.spnRound inverse (s.readQ rs1) (s.roundKey imm)))

/-- SPN encryption or decryption of the sequence in `q[rs1]` (rule R185). -/
def State.spnSequence (s : State) (inverse : Bool) (rd rs1 : QReg) : Except CmdError State :=
  match s.spnChecks s.rkn.toNat with
  | some e => .error e
  | none =>
    if !fitsQ (s.rkw.toNat * ceilDiv (s.readQ rs1).length s.rkw.toNat) then .error .overflow
    else .ok (s.writeQ rd (if inverse then s.spnDec (s.readQ rs1) else s.spnEnc (s.readQ rs1)))

/-- `srnd rd, rs1, imm` (rule R184). -/
def execSrnd (rd rs1 : QReg) (imm : Nat) (s : State) : Host.Outcome State Fault Refusal :=
  s.command (.srnd rd rs1 imm) (s.oneSpnRound false rd rs1 imm)

/-- `srnd.i rd, rs1, imm` (rule R184). -/
def execSrndI (rd rs1 : QReg) (imm : Nat) (s : State) : Host.Outcome State Fault Refusal :=
  s.command (.srndI rd rs1 imm) (s.oneSpnRound true rd rs1 imm)

/-- `spn.e rd, rs1` (rule R185). -/
def execSpnE (rd rs1 : QReg) (s : State) : Host.Outcome State Fault Refusal :=
  s.command (.spnE rd rs1) (s.spnSequence false rd rs1)

/-- `spn.d rd, rs1` (rule R185). -/
def execSpnD (rd rs1 : QReg) (s : State) : Host.Outcome State Fault Refusal :=
  s.command (.spnD rd rs1) (s.spnSequence true rd rs1)

end Sys2Proof.Machine
end

