-- ==== Sys2Proof/Machine/Chaining.lean ====
section
/-! DEFINITION. The chaining-mode orchestrator: `pad`, `unpad`, and ECB and CBC over either cipher (rules R190 to R203
of spec/46_chaining.md). -/

namespace Sys2Proof.Machine

/-- Which round engine `ecb` and `cbc` use: the `CIPH` bit of the command word (rule R91). -/
inductive Cipher where
  /-- `CIPH = 0` -/
  | feistel
  /-- `CIPH = 1` -/
  | spn
deriving DecidableEq, Repr

/-- The pad length in bytes, `B - (n mod B)` for blocks of B bytes and a message of n bytes (rule R191). -/
def padLength (b n : Nat) : Nat := b - n % b

/-- The padded message for blocks of B bytes: p bytes of value p appended (rule R191). -/
def padMessage (b : Nat) (m : Bits) : Bits :=
  m ++ (List.replicate (padLength b (m.length / 8)) (bitsOf 8 (padLength b (m.length / 8)))).flatten

/-- The last byte of a message of at least 8 bits, the declared pad length (rule R193). -/
def lastByte (m : Bits) : Nat := val (slice m (m.length - 8) m.length)

/-- `unpad` finds no pad to remove: the message is empty, or its last byte is outside 1..messageBytes (rule R193). -/
def padAmbiguous (m : Bits) : Bool :=
  m.length / 8 == 0 || decide (lastByte m < 1) || decide (m.length / 8 < lastByte m)

/-- `split(m)` for blocks of `bs` bits (rule R194): a short last block is zero-padded on the right. -/
def splitBlocks (bs : Nat) (m : Bits) : List Bits := chunks (padR m (ceilDiv m.length bs * bs)) bs

/-- `chain_checks(CIPH)` (rule R195): the first error it reaches, if any. -/
def State.chainChecks (s : State) : Cipher → Option CmdError
  | .feistel => s.feistelChecks s.rkn.toNat
  | .spn =>
    if s.bs.toNat < 1 ∨ Config.qMax < s.bs.toNat then some .badConfig
    else match s.spnChecks s.rkn.toNat with
      | some e => some e
      | none => if s.bs.toNat % s.rkw.toNat ≠ 0 then some .lengthMismatch else none

/-- `E(b)` (rule R196). -/
def State.encBlock (s : State) : Cipher → Bits → Bits
  | .feistel => s.feistelEnc
  | .spn => s.spnEnc

/-- `D(b)` (rule R196). -/
def State.decBlock (s : State) : Cipher → Bits → Bits
  | .feistel => s.feistelDec
  | .spn => s.spnDec

/-- `iv_block(v)` (rule R199) for an IV no longer than a block: zeros prepended on the left. -/
def ivBlock (bs : Nat) (v : Bits) : Bits := padL v bs

/-- CBC encryption of the blocks, each exclusive-ored with the previous ciphertext block first (rule R200). -/
def cbcEncrypt (e : Bits → Bits) : Bits → List Bits → Bits
  | _, [] => []
  | prev, b :: rest => e (xorBits b prev) ++ cbcEncrypt e (e (xorBits b prev)) rest

/-- CBC decryption of the blocks: chained on the ciphertext block as read, not on what it deciphers to (rule R201). -/
def cbcDecrypt (d : Bits → Bits) : Bits → List Bits → Bits
  | _, [] => []
  | prev, c :: rest => xorBits (d c) prev ++ cbcDecrypt d c rest

/-- The length of the message in whole blocks, in bits (rules R194 and R197). -/
def State.chainedLength (s : State) (m : Bits) : Nat := s.bs.toNat * ceilDiv m.length s.bs.toNat

/-- ECB with either cipher in either direction (rule R197). -/
def State.ecb (s : State) (c : Cipher) (inverse : Bool) (rd rs1 : QReg) : Except CmdError State :=
  match s.chainChecks c with
  | some e => .error e
  | none =>
    if !fitsQ (s.chainedLength (s.readQ rs1)) then .error .overflow
    else .ok (s.writeQ rd ((splitBlocks s.bs.toNat (s.readQ rs1)).flatMap
      (if inverse then s.decBlock c else s.encBlock c)))

/-- CBC with either cipher in either direction (rules R199, R200 and R201). -/
def State.cbc (s : State) (c : Cipher) (inverse : Bool) (rd rs1 rs2 : QReg) : Except CmdError State :=
  match s.chainChecks c with
  | some e => .error e
  | none =>
    if s.bs.toNat < (s.readQ rs2).length then .error .lengthMismatch
    else if !fitsQ (s.chainedLength (s.readQ rs1)) then .error .overflow
    else .ok (s.writeQ rd (if inverse
      then cbcDecrypt (s.decBlock c) (ivBlock s.bs.toNat (s.readQ rs2)) (splitBlocks s.bs.toNat (s.readQ rs1))
      else cbcEncrypt (s.encBlock c) (ivBlock s.bs.toNat (s.readQ rs2)) (splitBlocks s.bs.toNat (s.readQ rs1))))

/-- `pad rd, rs1` (rule R191). -/
def execPad (rd rs1 : QReg) (s : State) : Host.Outcome State Fault Refusal :=
  s.command (.pad rd rs1) <|
    if s.bs.toNat % 8 ≠ 0 ∨ s.bs.toNat < 8 ∨ 2040 < s.bs.toNat then .error .badConfig
    else if (s.readQ rs1).length % 8 ≠ 0 then .error .lengthMismatch
    else if !fitsQ ((s.readQ rs1).length + 8 * padLength (s.bs.toNat / 8) ((s.readQ rs1).length / 8)) then
      .error .overflow
    else .ok (s.writeQ rd (padMessage (s.bs.toNat / 8) (s.readQ rs1)))

/-- `unpad rd, rs1` (rule R193): an ambiguous pad is no error; the message is copied and `PAMB` says so. -/
def execUnpad (rd rs1 : QReg) (s : State) : Host.Outcome State Fault Refusal :=
  s.command (.unpad rd rs1) <|
    if (s.readQ rs1).length % 8 ≠ 0 then .error .lengthMismatch
    else if padAmbiguous (s.readQ rs1) then .ok ((s.writeQ rd (s.readQ rs1)).setPamb true)
    else .ok ((s.writeQ rd ((s.readQ rs1).take ((s.readQ rs1).length - 8 * lastByte (s.readQ rs1)))).setPamb false)

/-- `ecb.e.f rd, rs1` (rule R197). -/
def execEcbEF (rd rs1 : QReg) (s : State) : Host.Outcome State Fault Refusal :=
  s.command (.ecbEF rd rs1) (s.ecb .feistel false rd rs1)

/-- `ecb.d.f rd, rs1` (rule R197). -/
def execEcbDF (rd rs1 : QReg) (s : State) : Host.Outcome State Fault Refusal :=
  s.command (.ecbDF rd rs1) (s.ecb .feistel true rd rs1)

/-- `ecb.e.s rd, rs1` (rule R197). -/
def execEcbES (rd rs1 : QReg) (s : State) : Host.Outcome State Fault Refusal :=
  s.command (.ecbES rd rs1) (s.ecb .spn false rd rs1)

/-- `ecb.d.s rd, rs1` (rule R197). -/
def execEcbDS (rd rs1 : QReg) (s : State) : Host.Outcome State Fault Refusal :=
  s.command (.ecbDS rd rs1) (s.ecb .spn true rd rs1)

/-- `cbc.e.f rd, rs1, rs2` (rule R200). -/
def execCbcEF (rd rs1 rs2 : QReg) (s : State) : Host.Outcome State Fault Refusal :=
  s.command (.cbcEF rd rs1 rs2) (s.cbc .feistel false rd rs1 rs2)

/-- `cbc.d.f rd, rs1, rs2` (rule R201). -/
def execCbcDF (rd rs1 rs2 : QReg) (s : State) : Host.Outcome State Fault Refusal :=
  s.command (.cbcDF rd rs1 rs2) (s.cbc .feistel true rd rs1 rs2)

/-- `cbc.e.s rd, rs1, rs2` (rule R200). -/
def execCbcES (rd rs1 rs2 : QReg) (s : State) : Host.Outcome State Fault Refusal :=
  s.command (.cbcES rd rs1 rs2) (s.cbc .spn false rd rs1 rs2)

/-- `cbc.d.s rd, rs1, rs2` (rule R201). -/
def execCbcDS (rd rs1 rs2 : QReg) (s : State) : Host.Outcome State Fault Refusal :=
  s.command (.cbcDS rd rs1 rs2) (s.cbc .spn true rd rs1 rs2)

end Sys2Proof.Machine
end

