-- ==== Sys2Proof/Machine/System.lean ====
section
/-! DEFINITION. The system commands: `nop`, `clrerr` and `mov` (rules R210 to R213 of spec/47_system.md). -/

namespace Sys2Proof.Machine

/-- `nop` (rule R210). -/
def execNop (s : State) : Host.Outcome State Fault Refusal := s.command .nop (.ok s)

/-- `clrerr` (rule R211): the one command that runs while an error is latched. -/
def execClrerr (s : State) : Host.Outcome State Fault Refusal := .next s.clearLatch

/-- `mov rd, rs1` (rule R212). -/
def execMov (rd rs1 : QReg) (s : State) : Host.Outcome State Fault Refusal :=
  s.command (.mov rd rs1) (.ok (s.writeQ rd (s.readQ rs1)))

end Sys2Proof.Machine
end

