-- ==== Sys2Proof/Machine/Dispatch.lean ====
section
/-! DEFINITION. The meaning of every command: one arm per constructor, each a call of the command's own definition. -/

namespace Sys2Proof.Machine

def exec (i : Instr) (s : State) : Host.Outcome State Fault Refusal :=
  match i with
  | .tobits rd rs1 => Sys2Proof.Machine.execTobits rd rs1 s
  | .frombits rd rs1 => Sys2Proof.Machine.execFrombits rd rs1 s
  | .tohex rd rs1 => Sys2Proof.Machine.execTohex rd rs1 s
  | .fromhex rd rs1 => Sys2Proof.Machine.execFromhex rd rs1 s
  | .xor rd rs1 rs2 => Sys2Proof.Machine.execXor rd rs1 rs2 s
  | .sub4 rd rs1 => Sys2Proof.Machine.execSub4 rd rs1 s
  | .sub4I rd rs1 => Sys2Proof.Machine.execSub4I rd rs1 s
  | .perm rd rs1 => Sys2Proof.Machine.execPerm rd rs1 s
  | .permI rd rs1 => Sys2Proof.Machine.execPermI rd rs1 s
  | .pdflt => Sys2Proof.Machine.execPdflt s
  | .pload => Sys2Proof.Machine.execPload s
  | .ksched rs1 => Sys2Proof.Machine.execKsched rs1 s
  | .rkget rd imm => Sys2Proof.Machine.execRkget rd imm s
  | .frnd rd rs1 imm => Sys2Proof.Machine.execFrnd rd rs1 imm s
  | .frndI rd rs1 imm => Sys2Proof.Machine.execFrndI rd rs1 imm s
  | .feisE rd rs1 => Sys2Proof.Machine.execFeisE rd rs1 s
  | .feisD rd rs1 => Sys2Proof.Machine.execFeisD rd rs1 s
  | .srnd rd rs1 imm => Sys2Proof.Machine.execSrnd rd rs1 imm s
  | .srndI rd rs1 imm => Sys2Proof.Machine.execSrndI rd rs1 imm s
  | .spnE rd rs1 => Sys2Proof.Machine.execSpnE rd rs1 s
  | .spnD rd rs1 => Sys2Proof.Machine.execSpnD rd rs1 s
  | .pad rd rs1 => Sys2Proof.Machine.execPad rd rs1 s
  | .unpad rd rs1 => Sys2Proof.Machine.execUnpad rd rs1 s
  | .ecbEF rd rs1 => Sys2Proof.Machine.execEcbEF rd rs1 s
  | .ecbDF rd rs1 => Sys2Proof.Machine.execEcbDF rd rs1 s
  | .ecbES rd rs1 => Sys2Proof.Machine.execEcbES rd rs1 s
  | .ecbDS rd rs1 => Sys2Proof.Machine.execEcbDS rd rs1 s
  | .cbcEF rd rs1 rs2 => Sys2Proof.Machine.execCbcEF rd rs1 rs2 s
  | .cbcDF rd rs1 rs2 => Sys2Proof.Machine.execCbcDF rd rs1 rs2 s
  | .cbcES rd rs1 rs2 => Sys2Proof.Machine.execCbcES rd rs1 rs2 s
  | .cbcDS rd rs1 rs2 => Sys2Proof.Machine.execCbcDS rd rs1 rs2 s
  | .nop => Sys2Proof.Machine.execNop s
  | .clrerr => Sys2Proof.Machine.execClrerr s
  | .mov rd rs1 => Sys2Proof.Machine.execMov rd rs1 s

end Sys2Proof.Machine
end

