-- ==== Sys2Proof/Machine/Registers.lean ====
section
/-! DEFINITION. The host's register space (rules R25 to R38 and R42 of spec/10_state.md, R60 to R65 and R69 of
spec/20_memory.md): the address map, what a read of each register returns, and what a write of each one does. The
write of `CMD`, which executes a command, is in HostBus.lean. -/

namespace Sys2Proof.Machine

/-- The address map (rules R42 and R69); the offsets it does not name, 0x50 to 0xFC, are reserved. -/
def csrOf : Nat → Option Csr
  | 0x00 => some .cmd
  | 0x04 => some .status
  | 0x08 => some .errcode
  | 0x0C => some .errinfo
  | 0x10 => some .ie
  | 0x14 => some .nr
  | 0x18 => some .rks
  | 0x1C => some .bs
  | 0x20 => some .pws
  | 0x24 => some .pw
  | 0x28 => some .pidx
  | 0x2C => some .pdata
  | 0x30 => some .pact
  | 0x34 => some .rkn
  | 0x38 => some .rkw
  | 0x3C => some .seed
  | 0x40 => some .qsel
  | 0x44 => some .qlen
  | 0x48 => some .qptr
  | 0x4C => some .qdata
  | _ => none

/-- The offset of a register (rule R42). -/
def csrAddr : Csr → Nat
  | .cmd => 0x00
  | .status => 0x04
  | .errcode => 0x08
  | .errinfo => 0x0C
  | .ie => 0x10
  | .nr => 0x14
  | .rks => 0x18
  | .bs => 0x1C
  | .pws => 0x20
  | .pw => 0x24
  | .pidx => 0x28
  | .pdata => 0x2C
  | .pact => 0x30
  | .rkn => 0x34
  | .rkw => 0x38
  | .seed => 0x3C
  | .qsel => 0x40
  | .qlen => 0x44
  | .qptr => 0x48
  | .qdata => 0x4C

/-- The 32 bits of a sequence at word index w, first bit in bit 31; positions at or beyond its end read 0 (rule R63). -/
def windowRead (b : Bits) (w : Nat) : Word :=
  BitVec.ofNat 32 (val ((List.range 32).map fun j => b.getD (32 * w + j) false))

/-- A sequence with the 32 bits at word index w replaced by those of a word; the bits of the word at or beyond the
sequence's end are discarded and the length stays (rule R63). -/
def windowWrite (b : Bits) (w : Nat) (v : Word) : Bits :=
  b.mapIdx fun p x => if 32 * w ≤ p ∧ p < 32 * w + 32 then v.getLsbD (31 - (p - 32 * w)) else x

/-- A sequence resized to n bits: its first bits kept, new ones 0 (rules R37 and R62). -/
def resize (b : Bits) (n : Nat) : Bits := padR (b.take n) n

/-- What a read of a register returns (rules R25 to R38 and R42): `CsrRead`. -/
def State.readCsr (s : State) : Csr → Word
  | .cmd => 0
  | .status => s.statusWord
  | .errcode => s.errcode.setWidth 32
  | .errinfo => s.errinfo
  | .ie => (BitVec.ofBool s.errie).setWidth 32
  | .nr => s.nr
  | .rks => s.rks
  | .bs => s.bs
  | .pws => s.pws
  | .pw => s.pw
  | .pidx => s.pidx
  | .pdata => (entryAt s.pstg Config.pwMax s.pidx.toNat).setWidth 32
  | .pact => (entryAt s.ptab s.pw.toNat s.pidx.toNat).setWidth 32
  | .rkn => s.rkn
  | .rkw => s.rkw
  | .seed => s.seed
  | .qsel => BitVec.ofNat 32 s.qsel.val
  | .qlen => BitVec.ofNat 32 (s.readQ s.qsel).length
  | .qptr => s.qptr
  | .qdata => windowRead (s.readQ s.qsel) s.qptr.toNat

/-- `PSTG[p] <- e` for a position in 1..PW_MAX; a write at any other position does nothing (rule R34). -/
def writeEntry (t : Vector Entry Config.pwMax) (p : Nat) (e : Entry) : Vector Entry Config.pwMax :=
  t.mapIdx fun k old => if k + 1 = p then e else old

/-- What a write of v to a register other than `CMD` does (rules R25 to R37 and R42): a write to a read-only register is
ignored. The arm of `CMD` stands for no effect here; HostBus.lean gives its write the command. -/
def State.storeCsr (s : State) (v : Word) : Csr → State
  | .cmd => s
  | .status => s
  | .errcode => s
  | .errinfo => s
  | .ie => { s with errie := v.getLsbD 0 }
  | .nr => { s with nr := v }
  | .rks => { s with rks := v }
  | .bs => { s with bs := v }
  | .pws => { s with pws := v }
  | .pw => s
  | .pidx => { s with pidx := v }
  | .pdata => { s with pstg := writeEntry s.pstg s.pidx.toNat (v.setWidth 16) }
  | .pact => s
  | .rkn => s
  | .rkw => s
  | .seed => s
  | .qsel => { s with qsel := regField v 0 }
  | .qlen => if v.toNat ≤ Config.qMax then s.writeQ s.qsel (resize (s.readQ s.qsel) v.toNat) else s
  | .qptr => { s with qptr := v }
  | .qdata => s.writeQ s.qsel (windowWrite (s.readQ s.qsel) s.qptr.toNat v)

end Sys2Proof.Machine
end

