-- ==== Sys2Proof/Machine/HostBus.lean ====
section
/-! DEFINITION. The host's side of the CORE: one access to the register space (rules R38, R42 and R61), the command a
write of `CMD` executes (rules R95, R98 and R223), and the reset input (rules R250 and R251). -/

namespace Sys2Proof.Machine

/-- A write of w to `CMD` (rules R38, R95, R98 and R223): the word is decoded and its command executed; an illegal word
raises IllegalCommand. While an error is latched every word but that of `clrerr` is dropped, legal or illegal;
each command drops itself (`State.command`). -/
def State.commandWord (s : State) (w : Word) : Host.Outcome State Fault Refusal :=
  match decode w with
  | some i => exec i s
  | none => .next (s.unlessLatched (s.raise .illegalCommand w))

/-- `CsrWrite(a, v)` (rules R14 and R42) at a word offset inside the space: a reserved offset ignores the write. -/
def State.csrWrite (s : State) (a : Nat) (v : Word) : Host.Outcome State Fault Refusal :=
  match csrOf a with
  | some .cmd => s.commandWord v
  | some r => .next (s.storeCsr v r)
  | none => .next s

/-- `CsrRead(a)` (rules R14 and R42) at a word offset inside the space: a reserved offset reads 0. -/
def State.csrRead (s : State) (a : Nat) : Word :=
  match csrOf a with
  | some r => s.readCsr r
  | none => 0

/-- Why an access has no meaning, if it has none: rule R61 gives one to an aligned word inside 0x00..0xFF only. -/
def accessRefusal (addr bytes : Nat) : Option Refusal :=
  if bytes ≠ 4 then some .accessNotAWord
  else if 0xFF < addr then some .accessOutsideSpace
  else if addr % 4 ≠ 0 then some .accessMisaligned
  else none

/-- Reset (rules R250 and R251): every register at its reset value; the built-in tables are constants of the hardware and
stay. The accesses the host has still to make and the data it has read belong to the host and stay too (log
entries 3 and 4). A reset is one event between two accesses (DEDUCED, log entry 13). -/
def State.afterRst (s : State) : State :=
  { State.resetWith s.sbox s.pbox16 with pending := s.pending, replies := s.replies }

/-- One event of the outside world, in the order the host issues them (rule R71): a read returns a word and changes no
state of the CORE (rule R42); a write has the effect of its register; `rst` resets. -/
def State.serve (s : State) : HostEvent → Host.Outcome State Fault Refusal
  | .read addr bytes =>
    match accessRefusal addr bytes with
    | some r => .refused r
    | none => .next { s with replies := s.replies ++ [s.csrRead addr] }
  | .write addr bytes v =>
    match accessRefusal addr bytes with
    | some r => .refused r
    | none => s.csrWrite addr v
  | .rst => .next s.afterRst

/-- The next host event is served (rule R71); with none pending the CORE is idle and waits (rules R231(f) and R250). -/
def State.serveNext (s : State) : Host.Outcome State Fault Refusal :=
  match s.pending with
  | [] => .next s
  | e :: rest => { s with pending := rest }.serve e

end Sys2Proof.Machine
end

