-- ==== Sys2Proof/Machine/Transfer.lean ====
section
/-! DEFINITION. The host procedures of rule R78 of spec/20_memory.md and the assembler of rules R100 and R101 of
spec/30_encoding.md: a line of text as a command, a directive as the host accesses it stands for. -/

namespace Sys2Proof.Machine

/-- The access `CsrWrite` of a named register (rule R14). -/
def writeReg (r : Csr) (v : Nat) : HostEvent := .write (csrAddr r) 4 (BitVec.ofNat 32 v)

/-- The access `CsrRead` of a named register (rule R14). -/
def readReg (r : Csr) : HostEvent := .read (csrAddr r) 4

/-- The accesses that write the words of a sequence through the window, from word w on (rule R78). -/
def writeWords (b : Bits) : Nat → Nat → List HostEvent
  | 0, _ => []
  | n + 1, w =>
    writeReg .qptr w :: writeReg .qdata (val (padR (slice b (32 * w) (32 * w + 32)) 32)) :: writeWords b n (w + 1)

/-- `HostWriteQ(i, s)` (rule R78), for a sequence of at most `QMAX` bits. -/
def hostWriteQ (i : QReg) (b : Bits) : List HostEvent :=
  writeReg .qsel i.val :: writeReg .qlen 0 :: writeReg .qlen b.length :: writeWords b (ceilDiv b.length 32) 0

/-- The accesses that read n words of the selected register through the window, from word w on (rule R78). -/
def readWords : Nat → Nat → List HostEvent
  | 0, _ => []
  | n + 1, w => writeReg .qptr w :: readReg .qdata :: readWords n (w + 1)

/-- `HostReadQ(i)` (rule R78) for a register the host knows to hold n bits: the length is read, then its words. -/
def hostReadQ (i : QReg) (n : Nat) : List HostEvent :=
  writeReg .qsel i.val :: readReg .qlen :: readWords (ceilDiv n 32) 0

/-- The sequence `HostReadQ` puts together from the length and the words it has read (rule R78). -/
def assembleQ : List Word → Bits
  | [] => []
  | n :: words => (words.flatMap fun w => bitsOf 32 w.toNat).take n.toNat

/-- A blank between the words of an assembler line. -/
def isBlank (c : Char) : Bool := c == ' ' || c == '\t'

/-- A piece of assembler text without the blanks at its ends. -/
def trimText (c : List Char) : List Char := ((c.dropWhile isBlank).reverse.dropWhile isBlank).reverse

/-- The pieces of a text between its commas. -/
def splitCommas : List Char → List (List Char)
  | [] => [[]]
  | c :: rest =>
    match c == ',', splitCommas rest with
    | true, pieces => [] :: pieces
    | false, [] => [[c]]
    | false, piece :: pieces => (c :: piece) :: pieces

/-- The number a string of digits stands for after the digits read so far; no other character is a digit. -/
def numberFrom (base : Nat) : Nat → List Char → Option Nat
  | v, [] => some v
  | v, c :: rest =>
    if isHex c.toNat && decide (hexVal c.toNat < base) then numberFrom base (base * v + hexVal c.toNat) rest else none

/-- An immediate operand (rule R100): decimal, or hexadecimal with the prefix `0x`, 0..32767. -/
def parseImm (c : List Char) : Option Nat :=
  (match c with
    | [] => none
    | ['0', 'x'] => none
    | '0' :: 'x' :: digits => numberFrom 16 0 digits
    | digits => numberFrom 10 0 digits).filter immFits

/-- A register operand (rule R100): `q0` .. `q7`. -/
def parseReg (c : List Char) : Option QReg :=
  match c with
  | ['q', d] => if 0x30 ≤ d.toNat ∧ d.toNat ≤ 0x37 then some (Fin.ofNat 8 (d.toNat - 0x30)) else none
  | _ => none

/-- The mnemonics without operands (rule R94, format Z). -/
def mnemonicsZ : List (String × Instr) := [("pdflt", .pdflt), ("pload", .pload), ("nop", .nop), ("clrerr", .clrerr)]

/-- The mnemonics with `rd, rs1` (rule R94, format D). -/
def mnemonicsD : List (String × (QReg → QReg → Instr)) := [
  ("tobits", .tobits), ("frombits", .frombits), ("tohex", .tohex), ("fromhex", .fromhex), ("sub4", .sub4),
  ("sub4.i", .sub4I), ("perm", .perm), ("perm.i", .permI), ("feis.e", .feisE), ("feis.d", .feisD), ("spn.e", .spnE),
  ("spn.d", .spnD), ("pad", .pad), ("unpad", .unpad), ("ecb.e.f", .ecbEF), ("ecb.d.f", .ecbDF), ("ecb.e.s", .ecbES),
  ("ecb.d.s", .ecbDS), ("mov", .mov)]

/-- The mnemonics with `rd, rs1, rs2` (rule R94, format T). -/
def mnemonicsT : List (String × (QReg → QReg → QReg → Instr)) := [
  ("xor", .xor), ("cbc.e.f", .cbcEF), ("cbc.d.f", .cbcDF), ("cbc.e.s", .cbcES), ("cbc.d.s", .cbcDS)]

/-- The mnemonics with `rd, rs1, imm` (rule R94, format I). -/
def mnemonicsI : List (String × (QReg → QReg → Nat → Instr)) := [
  ("frnd", .frnd), ("frnd.i", .frndI), ("srnd", .srnd), ("srnd.i", .srndI)]

/-- A mnemonic with its operands as a command (rules R94 and R100). -/
def assembleParts (name : String) : List (List Char) → Option Instr
  | [] => mnemonicsZ.lookup name
  | [a] => if name = "ksched" then (parseReg a).map .ksched else none
  | [a, b] =>
    if name = "rkget" then do return .rkget (← parseReg a) (← parseImm b)
    else do return (← mnemonicsD.lookup name) (← parseReg a) (← parseReg b)
  | [a, b, c] =>
    match mnemonicsT.lookup name with
    | some mk => do return mk (← parseReg a) (← parseReg b) (← parseReg c)
    | none => do return (← mnemonicsI.lookup name) (← parseReg a) (← parseReg b) (← parseImm c)
  | _ => none

/-- One line of assembler text as a command (rule R100): a comment runs from `#` to the end of the line; a line that
holds no command gives `none`. -/
def assemble (line : List Char) : Option Instr :=
  let body := trimText (line.takeWhile fun c => c != '#')
  let name := body.takeWhile fun c => !isBlank c
  let rest := trimText (body.drop name.length)
  assembleParts (String.ofList name) (if rest.isEmpty then [] else (splitCommas rest).map trimText)

/-- The directives of the assembler (rule R101). -/
inductive Directive where
  /-- `.csr NAME, value` -/
  | csr (r : Csr) (value : Nat)
  /-- `.load qN, bits "…"` -/
  | loadBits (r : QReg) (b : Bits)
  /-- `.load qN, text "…"`, the text as its bytes -/
  | loadText (r : QReg) (c : List Nat)
  /-- `.load qN, hex "…"`, the digits as their values -/
  | loadHex (r : QReg) (digits : List Nat)
  /-- `.ptab p, value` -/
  | ptab (p value : Nat)
  /-- `.read qN`, for a register that holds n bits -/
  | read (r : QReg) (n : Nat)
deriving DecidableEq, Repr

/-- The host accesses a directive stands for (rule R101). -/
def directiveEvents : Directive → List HostEvent
  | .csr r value => [writeReg r value]
  | .loadBits r b => hostWriteQ r b
  | .loadText r c => hostWriteQ r (ofBytes c)
  | .loadHex r digits => hostWriteQ r (digits.flatMap (bitsOf 4))
  | .ptab p value => [writeReg .pidx p, writeReg .pdata value]
  | .read r n => hostReadQ r n

/-- The write of `CMD` that a command line of a program stands for (rules R24 and R100). -/
def commandEvent (i : Instr) : HostEvent := .write (csrAddr .cmd) 4 (encode i)

end Sys2Proof.Machine
end

