-- ==== Sys2Proof/Machine/Step.lean ====
section
/-! DEFINITION. One step of the machine, and where a step takes its next command word from. -/

namespace Sys2Proof.Machine

/-- One step (rules R17 and R71): the next host access or event is served, a command completely (rule R38). Time is left
out (DESIGN CHOICE, log entry 17). -/
def step (s : State) : Host.Outcome State Fault Refusal := s.serveNext

/-- The state in which the host's next access is the write of a command word to `CMD`: the CORE fetches no instructions,
so a program is the sequence of words the host writes (rule R24, log entry 3). -/
def State.withFetchWord (s : State) (nbits w : Nat) : State :=
  { s with pending := .write 0x00 4 (BitVec.ofNat 32 (w % 2 ^ nbits)) :: s.pending }

end Sys2Proof.Machine
end

