-- ==== Sys2Proof/Safety.lean ====
section
/-! DEFINITION. The terms the claims use: what holds of the CORE in every state it reaches from reset, one predicate for
each group of state. Each is decidable, so that a concrete state can be checked. -/

namespace Sys2Proof.Machine

/-- Every q register holds at most `QMAX` bits (rule R21). -/
abbrev State.QsFit (s : State) : Prop := ∀ r : QReg, (s.readQ r).length ≤ Config.qMax

/-- The round-key file holds `RKN` keys of exactly `RKW` bits each, within its limits; a recorded schedule has
`RKW >= 1`, and with none recorded the file is empty (rules R35, R36, R163 and R182). -/
abbrev State.KeyFileOk (s : State) : Prop :=
  s.rk.length = s.rkn.toNat ∧ s.rkn.toNat ≤ Config.nrMax ∧ s.rkw.toNat ≤ Config.rksMax ∧
  (∀ k ∈ s.rk, k.length = s.rkw.toNat) ∧
  (s.rkv = true → 1 ≤ s.rkw.toNat) ∧ (s.rkv = false → s.rkn = 0 ∧ s.rkw = 0 ∧ s.seed = 0)

/-- The active table's width is in 1..PW_MAX and its entries are a bijection of {1..PW} (rules R33 and R39). -/
abbrev State.TableOk (s : State) : Prop :=
  1 ≤ s.pw.toNat ∧ s.pw.toNat ≤ Config.pwMax ∧ isBijection (tableEntries s.ptab s.pw.toNat) s.pw.toNat = true

/-- `ERRCODE` and `ERRINFO` are 0 when no error is latched, and `ERRCODE` is not 0 when one is (rules R26 and R27). -/
abbrev State.LatchOk (s : State) : Prop :=
  (s.err = false → s.errcode = 0 ∧ s.errinfo = 0) ∧ (s.err = true → s.errcode ≠ 0)

/-- The constraints on the built-in tables: `SBOX` is a bijection of {0..15} with `SBOX[0] = 8` (rule R7), `PBOX16` a
bijection of {1..16} (rule R8). -/
abbrev State.ConstantsOk (s : State) : Prop :=
  s.sbox.toList.Nodup ∧ s.sbox[0] = 8 ∧ isBijection (s.pbox16.toList.map BitVec.toNat) 16 = true

/-- What every state the CORE reaches satisfies. -/
abbrev State.Inv (s : State) : Prop := s.QsFit ∧ s.KeyFileOk ∧ s.TableOk ∧ s.LatchOk ∧ s.ConstantsOk

end Sys2Proof.Machine
end

