-- ==== Sys2Proof/Certificates/Slice0/Obligations.lean ====
section
/-! DEFINITION. The statements for the provers, and the few terms they share. Each statement's docstring names the rules
of spec/ it formalises; a state is compared field by field through record updates, so that what a command leaves
alone is part of its statement. -/

namespace Sys2Proof.Claims

open Sys2Proof.Machine

/-- The state in which one q register holds b and nothing else differs. -/
abbrev withQ (s : State) (r : QReg) (b : Bits) : State := { s with q := s.q.set r b }

/-- The state in which the latch holds an error code and the word of the command that failed, and nothing else differs
(rule R222). -/
abbrev failed (s : State) (code : BitVec 3) (i : Instr) : State :=
  { s with err := true, errcode := code, errinfo := encode i }

/-- n is `ceil(len / w)`, said without division: n groups of w bits hold len bits and one group fewer does not. -/
abbrev CeilOf (n len w : Nat) : Prop := len ≤ w * n ∧ w * n < len + w

/-- Group j of w bits of a sequence. -/
abbrev group (b : Bits) (w j : Nat) : Bits := slice b (w * j) (w * j + w)

/-- `PTAB[p]` for p in 1..PW. -/
abbrev ptabAt (s : State) (p : Nat) : Nat := (entryAt s.ptab s.pw.toNat p).toNat

/-- The block size is one the Feistel engine works with (rule R171). -/
abbrev FeistelBlockOk (s : State) : Prop := 2 ≤ s.bs.toNat ∧ s.bs.toNat % 2 = 0 ∧ s.bs.toNat ≤ 65536

/-- The recorded key width and the table width fit the half-block (rule R171). -/
abbrev FeistelWidthsOk (s : State) : Prop :=
  s.rkw.toNat = s.bs.toNat / 2 ∧ s.bs.toNat / 2 % 4 = 0 ∧ s.bs.toNat / 2 % s.pw.toNat = 0

/-- The recorded key width fits the SPN engine (rule R182). -/
abbrev SpnWidthsOk (s : State) : Prop := s.rkw.toNat % 4 = 0 ∧ s.rkw.toNat % s.pw.toNat = 0

/-- `feistel_checks(RKN)` finds nothing (rule R171). -/
abbrev FeistelReady (s : State) : Prop :=
  FeistelBlockOk s ∧ s.rkv = true ∧ (0 < s.rkn.toNat → FeistelWidthsOk s)

/-- `spn_checks(RKN)` finds nothing (rule R182). -/
abbrev SpnReady (s : State) : Prop := s.rkv = true ∧ (0 < s.rkn.toNat → SpnWidthsOk s)

/-- `chain_checks(CIPH)` finds nothing (rule R195). -/
abbrev ChainReady (s : State) : Cipher → Prop
  | .feistel => FeistelReady s
  | .spn => 1 ≤ s.bs.toNat ∧ s.bs.toNat ≤ 65536 ∧ SpnReady s ∧ s.bs.toNat % s.rkw.toNat = 0

/-- The `ecb` command of a cipher and a direction (rule R197). -/
def ecbInstr (c : Cipher) (inverse : Bool) (rd rs1 : QReg) : Instr :=
  match c, inverse with
  | .feistel, false => .ecbEF rd rs1
  | .feistel, true => .ecbDF rd rs1
  | .spn, false => .ecbES rd rs1
  | .spn, true => .ecbDS rd rs1

/-- The `cbc` command of a cipher and a direction (rules R200 and R201). -/
def cbcInstr (c : Cipher) (inverse : Bool) (rd rs1 rs2 : QReg) : Instr :=
  match c, inverse with
  | .feistel, false => .cbcEF rd rs1 rs2
  | .feistel, true => .cbcDF rd rs1 rs2
  | .spn, false => .cbcES rd rs1 rs2
  | .spn, true => .cbcDS rd rs1 rs2

/-- The table of rule R221: the codes of the errors each command can raise. -/
def mayRaise : Instr → List (BitVec 3)
  | .tobits _ _ | .frombits _ _ | .fromhex _ _ => [1]
  | .tohex _ _ | .sub4 _ _ | .sub4I _ _ | .perm _ _ | .permI _ _ => [7]
  | .xor _ _ _ | .unpad _ _ => [2]
  | .pdflt => [5]
  | .pload => [3, 5]
  | .ksched _ => [2, 5]
  | .rkget _ _ => [6]
  | .frnd _ _ _ | .frndI _ _ _ | .feisE _ _ | .feisD _ _ => [2, 5, 6]
  | .srnd _ _ _ | .srndI _ _ _ | .spnE _ _ | .spnD _ _ => [2, 6, 7]
  | .pad _ _ => [2, 5, 7]
  | .ecbEF _ _ | .ecbDF _ _ | .ecbES _ _ | .ecbDS _ _ => [2, 5, 6, 7]
  | .cbcEF _ _ _ | .cbcDF _ _ _ | .cbcES _ _ _ | .cbcDS _ _ _ => [2, 5, 6, 7]
  | .nop | .clrerr | .mov _ _ => []

/-- The round function `F(R, k)` (rule R172), which is also one forward SPN round of a chunk (rule R180). -/
abbrev roundF (s : State) (r k : Bits) : Bits :=
  permute s.activeTable s.pw.toNat false (substitute s.sbox false (xorBits r k))

/-- One inverse SPN round of a chunk (rule R180). -/
abbrev roundInv (s : State) (c k : Bits) : Bits :=
  xorBits (substitute s.sbox true (permute s.activeTable s.pw.toNat true c)) k

end Sys2Proof.Claims

open Sys2Proof Sys2Proof.Machine Sys2Proof.Claims

/-! ### Encoding -/

/-- Rules R91 to R95: decoding the encoding of a well-formed command gives the command back, every operand with it. -/
def Obligations.DecodeOfEncodeIsIdentity : Prop :=
  ∀ i : Instr, i.WellFormed = true → decode (encode i) = some i

/-- Rules R95 and R98(c): a word that decodes is the encoding of what it decodes to, so no bit of it is ignored. -/
def Obligations.EncodeOfDecodeIsIdentity : Prop :=
  ∀ (w : Word) (i : Instr), decode w = some i → i.WellFormed = true ∧ encode i = w

/-- Rule R95: no word matches two rows of the opcode table; a word that matches a row decodes to that row's command with
`rd`, `rs1`, `rs2` and `imm` from the word's fields, as far as its format uses them; a word that matches no row is
illegal. -/
def Obligations.DecodeFollowsOpcodeTable : Prop :=
  ∀ w : Word,
    (∀ r₁ ∈ opcodeTable, ∀ r₂ ∈ opcodeTable, w &&& r₁.mask = r₁.pattern → w &&& r₂.mask = r₂.pattern → r₁ = r₂) ∧
    (∀ r ∈ opcodeTable, w &&& r.mask = r.pattern → ∃ i, decode w = some i ∧ i.mnemonic = r.mnemonic ∧
      (∀ d, i.rd? = some d → BitVec.ofNat 3 d.val = w.extractLsb' 21 3) ∧
      (∀ d, i.rs1? = some d → BitVec.ofNat 3 d.val = w.extractLsb' 18 3) ∧
      (∀ d, i.rs2? = some d → BitVec.ofNat 3 d.val = w.extractLsb' 15 3) ∧
      (∀ n, i.imm? = some n → n = (w.extractLsb' 0 15).toNat)) ∧
    ((∀ r ∈ opcodeTable, w &&& r.mask ≠ r.pattern) → decode w = none)

/-- Rule R96: the seven worked encodings, in both directions. -/
def Obligations.WorkedEncodings : Prop :=
  decode 0x40408000 = some (.xor 2 0 1) ∧ encode (.xor 2 0 1) = 0x40408000 ∧
  decode 0x81200005 = some (.frndI 1 0 5) ∧ encode (.frndI 1 0 5) = 0x81200005 ∧
  decode 0xCF688000 = some (.cbcDS 3 2 1) ∧ encode (.cbcDS 3 2 1) = 0xCF688000 ∧
  decode 0x600C0000 = some (.ksched 3) ∧ encode (.ksched 3) = 0x600C0000 ∧
  decode 0x64800002 = some (.rkget 4 2) ∧ encode (.rkget 4 2) = 0x64800002 ∧
  decode 0x50000000 = some .pload ∧ encode .pload = 0x50000000 ∧
  decode 0xE4000000 = some .clrerr ∧ encode .clrerr = 0xE4000000

/-! ### The step, the host's accesses and reset -/

/-- Rules R38 and R71: when the host's next access writes to `CMD` a word that decodes to i, the step is the execution of
i, the access being served; when the word is illegal the step raises IllegalCommand (rule R98), or, while an error is
latched, drops the word (rule R223). That the access served leaves the pending list is the model's form (log entry 3). -/
def Obligations.StepRunsTheDecodedCommand : Prop :=
  ∀ (s : State) (w : Word) (rest : List HostEvent), s.pending = .write 0x00 4 w :: rest →
    (∀ i, decode w = some i → step s = exec i { s with pending := rest }) ∧
    (decode w = none → s.err = false →
      step s = .next { s with pending := rest, err := true, errcode := 4, errinfo := w }) ∧
    (decode w = none → s.err = true → step s = .next { s with pending := rest })

/-- Rule R61: a step is refused exactly when the host's next access is not an aligned 32-bit word inside 0x00..0xFF; every
other access, and so every command in every state, answers a next state. -/
def Obligations.OnlyAccessesOutsideTheSpecAreRefused : Prop :=
  ∀ (s : State) (e : HostEvent) (rest : List HostEvent), s.pending = e :: rest →
    ((∃ r, step s = .refused r) ↔
      ∃ a n, (n ≠ 4 ∨ 0xFF < a ∨ a % 4 ≠ 0) ∧ (e = .read a n ∨ ∃ v, e = .write a n v)) ∧
    ((∃ t, step s = .next t) ↔ ¬ ∃ r, step s = .refused r)

/-- Rules R25 to R38, R42, R63 and R226: what a read of each register returns, the reserved offsets reading 0; a read
served by a step (rule R71) hands that word to the host and changes nothing else; `irq` is the AND of `STATUS.ERR` and
`IE.ERRIE`. The list `replies` that takes the word is the model's own field (log entry 4), as is `pending` (log entry 3). -/
def Obligations.RegisterReads : Prop :=
  (∀ (s : State) (a : Nat) (rest : List HostEvent), a ≤ 0xFF → a % 4 = 0 → s.pending = .read a 4 :: rest →
    step s = .next { s with pending := rest, replies := s.replies ++ [{ s with pending := rest }.csrRead a] }) ∧
  ∀ s : State,
    s.csrRead 0x00 = 0 ∧
    ((s.csrRead 0x04).getLsbD 0 = s.err ∧ (s.csrRead 0x04).getLsbD 1 = s.pamb ∧
      (s.csrRead 0x04).extractLsb' 2 2 = s.fmt ∧ (s.csrRead 0x04).getLsbD 4 = s.rkv ∧
      (s.csrRead 0x04).extractLsb' 5 27 = 0) ∧
    (s.csrRead 0x08).toNat = s.errcode.toNat ∧ s.csrRead 0x0C = s.errinfo ∧
    (s.csrRead 0x10 = if s.errie then 1 else 0) ∧
    s.csrRead 0x14 = s.nr ∧ s.csrRead 0x18 = s.rks ∧ s.csrRead 0x1C = s.bs ∧ s.csrRead 0x20 = s.pws ∧
    s.csrRead 0x24 = s.pw ∧ s.csrRead 0x28 = s.pidx ∧
    (1 ≤ s.pidx.toNat → s.pidx.toNat ≤ 256 →
      (s.csrRead 0x2C).toNat = (s.pstg.toList.getD (s.pidx.toNat - 1) 0).toNat) ∧
    (s.pidx.toNat = 0 ∨ 256 < s.pidx.toNat → s.csrRead 0x2C = 0) ∧
    (1 ≤ s.pidx.toNat → s.pidx.toNat ≤ s.pw.toNat →
      (s.csrRead 0x30).toNat = (s.ptab.toList.getD (s.pidx.toNat - 1) 0).toNat) ∧
    (s.pidx.toNat = 0 ∨ s.pw.toNat < s.pidx.toNat → s.csrRead 0x30 = 0) ∧
    s.csrRead 0x34 = s.rkn ∧ s.csrRead 0x38 = s.rkw ∧ s.csrRead 0x3C = s.seed ∧
    (s.csrRead 0x40).toNat = s.qsel.val ∧
    ((s.readQ s.qsel).length ≤ 65536 → (s.csrRead 0x44).toNat = (s.readQ s.qsel).length) ∧
    s.csrRead 0x48 = s.qptr ∧
    (∀ j < 32, (s.csrRead 0x4C).getLsbD (31 - j) = (s.readQ s.qsel).getD (32 * s.qptr.toNat + j) false) ∧
    (∀ a, 0x50 ≤ a → s.csrRead a = 0) ∧
    s.irq = ((s.csrRead 0x04).getLsbD 0 && (s.csrRead 0x10).getLsbD 0)

/-- Rules R25 to R37, R42 and R71: a step that serves a write does what the write of its register does, whatever the
register and whether or not an error is latched (the pending list it leaves is the model's, log entry 3); what a write
to each register but `CMD`, `QLEN` and `QDATA` does; writes to read-only registers and to reserved offsets are
ignored. -/
def Obligations.RegisterWrites : Prop :=
  (∀ (s : State) (a : Nat) (v : Word) (rest : List HostEvent), a ≤ 0xFF → a % 4 = 0 →
    s.pending = .write a 4 v :: rest → step s = { s with pending := rest }.csrWrite a v) ∧
  ∀ (s : State) (v : Word),
    s.csrWrite 0x10 v = .next { s with errie := v.getLsbD 0 } ∧
    s.csrWrite 0x14 v = .next { s with nr := v } ∧
    s.csrWrite 0x18 v = .next { s with rks := v } ∧
    s.csrWrite 0x1C v = .next { s with bs := v } ∧
    s.csrWrite 0x20 v = .next { s with pws := v } ∧
    s.csrWrite 0x28 v = .next { s with pidx := v } ∧
    (1 ≤ s.pidx.toNat → s.pidx.toNat ≤ 256 →
      s.csrWrite 0x2C v = .next { s with
        pstg := s.pstg.setIfInBounds (s.pidx.toNat - 1) (v.extractLsb' 0 16) }) ∧
    (s.pidx.toNat = 0 ∨ 256 < s.pidx.toNat → s.csrWrite 0x2C v = .next s) ∧
    s.csrWrite 0x40 v = .next { s with qsel := Fin.ofNat 8 v.toNat } ∧
    s.csrWrite 0x48 v = .next { s with qptr := v } ∧
    (∀ a ∈ [0x04, 0x08, 0x0C, 0x24, 0x30, 0x34, 0x38, 0x3C], s.csrWrite a v = .next s) ∧
    (∀ a, 0x50 ≤ a → s.csrWrite a v = .next s)

/-- Rules R62 and R63: the window onto the selected q register. `QLEN` resizes it, `QDATA` reads and writes 32 of its
bits, the first bit of the sequence in the word's most significant bit. -/
def Obligations.WindowReadsAndWritesBits : Prop :=
  ∀ (s : State) (v : Word),
    (∀ j < 32, (s.csrRead 0x4C).getLsbD (31 - j) = (s.readQ s.qsel).getD (32 * s.qptr.toNat + j) false) ∧
    (∃ b : Bits, s.csrWrite 0x4C v = .next (withQ s s.qsel b) ∧ b.length = (s.readQ s.qsel).length ∧
      ∀ p < b.length, b.getD p false =
        if 32 * s.qptr.toNat ≤ p ∧ p < 32 * s.qptr.toNat + 32 then v.getLsbD (31 - (p - 32 * s.qptr.toNat))
        else (s.readQ s.qsel).getD p false) ∧
    ((s.readQ s.qsel).length ≤ 65536 → (s.csrRead 0x44).toNat = (s.readQ s.qsel).length) ∧
    (v.toNat ≤ 65536 → ∃ b : Bits, s.csrWrite 0x44 v = .next (withQ s s.qsel b) ∧ b.length = v.toNat ∧
      ∀ p < v.toNat, b.getD p false = (s.readQ s.qsel).getD p false) ∧
    (65536 < v.toNat → s.csrWrite 0x44 v = .next s)

/-- Rule R78: the accesses of `HostWriteQ(i, s)` leave s in `q[i]` and change nothing but `QSEL` and `QPTR` besides. -/
def Obligations.HostWriteQLoadsTheRegister : Prop :=
  ∀ (s : State) (i : QReg) (b : Bits) (rest : List HostEvent),
    b.length ≤ 65536 → s.pending = hostWriteQ i b ++ rest →
    ∃ t : State, Sys2Proof.core.run (hostWriteQ i b).length s = .next t ∧
      t = { s with q := s.q.set i b, qsel := i, qptr := t.qptr, pending := rest }

/-- Rule R78: the accesses of `HostReadQ(i)` hand the host words that put together are `q[i]`, and change nothing but
`QSEL` and `QPTR` besides. -/
def Obligations.HostReadQReturnsTheRegister : Prop :=
  ∀ (s : State) (i : QReg) (rest : List HostEvent),
    (s.readQ i).length ≤ 65536 → s.pending = hostReadQ i (s.readQ i).length ++ rest →
    ∃ (t : State) (words : List Word), Sys2Proof.core.run (hostReadQ i (s.readQ i).length).length s = .next t ∧
      assembleQ words = s.readQ i ∧
      t = { s with qsel := i, qptr := t.qptr, pending := rest, replies := s.replies ++ words }

/-- Rule R43: the reset state register by register; `PTAB` and `PSTG` are `PBOX16` in 1..16, and `PSTG` is 0 above. -/
def Obligations.ResetLeavesTheResetState : Prop :=
  (∀ r : QReg, State.reset.readQ r = []) ∧
  State.reset.statusWord = 0 ∧ State.reset.errcode = 0 ∧ State.reset.errinfo = 0 ∧ State.reset.errie = false ∧
  State.reset.nr = 0 ∧ State.reset.rks = 0 ∧ State.reset.bs = 0 ∧ State.reset.pws = 16 ∧ State.reset.pw = 16 ∧
  (∀ p : Fin 16, State.reset.ptab[p.val] = State.reset.pbox16[p] ∧ State.reset.pstg[p.val] = State.reset.pbox16[p]) ∧
  (∀ p : Fin 256, 16 ≤ p.val → State.reset.pstg[p] = 0) ∧
  State.reset.pidx = 0 ∧ State.reset.qsel = 0 ∧ State.reset.qptr = 0 ∧
  State.reset.rkn = 0 ∧ State.reset.rkw = 0 ∧ State.reset.seed = 0 ∧ State.reset.rk = [] ∧ State.reset.irq = false

/-- The reset input leads from every state, an error latched or not, to the reset state, the tables of the hardware kept
(rules R225 and R250); the CORE does nothing by itself. That the host's pending accesses and the words it has read
survive a reset, that a step with no access pending is an idle one, and that the tables of `State.reset` are the
uninterpreted constants of Config, are the model's choices (log entries 1, 2, 3, 4 and 15). -/
def Obligations.RstResetsAndNoAccessIdles : Prop :=
  (∀ (s : State) (rest : List HostEvent), s.pending = .rst :: rest →
    step s = .next { State.resetWith s.sbox s.pbox16 with pending := rest, replies := s.replies }) ∧
  (∀ s : State, s.pending = [] → step s = .next s) ∧
  (∀ x : Fin 16, State.reset.sbox[x].toNat = (Config.sbox x).val) ∧
  ∀ p : Fin 16, State.reset.pbox16[p].toNat = (Config.pbox16 p).val + 1

/-! ### Errors -/

/-- Rule R222: when a word written to `CMD` raises an error E, the next state is the former one with `STATUS.ERR` set,
`ERRCODE` the code of E and `ERRINFO` the word, and nothing else changed. -/
def Obligations.ErrorEntryWritesOnlyTheLatch : Prop :=
  ∀ (s t : State) (w : Word), s.err = false → s.csrWrite 0x00 w = .next t → t.err = true →
    ∃ e : CmdError, t = { s with err := true, errcode := errorCode e, errinfo := w }

/-- Rule R221: a command raises no error outside its row of the table, and IllegalCommand belongs to none. -/
def Obligations.CommandsRaiseOnlyTheirErrors : Prop :=
  ∀ (i : Instr) (s t : State), s.err = false → exec i s = .next t → t.err = true → t.errcode ∈ mayRaise i

/-- Rule R223: while an error is latched every word written to `CMD` but that of `clrerr` is dropped, legal or illegal,
and changes nothing; that of `clrerr` clears the latch; the host's other accesses have the effect they have with no
error latched. -/
def Obligations.LatchedErrorDropsEveryWordButClrerr : Prop :=
  ∀ s : State, s.err = true →
    (∀ w : Word, w ≠ 0xE4000000 → s.csrWrite 0x00 w = .next s) ∧
    s.csrWrite 0x00 0xE4000000 = .next { s with err := false, errcode := 0, errinfo := 0 } ∧
    (∀ a ≠ 0x00, ∀ v, ∃ t : State, { s with err := false }.csrWrite a v = .next t ∧
      s.csrWrite a v = .next { t with err := true }) ∧
    (∀ a ≠ 0x04, s.csrRead a = { s with err := false }.csrRead a)

/-- Rules R22, R28 to R37, R40, R44 and R60: what a command leaves alone in every state. No command writes a configuration
register, a window pointer, `IE` or a built-in table; only `rd` changes among the q registers; only `pdflt` and
`pload` change the tables, only `ksched` the key file, only `unpad` writes `PAMB`, only `tobits` writes `FMT`, only
`clrerr` clears the latch, and a command that completes without an error leaves `ERRCODE` and `ERRINFO` alone. -/
def Obligations.CommandsChangeOnlyWhatTheyOwn : Prop :=
  ∀ (i : Instr) (s t : State), exec i s = .next t →
    (t.nr = s.nr ∧ t.rks = s.rks ∧ t.bs = s.bs ∧ t.pws = s.pws ∧ t.pidx = s.pidx ∧ t.qsel = s.qsel ∧
      t.qptr = s.qptr ∧ t.errie = s.errie ∧ t.sbox = s.sbox ∧ t.pbox16 = s.pbox16 ∧
      t.pending = s.pending ∧ t.replies = s.replies) ∧
    (∀ r, i.rd? ≠ some r → t.readQ r = s.readQ r) ∧
    (i ≠ .pdflt → t.pstg = s.pstg) ∧
    (i ≠ .pdflt → i ≠ .pload → t.ptab = s.ptab ∧ t.pw = s.pw) ∧
    ((∀ r, i ≠ .ksched r) → t.rk = s.rk ∧ t.rkn = s.rkn ∧ t.rkw = s.rkw ∧ t.seed = s.seed ∧ t.rkv = s.rkv) ∧
    ((∀ rd rs1, i ≠ .unpad rd rs1) → t.pamb = s.pamb) ∧
    ((∀ rd rs1, i ≠ .tobits rd rs1) → t.fmt = s.fmt) ∧
    (i ≠ .clrerr → s.err = true → t = s) ∧
    (i ≠ .clrerr → t.err = false → t.errcode = s.errcode ∧ t.errinfo = s.errinfo)

/-! ### Invariants -/

/-- Rules R21, R26, R27, R33, R35, R36, R39 and R7, R8: the reset state satisfies the invariant, whatever the two built-in
tables are. -/
def Obligations.ResetSatisfiesInv : Prop := State.reset.Inv

/-- Rules R21, R26, R27, R33, R35, R36, R39 and R7, R8: every step keeps the invariant: the q registers hold at most
`QMAX` bits, the key file holds `RKN` keys of `RKW` bits, the active table is a bijection of {1..PW}, the error code
agrees with the latch, and the built-in tables keep their constraints. -/
def Obligations.StepKeepsInv : Prop :=
  ∀ s t : State, s.Inv → step s = .next t → t.Inv

/-- Rule R40: no command, no host access and no reset changes `SBOX` or `PBOX16`. -/
def Obligations.StepKeepsTheBuiltInTables : Prop :=
  ∀ s t : State, step s = .next t → t.sbox = s.sbox ∧ t.pbox16 = s.pbox16

/-! ### Codec -/

/-- Rules R120 to R123: `tobits` raises InvalidFormat on an operand that is not whole characters; on whole characters it
tries the four format rules in order, first match wins; the clauses are rule 1, rule 2 by prefix, the InvalidFormat of
that path, rule 2 by letters, rule 3 and rule 4. -/
def Obligations.TobitsFollowsFirstMatchingFormat : Prop :=
  (∀ (rd rs1 : QReg) (s : State), s.err = false → (s.readQ rs1).length % 8 ≠ 0 →
    exec (.tobits rd rs1) s = .next (failed s 1 (.tobits rd rs1))) ∧
  ∀ (rd rs1 : QReg) (s : State) (c : List Nat),
    s.err = false → (s.readQ rs1).length % 8 = 0 → c = bytesOf (s.readQ rs1) →
    ((∀ x ∈ c, x = 0x30 ∨ x = 0x31) → ∃ b : Bits,
      exec (.tobits rd rs1) s = .next { s with q := s.q.set rd b, fmt := 0 } ∧ b.length = c.length ∧
      ∀ k < c.length, b.getD k false = decide (c.getD k 0 = 0x31)) ∧
    (∀ d, c = 0x30 :: 0x78 :: d → (∀ x ∈ d, isHex x = true) → ∃ b : Bits,
      exec (.tobits rd rs1) s = .next { s with q := s.q.set rd b, fmt := 1 } ∧ b.length = 4 * d.length ∧
      ∀ k < d.length, val (group b 4 k) = hexVal (d.getD k 0)) ∧
    (∀ d, c = 0x30 :: 0x78 :: d → (∃ x ∈ d, isHex x = false) →
      exec (.tobits rd rs1) s = .next (failed s 1 (.tobits rd rs1))) ∧
    ((∀ x ∈ c, isHex x = true) → (∃ x ∈ c, isLetter x = true) → ∃ b : Bits,
      exec (.tobits rd rs1) s = .next { s with q := s.q.set rd b, fmt := 1 } ∧ b.length = 4 * c.length ∧
      ∀ k < c.length, val (group b 4 k) = hexVal (c.getD k 0)) ∧
    ((∀ x ∈ c, isDec x = true) → (∃ x ∈ c, x ≠ 0x30 ∧ x ≠ 0x31) → ∃ b : Bits,
      exec (.tobits rd rs1) s = .next { s with q := s.q.set rd b, fmt := 2 } ∧ b.head? = some true ∧
      val b = Nat.ofDigits 10 (c.reverse.map fun x => x - 0x30)) ∧
    ((∃ x ∈ c, isHex x = false) → (∀ d, c ≠ 0x30 :: 0x78 :: d) →
      exec (.tobits rd rs1) s = .next { s with q := s.q.set rd (s.readQ rs1), fmt := 3 })

/-- Rule R124: `frombits` copies a whole number of bytes and raises InvalidFormat on anything else. -/
def Obligations.FrombitsCopiesWholeBytes : Prop :=
  ∀ (rd rs1 : QReg) (s : State), s.err = false →
    ((s.readQ rs1).length % 8 = 0 → exec (.frombits rd rs1) s = .next (withQ s rd (s.readQ rs1))) ∧
    ((s.readQ rs1).length % 8 ≠ 0 → exec (.frombits rd rs1) s = .next (failed s 1 (.frombits rd rs1))) ∧
    encode (.frombits rd rs1) &&& 0xFF03FFFF = 0x24000000

/-- Rule R126: `tohex` writes one lower-case digit for each nibble of the operand left-zero-padded to a multiple of 4 bits,
or raises Overflow when the digits need more than `QMAX` bits. -/
def Obligations.TohexWritesOneDigitPerNibble : Prop :=
  ∀ (rd rs1 : QReg) (s : State) (n : Nat), s.err = false → CeilOf n (s.readQ rs1).length 4 →
    (8 * n ≤ 65536 → ∃ b : Bits, exec (.tohex rd rs1) s = .next (withQ s rd b) ∧ b.length = 8 * n ∧
      ∀ k < n, val (group b 8 k) = hexChar (val (group (padL (s.readQ rs1) (4 * n)) 4 k))) ∧
    (65536 < 8 * n → exec (.tohex rd rs1) s = .next (failed s 7 (.tohex rd rs1))) ∧
    encode (.tohex rd rs1) &&& 0xFF03FFFF = 0x28000000

/-- Rule R128: `fromhex` gives four bits for each hexadecimal digit, either case, and raises InvalidFormat on a partial
character and on any other character. -/
def Obligations.FromhexDecodesEveryDigit : Prop :=
  ∀ (rd rs1 : QReg) (s : State) (c : List Nat), s.err = false → c = bytesOf (s.readQ rs1) →
    ((s.readQ rs1).length % 8 = 0 → (∀ x ∈ c, isHex x = true) → ∃ b : Bits,
      exec (.fromhex rd rs1) s = .next (withQ s rd b) ∧ b.length = 4 * c.length ∧
      ∀ k < c.length, val (group b 4 k) = hexVal (c.getD k 0)) ∧
    ((s.readQ rs1).length % 8 ≠ 0 ∨ (∃ x ∈ c, isHex x = false) →
      exec (.fromhex rd rs1) s = .next (failed s 1 (.fromhex rd rs1))) ∧
    encode (.fromhex rd rs1) &&& 0xFF03FFFF = 0x2C000000

/-- Rule R127: `fromhex` of `tohex` of a sequence is the sequence left-zero-padded to a multiple of 4 bits, and `tohex` of
`fromhex` of a string of hexadecimal digits is the string with its letters in lower case. -/
def Obligations.HexConversionsAreInverse : Prop :=
  ∀ (r₁ r₂ r₃ : QReg) (s : State), s.err = false →
    (∀ n, CeilOf n (s.readQ r₁).length 4 → 8 * n ≤ 65536 → ∃ t u : State,
      exec (.tohex r₂ r₁) s = .next t ∧ exec (.fromhex r₃ r₂) t = .next u ∧
      u.readQ r₃ = padL (s.readQ r₁) (4 * n)) ∧
    (∀ c, c = bytesOf (s.readQ r₁) → (s.readQ r₁).length % 8 = 0 → (s.readQ r₁).length ≤ 65536 →
      (∀ x ∈ c, isHex x = true) → ∃ t u : State,
      exec (.fromhex r₂ r₁) s = .next t ∧ exec (.tohex r₃ r₂) t = .next u ∧
      bytesOf (u.readQ r₃) = c.map fun x => if 0x41 ≤ x ∧ x ≤ 0x46 then x + 0x20 else x)

/-! ### Table primitives -/

/-- Rule R141: `xor` of sequences of equal length is the exclusive-or position by position; of unequal lengths it raises
LengthMismatch. -/
def Obligations.XorIsBitwise : Prop :=
  ∀ (rd rs1 rs2 : QReg) (s : State), s.err = false →
    ((s.readQ rs1).length = (s.readQ rs2).length → ∃ b : Bits,
      exec (.xor rd rs1 rs2) s = .next (withQ s rd b) ∧ b.length = (s.readQ rs1).length ∧
      ∀ k < b.length, b.getD k false = ((s.readQ rs1).getD k false ^^ (s.readQ rs2).getD k false)) ∧
    ((s.readQ rs1).length ≠ (s.readQ rs2).length →
      exec (.xor rd rs1 rs2) s = .next (failed s 2 (.xor rd rs1 rs2))) ∧
    encode (.xor rd rs1 rs2) &&& 0xFF007FFF = 0x40000000

/-- Rules R142 to R144, for every `SBOX` that meets rule R7: `sub4` looks up every nibble of the operand right-zero-padded
to a multiple of 4 bits in `SBOX`, and `sub4.i` in its inverse. -/
def Obligations.Sub4LooksUpEveryNibble : Prop :=
  ∀ (rd rs1 : QReg) (s : State) (n : Nat), s.err = false → s.ConstantsOk → CeilOf n (s.readQ rs1).length 4 →
    (s.readQ rs1).length ≤ 65536 →
    (∃ b : Bits, exec (.sub4 rd rs1) s = .next (withQ s rd b) ∧ b.length = 4 * n ∧
      ∀ k < n, val (group b 4 k) = sboxAt s.sbox (val (group (padR (s.readQ rs1) (4 * n)) 4 k))) ∧
    (∃ b : Bits, exec (.sub4I rd rs1) s = .next (withQ s rd b) ∧ b.length = 4 * n ∧
      ∀ k < n, sboxAt s.sbox (val (group b 4 k)) = val (group (padR (s.readQ rs1) (4 * n)) 4 k))

/-- Rules R142 and R143, for every `SBOX` that meets rule R7: on a whole number of nibbles `sub4.i` undoes `sub4` and
`sub4` undoes `sub4.i`; and `sub4` of `0000` is `1000`, `sub4.i` of `1000` is `0000`. -/
def Obligations.Sub4RoundTrips : Prop :=
  ∀ (r₁ r₂ r₃ : QReg) (s : State), s.err = false → s.ConstantsOk → (s.readQ r₁).length ≤ 65536 →
    ((s.readQ r₁).length % 4 = 0 →
      (∃ t u : State, exec (.sub4 r₂ r₁) s = .next t ∧ exec (.sub4I r₃ r₂) t = .next u ∧
        u.readQ r₃ = s.readQ r₁) ∧
      (∃ t u : State, exec (.sub4I r₂ r₁) s = .next t ∧ exec (.sub4 r₃ r₂) t = .next u ∧
        u.readQ r₃ = s.readQ r₁)) ∧
    (s.readQ r₁ = [false, false, false, false] →
      exec (.sub4 r₂ r₁) s = .next (withQ s r₂ [true, false, false, false])) ∧
    (s.readQ r₁ = [true, false, false, false] →
      exec (.sub4I r₂ r₁) s = .next (withQ s r₂ [false, false, false, false]))

/-- Rules R145 and R146: with an active table that is a bijection, `perm` moves the bit at position p of every chunk of
`PW` bits to position `PTAB[p]`, the operand right-zero-padded to whole chunks, and `perm.i` moves it back; both raise
Overflow when the chunks need more than `QMAX` bits. -/
def Obligations.PermMovesEveryBit : Prop :=
  ∀ (rd rs1 : QReg) (s : State) (n : Nat), s.err = false → s.TableOk →
    CeilOf n (s.readQ rs1).length s.pw.toNat →
    (s.pw.toNat * n ≤ 65536 →
      (∃ b : Bits, exec (.perm rd rs1) s = .next (withQ s rd b) ∧ b.length = s.pw.toNat * n ∧
        ∀ j < n, ∀ p, 1 ≤ p → p ≤ s.pw.toNat →
          b.getD (s.pw.toNat * j + ptabAt s p - 1) false = (s.readQ rs1).getD (s.pw.toNat * j + p - 1) false) ∧
      (∃ b : Bits, exec (.permI rd rs1) s = .next (withQ s rd b) ∧ b.length = s.pw.toNat * n ∧
        ∀ j < n, ∀ p, 1 ≤ p → p ≤ s.pw.toNat →
          b.getD (s.pw.toNat * j + p - 1) false = (s.readQ rs1).getD (s.pw.toNat * j + ptabAt s p - 1) false)) ∧
    (65536 < s.pw.toNat * n →
      exec (.perm rd rs1) s = .next (failed s 7 (.perm rd rs1)) ∧
      exec (.permI rd rs1) s = .next (failed s 7 (.permI rd rs1)))

/-- Rule R145: on a whole number of chunks `perm.i` undoes `perm` and `perm` undoes `perm.i`, for every active table that
is a bijection. -/
def Obligations.PermRoundTrips : Prop :=
  ∀ (r₁ r₂ r₃ : QReg) (s : State), s.err = false → s.TableOk → (s.readQ r₁).length ≤ 65536 →
    (s.readQ r₁).length % s.pw.toNat = 0 →
    (∃ t u : State, exec (.perm r₂ r₁) s = .next t ∧ exec (.permI r₃ r₂) t = .next u ∧ u.readQ r₃ = s.readQ r₁) ∧
    (∃ t u : State, exec (.permI r₂ r₁) s = .next t ∧ exec (.perm r₃ r₂) t = .next u ∧ u.readQ r₃ = s.readQ r₁)

/-- Rule R147: `pdflt` puts the default table for width `PWS` into the staging and the active table, `PBOX16` for 16 and
the identity for any other width, leaves the entries above it alone, and raises BadConfig for a width outside
1..PW_MAX. -/
def Obligations.PdfltInstallsTheDefaultTable : Prop :=
  ∀ s : State, s.err = false →
    (1 ≤ s.pws.toNat → s.pws.toNat ≤ 256 → ∃ t : State, exec .pdflt s = .next t ∧
      t = { s with pstg := t.pstg, ptab := t.ptab, pw := s.pws } ∧
      (∀ k : Fin 256, k.val < s.pws.toNat →
        t.ptab[k] = t.pstg[k] ∧
        (s.pws.toNat ≠ 16 → t.pstg[k].toNat = k.val + 1) ∧
        (s.pws.toNat = 16 → ∀ h : k.val < 16, t.pstg[k] = s.pbox16[k.val])) ∧
      (∀ k : Fin 256, s.pws.toNat ≤ k.val → t.pstg[k] = s.pstg[k] ∧ t.ptab[k] = s.ptab[k])) ∧
    (s.pws.toNat = 0 ∨ 256 < s.pws.toNat → exec .pdflt s = .next (failed s 5 .pdflt)) ∧
    encode .pdflt = 0x4C000000

/-- Rule R148: `pload` makes the staging table the active one when its first `PWS` entries are a bijection of {1..PWS};
otherwise it raises NonInvertibleTable, and before that BadConfig for a width outside 1..PW_MAX. -/
def Obligations.PloadInstallsOnlyBijections : Prop :=
  ∀ s : State, s.err = false →
    (1 ≤ s.pws.toNat → s.pws.toNat ≤ 256 →
      ((∀ k : Fin 256, k.val < s.pws.toNat → 1 ≤ s.pstg[k].toNat ∧ s.pstg[k].toNat ≤ s.pws.toNat) ∧
        (∀ k l : Fin 256, k.val < s.pws.toNat → l.val < s.pws.toNat → k ≠ l → s.pstg[k] ≠ s.pstg[l]) →
        ∃ t : State, exec .pload s = .next t ∧ t = { s with ptab := t.ptab, pw := s.pws } ∧
          (∀ k : Fin 256, k.val < s.pws.toNat → t.ptab[k] = s.pstg[k]) ∧
          (∀ k : Fin 256, s.pws.toNat ≤ k.val → t.ptab[k] = s.ptab[k])) ∧
      (¬ ((∀ k : Fin 256, k.val < s.pws.toNat → 1 ≤ s.pstg[k].toNat ∧ s.pstg[k].toNat ≤ s.pws.toNat) ∧
        (∀ k l : Fin 256, k.val < s.pws.toNat → l.val < s.pws.toNat → k ≠ l → s.pstg[k] ≠ s.pstg[l])) →
        exec .pload s = .next (failed s 3 .pload))) ∧
    (s.pws.toNat = 0 ∨ 256 < s.pws.toNat → exec .pload s = .next (failed s 5 .pload)) ∧
    encode .pload = 0x50000000

/-! ### Scheduler -/

/-- Rules R161 to R164: a successful `ksched` records `NR` keys of `RKS` bits and the final seed. The seeds follow the
recurrence from the exclusive-or of the key's halves; in round i the local copy starts at the round's seed and
follows the same recurrence with the same i; bit b of key i is bit b mod 32, counted from the most significant, of
the local copy's word b/32 after its first advance. -/
def Obligations.KschedFollowsTheRecurrence : Prop :=
  ∀ (rs1 : QReg) (s : State) (l r : Bits), s.err = false →
    s.nr.toNat ≤ 64 → 1 ≤ s.rks.toNat → s.rks.toNat ≤ 1024 →
    s.readQ rs1 = l ++ r → l.length = r.length → 1 ≤ l.length →
    ∃ (keys : List Bits) (seed : Nat → Nat) (loc : Nat → Nat → Nat),
      exec (.ksched rs1) s = .next { s with
        rk := keys, rkn := s.nr, rkw := s.rks, seed := BitVec.ofNat 32 (seed s.nr.toNat), rkv := true } ∧
      seed 0 = (val l ^^^ val r) % 2 ^ 32 ∧
      (∀ i, seed (i + 1) = (1664525 * (seed i + i) + 1013904223) % 2 ^ 32) ∧
      (∀ i, loc i 0 = seed (i + 1)) ∧
      (∀ i j, loc i (j + 1) = (1664525 * (loc i j + i) + 1013904223) % 2 ^ 32) ∧
      keys.length = s.nr.toNat ∧
      ∀ i < s.nr.toNat, (keys.getD i []).length = s.rks.toNat ∧
        ∀ b < s.rks.toNat, (keys.getD i []).getD b false = (loc i (b / 32 + 1)).testBit (31 - b % 32)

/-- Rules R163 and R164: `ksched` raises BadConfig for a round count or key size the file cannot hold, then LengthMismatch
for a master key shorter than 2 bits or of odd length, and writes none of the schedule's state then. -/
def Obligations.KschedErrorsInOrder : Prop :=
  ∀ (rs1 : QReg) (s : State), s.err = false →
    (64 < s.nr.toNat ∨ s.rks.toNat = 0 ∨ 1024 < s.rks.toNat →
      exec (.ksched rs1) s = .next (failed s 5 (.ksched rs1))) ∧
    (s.nr.toNat ≤ 64 → 1 ≤ s.rks.toNat → s.rks.toNat ≤ 1024 →
      (s.readQ rs1).length < 2 ∨ (s.readQ rs1).length % 2 = 1 →
      exec (.ksched rs1) s = .next (failed s 2 (.ksched rs1)))

/-- Rule R165: the first keys of a schedule do not depend on the round count, and the keys of a smaller size are prefixes
of those of a larger one. -/
def Obligations.SchedulePrefixes : Prop :=
  ∀ (k : Bits) (n m size extra : Nat), 1 ≤ size →
    (schedule k (n + m) size).1.take n = (schedule k n size).1 ∧
    (schedule k n size).1 = (schedule k n (size + extra)).1.map fun key => key.take size

/-- Rule R166: `rkget` copies round key `imm`, and raises NoRoundKey when no schedule is recorded or the index is not below
`RKN`. -/
def Obligations.RkgetCopiesARoundKey : Prop :=
  ∀ (rd : QReg) (imm : Nat) (s : State), s.err = false →
    (∀ k, s.rkv = true → imm < s.rkn.toNat → s.rk[imm]? = some k →
      exec (.rkget rd imm) s = .next (withQ s rd k)) ∧
    (s.rkv = false ∨ s.rkn.toNat ≤ imm → exec (.rkget rd imm) s = .next (failed s 6 (.rkget rd imm))) ∧
    encode (.rkget rd imm) &&& 0xFF1F8000 = 0x64000000

/-! ### Feistel engine -/

/-- Rules R172 to R174: `frnd` takes the halves (L, R) of the block to (R, xor(L, F(R, k))) and `frnd.i` to
(xor(R, F(L, k)), L), with k the round key named. -/
def Obligations.FrndIsOneRound : Prop :=
  ∀ (rd rs1 : QReg) (imm : Nat) (s : State) (l r k : Bits), s.err = false →
    FeistelBlockOk s → s.rkv = true → imm < s.rkn.toNat → FeistelWidthsOk s → s.rk[imm]? = some k →
    s.readQ rs1 = l ++ r → l.length = s.bs.toNat / 2 → r.length = s.bs.toNat / 2 →
    exec (.frnd rd rs1 imm) s = .next (withQ s rd (r ++ xorBits l (roundF s r k))) ∧
    exec (.frndI rd rs1 imm) s = .next (withQ s rd (xorBits r (roundF s l k) ++ l))

/-- Rule R173, in every state that satisfies the invariant: with the same key `frnd.i` undoes `frnd` and `frnd` undoes
`frnd.i`. -/
def Obligations.FeistelRoundsUndoEachOther : Prop :=
  ∀ (r₁ r₂ r₃ : QReg) (imm : Nat) (s : State), s.Inv → s.err = false →
    FeistelBlockOk s → s.rkv = true → imm < s.rkn.toNat → FeistelWidthsOk s →
    (s.readQ r₁).length = s.bs.toNat →
    (∃ t u : State, exec (.frnd r₂ r₁ imm) s = .next t ∧ exec (.frndI r₃ r₂ imm) t = .next u ∧
      u.readQ r₃ = s.readQ r₁) ∧
    (∃ t u : State, exec (.frndI r₂ r₁ imm) s = .next t ∧ exec (.frnd r₃ r₂ imm) t = .next u ∧
      u.readQ r₃ = s.readQ r₁)

/-- Rule R175: `feis.e` applies the rounds in key order 0..RKN-1 and `feis.d` the inverse rounds from the last key to the
first, on a block of exactly `BS` bits. -/
def Obligations.FeistelCipherIsItsRounds : Prop :=
  ∀ (rd rs1 : QReg) (s : State), s.Inv → s.err = false → FeistelReady s → (s.readQ rs1).length = s.bs.toNat →
    (∃ b : Nat → Bits, exec (.feisE rd rs1) s = .next (withQ s rd (b s.rkn.toNat)) ∧ b 0 = s.readQ rs1 ∧
      ∀ i < s.rkn.toNat, b (i + 1) = (b i).drop (s.bs.toNat / 2) ++
        xorBits ((b i).take (s.bs.toNat / 2)) (roundF s ((b i).drop (s.bs.toNat / 2)) (s.rk.getD i []))) ∧
    (∃ b : Nat → Bits, exec (.feisD rd rs1) s = .next (withQ s rd (b 0)) ∧ b s.rkn.toNat = s.readQ rs1 ∧
      ∀ i < s.rkn.toNat, b i =
        xorBits ((b (i + 1)).drop (s.bs.toNat / 2)) (roundF s ((b (i + 1)).take (s.bs.toNat / 2)) (s.rk.getD i [])) ++
          (b (i + 1)).take (s.bs.toNat / 2))

/-- Rule R176, in every state that satisfies the invariant, for every round count, key file and active table: `feis.d` undoes
`feis.e` and `feis.e` undoes `feis.d`; with no rounds both copy the block. -/
def Obligations.FeistelDecryptUndoesEncrypt : Prop :=
  ∀ (r₁ r₂ r₃ : QReg) (s : State), s.Inv → s.err = false → FeistelReady s → (s.readQ r₁).length = s.bs.toNat →
    (∃ t u : State, exec (.feisE r₂ r₁) s = .next t ∧ exec (.feisD r₃ r₂) t = .next u ∧
      u.readQ r₃ = s.readQ r₁) ∧
    (∃ t u : State, exec (.feisD r₂ r₁) s = .next t ∧ exec (.feisE r₃ r₂) t = .next u ∧
      u.readQ r₃ = s.readQ r₁) ∧
    (s.rkn = 0 → exec (.feisE r₂ r₁) s = .next (withQ s r₂ (s.readQ r₁)) ∧
      exec (.feisD r₂ r₁) s = .next (withQ s r₂ (s.readQ r₁)))

/-- Rules R171, R174, R175 and R224: the Feistel commands report BadConfig, then NoRoundKey, then LengthMismatch. -/
def Obligations.FeistelErrorsInOrder : Prop :=
  ∀ (rd rs1 : QReg) (imm : Nat) (s : State), s.err = false →
    (∀ i ∈ [Instr.frnd rd rs1 imm, .frndI rd rs1 imm],
      (¬ FeistelBlockOk s → exec i s = .next (failed s 5 i)) ∧
      (FeistelBlockOk s → s.rkv = false ∨ s.rkn.toNat ≤ imm → exec i s = .next (failed s 6 i)) ∧
      (FeistelBlockOk s → s.rkv = true → imm < s.rkn.toNat →
        ¬ FeistelWidthsOk s ∨ (s.readQ rs1).length ≠ s.bs.toNat → exec i s = .next (failed s 2 i))) ∧
    (∀ i ∈ [Instr.feisE rd rs1, .feisD rd rs1],
      (¬ FeistelBlockOk s → exec i s = .next (failed s 5 i)) ∧
      (FeistelBlockOk s → s.rkv = false → exec i s = .next (failed s 6 i)) ∧
      (FeistelBlockOk s → s.rkv = true →
        (0 < s.rkn.toNat ∧ ¬ FeistelWidthsOk s) ∨ (s.readQ rs1).length ≠ s.bs.toNat →
        exec i s = .next (failed s 2 i)))

/-! ### SPN engine -/

/-- Rules R180, R181 and R184, in every state that satisfies the invariant: `srnd` takes every chunk of `RKW` bits, the
operand right-zero-padded to whole chunks, through key mix, substitution and permutation; `srnd.i` takes it through
inverse permutation, inverse substitution and key mix. -/
def Obligations.SrndIsThreeStagesPerChunk : Prop :=
  ∀ (rd rs1 : QReg) (imm n : Nat) (s : State) (k : Bits), s.Inv → s.err = false →
    s.rkv = true → imm < s.rkn.toNat → SpnWidthsOk s → s.rk[imm]? = some k →
    CeilOf n (s.readQ rs1).length s.rkw.toNat → s.rkw.toNat * n ≤ 65536 →
    (∃ b : Bits, exec (.srnd rd rs1 imm) s = .next (withQ s rd b) ∧ b.length = s.rkw.toNat * n ∧
      ∀ j < n, group b s.rkw.toNat j =
        roundF s (group (padR (s.readQ rs1) (s.rkw.toNat * n)) s.rkw.toNat j) k) ∧
    (∃ b : Bits, exec (.srndI rd rs1 imm) s = .next (withQ s rd b) ∧ b.length = s.rkw.toNat * n ∧
      ∀ j < n, group b s.rkw.toNat j =
        roundInv s (group (padR (s.readQ rs1) (s.rkw.toNat * n)) s.rkw.toNat j) k)

/-- Rule R180: on one chunk an SPN round is the commands `rkget`, `xor`, `sub4` and `perm` one after the other. -/
def Obligations.SrndIsXorThenSub4ThenPerm : Prop :=
  ∀ (rd rs1 tmp : QReg) (imm : Nat) (s : State), s.Inv → s.err = false →
    s.rkv = true → imm < s.rkn.toNat → SpnWidthsOk s → (s.readQ rs1).length = s.rkw.toNat → tmp ≠ rs1 →
    ∃ t₁ t₂ t₃ t₄ t : State,
      exec (.rkget tmp imm) s = .next t₁ ∧ exec (.xor tmp rs1 tmp) t₁ = .next t₂ ∧
      exec (.sub4 tmp tmp) t₂ = .next t₃ ∧ exec (.perm rd tmp) t₃ = .next t₄ ∧
      exec (.srnd rd rs1 imm) s = .next t ∧ t₄.readQ rd = t.readQ rd

/-- Rule R183, in every state that satisfies the invariant: on whole chunks `srnd.i` undoes `srnd` and `srnd` undoes
`srnd.i`, with the same key. -/
def Obligations.SpnRoundsUndoEachOther : Prop :=
  ∀ (r₁ r₂ r₃ : QReg) (imm : Nat) (s : State), s.Inv → s.err = false →
    s.rkv = true → imm < s.rkn.toNat → SpnWidthsOk s → (s.readQ r₁).length % s.rkw.toNat = 0 →
    (∃ t u : State, exec (.srnd r₂ r₁ imm) s = .next t ∧ exec (.srndI r₃ r₂ imm) t = .next u ∧
      u.readQ r₃ = s.readQ r₁) ∧
    (∃ t u : State, exec (.srndI r₂ r₁ imm) s = .next t ∧ exec (.srnd r₃ r₂ imm) t = .next u ∧
      u.readQ r₃ = s.readQ r₁)

/-- Rule R185, in every state that satisfies the invariant: `spn.e` pads the operand to whole chunks and applies the rounds
in key order 0..RKN-1, `spn.d` the inverse rounds from the last key to the first, every round to every chunk. -/
def Obligations.SpnCipherIsItsRounds : Prop :=
  ∀ (rd rs1 : QReg) (s : State) (n : Nat), s.Inv → s.err = false → SpnReady s →
    CeilOf n (s.readQ rs1).length s.rkw.toNat → s.rkw.toNat * n ≤ 65536 →
    (∃ x : Nat → Bits, exec (.spnE rd rs1) s = .next (withQ s rd (x s.rkn.toNat)) ∧
      x 0 = padR (s.readQ rs1) (s.rkw.toNat * n) ∧ (∀ i ≤ s.rkn.toNat, (x i).length = s.rkw.toNat * n) ∧
      ∀ i < s.rkn.toNat, ∀ j < n,
        group (x (i + 1)) s.rkw.toNat j = roundF s (group (x i) s.rkw.toNat j) (s.rk.getD i [])) ∧
    (∃ x : Nat → Bits, exec (.spnD rd rs1) s = .next (withQ s rd (x 0)) ∧
      x s.rkn.toNat = padR (s.readQ rs1) (s.rkw.toNat * n) ∧ (∀ i ≤ s.rkn.toNat, (x i).length = s.rkw.toNat * n) ∧
      ∀ i < s.rkn.toNat, ∀ j < n,
        group (x i) s.rkw.toNat j = roundInv s (group (x (i + 1)) s.rkw.toNat j) (s.rk.getD i []))

/-- Rule R186, in every state that satisfies the invariant, for every round count, key file and active table: `spn.d` of
`spn.e` of a sequence, and `spn.e` of `spn.d`, is the sequence right-zero-padded to whole chunks. -/
def Obligations.SpnDecryptUndoesEncrypt : Prop :=
  ∀ (r₁ r₂ r₃ : QReg) (s : State) (n : Nat), s.Inv → s.err = false → SpnReady s →
    CeilOf n (s.readQ r₁).length s.rkw.toNat → s.rkw.toNat * n ≤ 65536 →
    (∃ t u : State, exec (.spnE r₂ r₁) s = .next t ∧ exec (.spnD r₃ r₂) t = .next u ∧
      u.readQ r₃ = padR (s.readQ r₁) (s.rkw.toNat * n)) ∧
    (∃ t u : State, exec (.spnD r₂ r₁) s = .next t ∧ exec (.spnE r₃ r₂) t = .next u ∧
      u.readQ r₃ = padR (s.readQ r₁) (s.rkw.toNat * n))

/-- Rules R182, R184, R185 and R224: the SPN commands report NoRoundKey, then LengthMismatch, then Overflow. -/
def Obligations.SpnErrorsInOrder : Prop :=
  ∀ (rd rs1 : QReg) (imm n : Nat) (s : State), s.err = false →
    (∀ i ∈ [Instr.srnd rd rs1 imm, .srndI rd rs1 imm],
      (s.rkv = false ∨ s.rkn.toNat ≤ imm → exec i s = .next (failed s 6 i)) ∧
      (s.rkv = true → imm < s.rkn.toNat → ¬ SpnWidthsOk s → exec i s = .next (failed s 2 i)) ∧
      (s.rkv = true → imm < s.rkn.toNat → SpnWidthsOk s → CeilOf n (s.readQ rs1).length s.rkw.toNat →
        65536 < s.rkw.toNat * n → exec i s = .next (failed s 7 i))) ∧
    (∀ i ∈ [Instr.spnE rd rs1, .spnD rd rs1],
      (s.rkv = false → exec i s = .next (failed s 6 i)) ∧
      (s.rkv = true → 0 < s.rkn.toNat → ¬ SpnWidthsOk s → exec i s = .next (failed s 2 i)) ∧
      (SpnReady s → CeilOf n (s.readQ rs1).length s.rkw.toNat → 65536 < s.rkw.toNat * n →
        exec i s = .next (failed s 7 i)))

/-! ### Chaining modes -/

/-- Rule R191: `pad` appends p bytes of value p, with 1 <= p <= B, so that the whole is a number of blocks of B bytes;
it raises BadConfig, LengthMismatch and Overflow, in that order. -/
def Obligations.PadAppendsThePadLength : Prop :=
  ∀ (rd rs1 : QReg) (s : State), s.err = false →
    (s.bs.toNat % 8 = 0 → 8 ≤ s.bs.toNat → s.bs.toNat ≤ 2040 → (s.readQ rs1).length % 8 = 0 →
      ∀ p, 1 ≤ p → p ≤ s.bs.toNat / 8 → ((s.readQ rs1).length + 8 * p) % s.bs.toNat = 0 →
      ((s.readQ rs1).length + 8 * p ≤ 65536 → ∃ c : Bits,
        exec (.pad rd rs1) s = .next (withQ s rd (s.readQ rs1 ++ c)) ∧ c.length = 8 * p ∧
        ∀ k < p, val (group c 8 k) = p) ∧
      (65536 < (s.readQ rs1).length + 8 * p → exec (.pad rd rs1) s = .next (failed s 7 (.pad rd rs1)))) ∧
    (s.bs.toNat % 8 ≠ 0 ∨ s.bs.toNat < 8 ∨ 2040 < s.bs.toNat →
      exec (.pad rd rs1) s = .next (failed s 5 (.pad rd rs1))) ∧
    (s.bs.toNat % 8 = 0 → 8 ≤ s.bs.toNat → s.bs.toNat ≤ 2040 → (s.readQ rs1).length % 8 ≠ 0 →
      exec (.pad rd rs1) s = .next (failed s 2 (.pad rd rs1))) ∧
    encode (.pad rd rs1) &&& 0xFF03FFFF = 0xC0000000

/-- Rule R193: `unpad` removes as many bytes as the last byte says when that is in 1..messageBytes, with `PAMB = 0`;
otherwise it copies the message with `PAMB = 1` and raises nothing; a partial byte is a LengthMismatch. -/
def Obligations.UnpadRemovesTheDeclaredLength : Prop :=
  ∀ (rd rs1 : QReg) (s : State), s.err = false →
    (∀ (m : Bits) (c : Bits) (p : Nat), s.readQ rs1 = m ++ c → (m ++ c).length % 8 = 0 → 1 ≤ p → c.length = 8 * p →
      val (slice c (c.length - 8) c.length) = p →
      exec (.unpad rd rs1) s = .next { s with q := s.q.set rd m, pamb := false }) ∧
    (∀ (m : Bits) (last : Bits), s.readQ rs1 = m ++ last → m.length % 8 = 0 → last.length = 8 →
      val last = 0 ∨ m.length / 8 + 1 < val last →
      exec (.unpad rd rs1) s = .next { s with q := s.q.set rd (s.readQ rs1), pamb := true }) ∧
    (s.readQ rs1 = [] → exec (.unpad rd rs1) s = .next { s with q := s.q.set rd [], pamb := true }) ∧
    ((s.readQ rs1).length % 8 ≠ 0 → exec (.unpad rd rs1) s = .next (failed s 2 (.unpad rd rs1))) ∧
    encode (.unpad rd rs1) &&& 0xFF03FFFF = 0xC4000000

/-- Rule R197, in every state that satisfies the invariant: with either cipher, block j of the result of `ecb` is the block
function of block j of the message right-zero-padded to whole blocks, and nothing else goes into it. -/
def Obligations.EcbCiphersEachBlockAlone : Prop :=
  ∀ (c : Cipher) (rd rs1 : QReg) (s : State) (n : Nat), s.Inv → s.err = false → ChainReady s c →
    CeilOf n (s.readQ rs1).length s.bs.toNat → s.bs.toNat * n ≤ 65536 →
    (∃ b : Bits, exec (ecbInstr c false rd rs1) s = .next (withQ s rd b) ∧ b.length = s.bs.toNat * n ∧
      ∀ j < n, group b s.bs.toNat j =
        s.encBlock c (group (padR (s.readQ rs1) (s.bs.toNat * n)) s.bs.toNat j)) ∧
    (∃ b : Bits, exec (ecbInstr c true rd rs1) s = .next (withQ s rd b) ∧ b.length = s.bs.toNat * n ∧
      ∀ j < n, group b s.bs.toNat j =
        s.decBlock c (group (padR (s.readQ rs1) (s.bs.toNat * n)) s.bs.toNat j))

/-- Rule R196: on one block of `BS` bits the block functions of `ecb` and `cbc` are the commands `feis.e`, `feis.d`, `spn.e`
and `spn.d`. -/
def Obligations.BlockFunctionsAreTheCipherCommands : Prop :=
  ∀ (rd rs1 : QReg) (s : State), s.err = false → (s.readQ rs1).length = s.bs.toNat →
    (ChainReady s .feistel →
      exec (.feisE rd rs1) s = .next (withQ s rd (s.encBlock .feistel (s.readQ rs1))) ∧
      exec (.feisD rd rs1) s = .next (withQ s rd (s.decBlock .feistel (s.readQ rs1)))) ∧
    (ChainReady s .spn →
      exec (.spnE rd rs1) s = .next (withQ s rd (s.encBlock .spn (s.readQ rs1))) ∧
      exec (.spnD rd rs1) s = .next (withQ s rd (s.decBlock .spn (s.readQ rs1))))

/-- Rule R198, in every state that satisfies the invariant: `ecb` decryption undoes `ecb` encryption with the same cipher
on every message of whole blocks. -/
def Obligations.EcbDecryptUndoesEncrypt : Prop :=
  ∀ (c : Cipher) (r₁ r₂ r₃ : QReg) (s : State), s.Inv → s.err = false → ChainReady s c →
    (s.readQ r₁).length % s.bs.toNat = 0 →
    ∃ t u : State, exec (ecbInstr c false r₂ r₁) s = .next t ∧ exec (ecbInstr c true r₃ r₂) t = .next u ∧
      u.readQ r₃ = s.readQ r₁

/-- Rules R199 to R201, in every state that satisfies the invariant: block j of `cbc` encryption is the block function of the
plaintext block exclusive-ored with the previous ciphertext block; block j of `cbc` decryption is the inverse block
function of the ciphertext block exclusive-ored with the previous ciphertext block as read; before block 0 stands the
IV left-zero-padded to a block. -/
def Obligations.CbcChainsOnCiphertext : Prop :=
  ∀ (c : Cipher) (rd rs1 rs2 : QReg) (s : State) (n : Nat), s.Inv → s.err = false → ChainReady s c →
    (s.readQ rs2).length ≤ s.bs.toNat → CeilOf n (s.readQ rs1).length s.bs.toNat → s.bs.toNat * n ≤ 65536 →
    (∃ b : Bits, exec (cbcInstr c false rd rs1 rs2) s = .next (withQ s rd b) ∧ b.length = s.bs.toNat * n ∧
      ∀ j < n, group b s.bs.toNat j =
        s.encBlock c (xorBits (group (padR (s.readQ rs1) (s.bs.toNat * n)) s.bs.toNat j)
          (if j = 0 then padL (s.readQ rs2) s.bs.toNat else group b s.bs.toNat (j - 1)))) ∧
    (∃ b : Bits, exec (cbcInstr c true rd rs1 rs2) s = .next (withQ s rd b) ∧ b.length = s.bs.toNat * n ∧
      ∀ j < n, group b s.bs.toNat j =
        xorBits (s.decBlock c (group (padR (s.readQ rs1) (s.bs.toNat * n)) s.bs.toNat j))
          (if j = 0 then padL (s.readQ rs2) s.bs.toNat
            else group (padR (s.readQ rs1) (s.bs.toNat * n)) s.bs.toNat (j - 1)))

/-- Rule R202, in every state that satisfies the invariant: `cbc` decryption undoes `cbc` encryption with the same cipher and
the same IV on every message of whole blocks. -/
def Obligations.CbcDecryptUndoesEncrypt : Prop :=
  ∀ (c : Cipher) (r₁ r₂ r₃ iv : QReg) (s : State), s.Inv → s.err = false → ChainReady s c →
    (s.readQ r₁).length % s.bs.toNat = 0 → (s.readQ iv).length ≤ s.bs.toNat → r₂ ≠ iv →
    ∃ t u : State, exec (cbcInstr c false r₂ r₁ iv) s = .next t ∧ exec (cbcInstr c true r₃ r₂ iv) t = .next u ∧
      u.readQ r₃ = s.readQ r₁

/-- Rule R202, in every state that satisfies the invariant: two IVs that differ as blocks give ciphertexts of the same
non-empty message, of any length whose whole blocks fit a register, that differ in block 0. -/
def Obligations.CbcIvChangesTheFirstBlock : Prop :=
  ∀ (c : Cipher) (rd rs1 iv₁ iv₂ : QReg) (s : State) (n : Nat), s.Inv → s.err = false → ChainReady s c →
    s.readQ rs1 ≠ [] → CeilOf n (s.readQ rs1).length s.bs.toNat → s.bs.toNat * n ≤ 65536 →
    (s.readQ iv₁).length ≤ s.bs.toNat → (s.readQ iv₂).length ≤ s.bs.toNat →
    padL (s.readQ iv₁) s.bs.toNat ≠ padL (s.readQ iv₂) s.bs.toNat →
    ∃ t u : State, exec (cbcInstr c false rd rs1 iv₁) s = .next t ∧ exec (cbcInstr c false rd rs1 iv₂) s = .next u ∧
      group (t.readQ rd) s.bs.toNat 0 ≠ group (u.readQ rd) s.bs.toNat 0

/-- Rules R195, R197, R199 to R201 and R224: `ecb` and `cbc` report BadConfig, then NoRoundKey, then LengthMismatch for the
widths, then (`cbc`) for an IV longer than a block, then Overflow. -/
def Obligations.ChainingErrorsInOrder : Prop :=
  ∀ (c : Cipher) (inverse : Bool) (rd rs1 rs2 : QReg) (s : State) (n : Nat), s.err = false →
    (∀ i ∈ [ecbInstr c inverse rd rs1, cbcInstr c inverse rd rs1 rs2],
      (c = .feistel → ¬ FeistelBlockOk s → exec i s = .next (failed s 5 i)) ∧
      (c = .spn → s.bs.toNat = 0 ∨ 65536 < s.bs.toNat → exec i s = .next (failed s 5 i)) ∧
      (c = .feistel → FeistelBlockOk s → s.rkv = false → exec i s = .next (failed s 6 i)) ∧
      (c = .spn → 1 ≤ s.bs.toNat → s.bs.toNat ≤ 65536 → s.rkv = false → exec i s = .next (failed s 6 i)) ∧
      (c = .feistel → FeistelBlockOk s → s.rkv = true → ¬ FeistelReady s → exec i s = .next (failed s 2 i)) ∧
      (c = .spn → 1 ≤ s.bs.toNat → s.bs.toNat ≤ 65536 → s.rkv = true → ¬ ChainReady s .spn →
        exec i s = .next (failed s 2 i))) ∧
    (ChainReady s c → CeilOf n (s.readQ rs1).length s.bs.toNat →
      (65536 < s.bs.toNat * n →
        exec (ecbInstr c inverse rd rs1) s = .next (failed s 7 (ecbInstr c inverse rd rs1))) ∧
      (s.bs.toNat < (s.readQ rs2).length →
        exec (cbcInstr c inverse rd rs1 rs2) s = .next (failed s 2 (cbcInstr c inverse rd rs1 rs2))) ∧
      ((s.readQ rs2).length ≤ s.bs.toNat → 65536 < s.bs.toNat * n →
        exec (cbcInstr c inverse rd rs1 rs2) s = .next (failed s 7 (cbcInstr c inverse rd rs1 rs2))))

/-- Rule R203, in every state that satisfies the invariant: a message of whole bytes padded, ciphered, deciphered and unpadded
is the message, with `PAMB = 0`, and what is deciphered is the padded message; for `ecb`, and for `cbc` with one IV,
with either cipher. The padded message, of n blocks, has to fit a register. -/
def Obligations.WholeMessagesRoundTrip : Prop :=
  ∀ (c : Cipher) (r₁ r₂ r₃ iv : QReg) (s : State), s.Inv → s.err = false → ChainReady s c →
    s.bs.toNat % 8 = 0 → 8 ≤ s.bs.toNat → s.bs.toNat ≤ 2040 →
    (s.readQ r₁).length % 8 = 0 →
    ∀ n, (s.readQ r₁).length < s.bs.toNat * n → s.bs.toNat * n ≤ (s.readQ r₁).length + s.bs.toNat →
    s.bs.toNat * n ≤ 65536 →
    (∃ t₁ t₂ t₃ t₄ : State, exec (.pad r₂ r₁) s = .next t₁ ∧ exec (ecbInstr c false r₂ r₂) t₁ = .next t₂ ∧
      exec (ecbInstr c true r₂ r₂) t₂ = .next t₃ ∧ exec (.unpad r₃ r₂) t₃ = .next t₄ ∧
      t₃.readQ r₂ = t₁.readQ r₂ ∧ t₄.readQ r₃ = s.readQ r₁ ∧ t₄.pamb = false) ∧
    ((s.readQ iv).length ≤ s.bs.toNat → r₂ ≠ iv →
      ∃ t₁ t₂ t₃ t₄ : State, exec (.pad r₂ r₁) s = .next t₁ ∧ exec (cbcInstr c false r₂ r₂ iv) t₁ = .next t₂ ∧
        exec (cbcInstr c true r₂ r₂ iv) t₂ = .next t₃ ∧ exec (.unpad r₃ r₂) t₃ = .next t₄ ∧
        t₃.readQ r₂ = t₁.readQ r₂ ∧ t₄.readQ r₃ = s.readQ r₁ ∧ t₄.pamb = false)

/-! ### System commands -/

/-- Rule R210: `nop` changes nothing in any state; its word is exactly 0xE0000000, and a word with its opcode and any
other bit set raises IllegalCommand. -/
def Obligations.NopChangesNothing : Prop :=
  (∀ s : State, exec .nop s = .next s) ∧ (∀ w, decode w = some .nop ↔ w = 0xE0000000) ∧
  ∀ (s : State) (w : Word), s.err = false → w.extractLsb' 26 6 = 0x38 → w ≠ 0xE0000000 →
    s.csrWrite 0x00 w = .next { s with err := true, errcode := 4, errinfo := w }

/-- Rule R211: `clrerr` clears `ERR`, `ERRCODE` and `ERRINFO` in any state, latched or not, and changes nothing else, so
that `irq` falls; it is the one command that executes while an error is latched and, but for reset, the one way out of
that state; its word is exactly 0xE4000000, and a word with its opcode and any other bit set is illegal. -/
def Obligations.ClrerrClearsTheLatch : Prop :=
  (∀ s : State, exec .clrerr s = .next { s with err := false, errcode := 0, errinfo := 0 } ∧
    ∀ t, exec .clrerr s = .next t → t.irq = false) ∧
  (∀ (i : Instr) (s : State), i ≠ .clrerr → s.err = true → exec i s = .next s) ∧
  (∀ s t : State, s.err = true → step s = .next t → t.err = false →
    ∃ rest, s.pending = .write 0x00 4 0xE4000000 :: rest ∨ s.pending = .rst :: rest) ∧
  (∀ w, decode w = some .clrerr ↔ w = 0xE4000000) ∧
  ∀ (s : State) (w : Word), w.extractLsb' 26 6 = 0x39 → w ≠ 0xE4000000 →
    (s.err = false → s.csrWrite 0x00 w = .next { s with err := true, errcode := 4, errinfo := w }) ∧
    (s.err = true → s.csrWrite 0x00 w = .next s)

/-- Rule R212: `mov` copies length and bits and changes nothing else. -/
def Obligations.MovCopiesARegister : Prop :=
  ∀ (rd rs1 : QReg) (s : State), s.err = false →
    exec (.mov rd rs1) s = .next (withQ s rd (s.readQ rs1)) ∧
    encode (.mov rd rs1) &&& 0xFF03FFFF = 0xE8000000
end

