-- ==== Sys2Proof/Laws/Bits.lean ====
section
/-! SUPPORT. What the operations on bit sequences do (rule R12): lengths, values, chunks and padding. -/

namespace Sys2Proof.Machine

/-! ### Division rounded up -/

theorem ceilDiv_spec (len w : Nat) (h : 1 ≤ w) : len ≤ w * ceilDiv len w ∧ w * ceilDiv len w < len + w := by
  unfold ceilDiv
  have h1 := Nat.div_add_mod (len + w - 1) w
  have h2 := Nat.mod_lt (len + w - 1) (show w > 0 by omega)
  omega

theorem ceilDiv_eq (n len w : Nat) (h1 : len ≤ w * n) (h2 : w * n < len + w) : ceilDiv len w = n := by
  have hw : 1 ≤ w := by
    rcases Nat.eq_zero_or_pos w with h | h
    · subst h; omega
    · exact h
  obtain ⟨h3, h4⟩ := ceilDiv_spec len w hw
  have a : ceilDiv len w < n + 1 := by
    apply Nat.lt_of_mul_lt_mul_left (a := w); rw [Nat.mul_add, Nat.mul_one]; omega
  have b : n < ceilDiv len w + 1 := by
    apply Nat.lt_of_mul_lt_mul_left (a := w); rw [Nat.mul_add, Nat.mul_one]; omega
  omega

theorem ceilDiv_mul (n w : Nat) (h : 1 ≤ w) : ceilDiv (w * n) w = n := ceilDiv_eq n _ w (le_refl _) (by omega)

/-! ### Lengths -/

@[simp] theorem zeros_length (n : Nat) : (zeros n).length = n := by simp [zeros]

@[simp] theorem bitsOf_length (n v : Nat) : (bitsOf n v).length = n := by
  induction n with
  | zero => rfl
  | succ n ih => simp [bitsOf, ih]

@[simp] theorem xorBits_length (a b : Bits) : (xorBits a b).length = min a.length b.length := by simp [xorBits]

theorem padR_length (s : Bits) (n : Nat) (h : s.length ≤ n) : (padR s n).length = n := by simp [padR]; omega

theorem padL_length (s : Bits) (n : Nat) (h : s.length ≤ n) : (padL s n).length = n := by simp [padL]; omega

theorem padR_self (s : Bits) : padR s s.length = s := by simp [padR, zeros]

theorem padL_self (s : Bits) : padL s s.length = s := by simp [padL, zeros]

theorem padRMult_length (s : Bits) (w : Nat) (h : 1 ≤ w) : (padRMult s w).length = w * ceilDiv s.length w :=
  padR_length _ _ (ceilDiv_spec _ _ h).1

theorem padRMult_of_dvd (s : Bits) (n w : Nat) (h : 1 ≤ w) (hs : s.length = w * n) : padRMult s w = s := by
  rw [padRMult, hs, ceilDiv_mul n w h, ← hs, padR_self]

theorem slice_length (s : Bits) (i j : Nat) (h : j ≤ s.length) : (slice s i j).length = j - i := by
  simp [slice]; omega

/-! ### Values -/

theorem val_append_bit (s : Bits) (b : Bool) : val (s ++ [b]) = 2 * val s + b.toNat := by simp [val]

theorem val_foldl (s : Bits) (a : Nat) :
    s.foldl (fun acc b => 2 * acc + b.toNat) a = a * 2 ^ s.length + val s := by
  induction s generalizing a with
  | nil => simp [val]
  | cons b s ih =>
    have h0 : val (b :: s) = b.toNat * 2 ^ s.length + val s := by
      rw [val, List.foldl_cons, ih]; simp
    rw [List.foldl_cons, ih, h0, List.length_cons, pow_succ]; ring

theorem val_cons (b : Bool) (s : Bits) : val (b :: s) = b.toNat * 2 ^ s.length + val s := by
  rw [val, List.foldl_cons, val_foldl]; simp

theorem val_append (a b : Bits) : val (a ++ b) = val a * 2 ^ b.length + val b := by
  rw [val, List.foldl_append, val_foldl]; rfl

theorem val_lt (s : Bits) : val s < 2 ^ s.length := by
  induction s with
  | nil => simp [val]
  | cons b s ih =>
    rw [val_cons, List.length_cons, pow_succ]
    cases b <;> simp <;> omega

theorem val_bitsOf_mod (n v : Nat) : val (bitsOf n v) = v % 2 ^ n := by
  induction n with
  | zero => simp [bitsOf, val, Nat.mod_one]
  | succ n ih =>
    rw [bitsOf, val_cons, ih, bitsOf_length, Nat.mod_pow_succ, Nat.testBit_eq_decide_div_mod_eq]
    have := Nat.mod_two_eq_zero_or_one (v / 2 ^ n)
    rcases this with h | h <;> simp [h] ; ring

theorem val_bitsOf (n v : Nat) (h : v < 2 ^ n) : val (bitsOf n v) = v := by
  rw [val_bitsOf_mod, Nat.mod_eq_of_lt h]

theorem val_injective (a b : Bits) (hl : a.length = b.length) (h : val a = val b) : a = b := by
  induction a generalizing b with
  | nil => exact (List.length_eq_zero_iff.mp hl.symm).symm
  | cons x a ih =>
    cases b with
    | nil => simp at hl
    | cons y b =>
      have hl' : a.length = b.length := by simpa using hl
      rw [val_cons, val_cons, hl'] at h
      have ha := val_lt a; have hb := val_lt b; rw [hl'] at ha
      cases x <;> cases y <;> simp at h ⊢
      · exact ih b hl' h
      · omega
      · omega
      · exact ih b hl' h

theorem bitsOf_val (s : Bits) : bitsOf s.length (val s) = s :=
  val_injective _ _ (bitsOf_length _ _) (val_bitsOf _ _ (val_lt s))

/-! ### Exclusive-or -/

theorem xorBits_cancel (a b : Bits) (h : a.length = b.length) : xorBits (xorBits a b) b = a := by
  induction a generalizing b with
  | nil => simp [xorBits]
  | cons x a ih =>
    cases b with
    | nil => simp at h
    | cons y b =>
      have h' : a.length = b.length := by simpa using h
      have := ih b h'
      simp only [xorBits, List.zipWith_cons_cons] at this ⊢
      rw [this]; cases x <;> cases y <;> rfl

/-! ### Chunks -/

@[simp] theorem chunksN_length (w n : Nat) (s : Bits) : (chunksN w n s).length = n := by
  induction n generalizing s with
  | zero => rfl
  | succ n ih => simp [chunksN, ih]

theorem mem_chunksN_length (w n : Nat) (s : Bits) (h : s.length = w * n) :
    ∀ c ∈ chunksN w n s, c.length = w := by
  induction n generalizing s with
  | zero => simp [chunksN]
  | succ n ih =>
    have h' : s.length = w * n + w := by rw [h, Nat.mul_add, Nat.mul_one]
    intro c hc
    rcases List.mem_cons.mp hc with rfl | hc
    · simp; omega
    · exact ih (s.drop w) (by simp; omega) c hc

theorem chunksN_flatten (w n : Nat) (s : Bits) (h : s.length = w * n) : (chunksN w n s).flatten = s := by
  induction n generalizing s with
  | zero => simpa [chunksN] using h
  | succ n ih =>
    have h' : s.length = w * n + w := by rw [h, Nat.mul_add, Nat.mul_one]
    rw [chunksN, List.flatten_cons, ih (s.drop w) (by simp; omega), List.take_append_drop]

theorem chunks_eq (s : Bits) (n w : Nat) (h : 1 ≤ w) (hs : s.length = w * n) : chunks s w = chunksN w n s := by
  rw [chunks, hs, Nat.mul_div_cancel_left n (by omega)]

theorem chunks_flatten (s : Bits) (n w : Nat) (h : 1 ≤ w) (hs : s.length = w * n) : (chunks s w).flatten = s := by
  rw [chunks_eq s n w h hs, chunksN_flatten w n s hs]

theorem chunks_length (s : Bits) (n w : Nat) (h : 1 ≤ w) (hs : s.length = w * n) : (chunks s w).length = n := by
  rw [chunks_eq s n w h hs, chunksN_length]

theorem mem_chunks_length (s : Bits) (n w : Nat) (h : 1 ≤ w) (hs : s.length = w * n) :
    ∀ c ∈ chunks s w, c.length = w := by
  rw [chunks_eq s n w h hs]; exact mem_chunksN_length w n s hs

/-- Joining pieces of w bits and cutting the whole into chunks of w bits gives the pieces back. -/
theorem chunksN_of_flatten (w : Nat) (l : List Bits) (h : ∀ c ∈ l, c.length = w) :
    chunksN w l.length l.flatten = l := by
  induction l with
  | nil => rfl
  | cons c l ih =>
    have hc : c.length = w := h c (by simp)
    simp only [List.length_cons, chunksN, List.flatten_cons]
    rw [List.take_append_of_le_length (by omega), List.drop_append_of_le_length (by omega), ← hc, List.take_length,
      List.drop_length, List.nil_append, hc, ih fun c hc => h c (by simp [hc])]

theorem flatten_length (w : Nat) (l : List Bits) (h : ∀ c ∈ l, c.length = w) : l.flatten.length = w * l.length := by
  induction l with
  | nil => simp
  | cons c l ih =>
    rw [List.flatten_cons, List.length_append, ih fun c hc => h c (by simp [hc]), h c (by simp), List.length_cons,
      Nat.mul_add, Nat.mul_one, Nat.add_comm]

theorem chunks_of_flatten (w : Nat) (l : List Bits) (hw : 1 ≤ w) (h : ∀ c ∈ l, c.length = w) :
    chunks l.flatten w = l := by
  rw [chunks_eq _ l.length w hw (flatten_length w l h), chunksN_of_flatten w l h]

/-- A map over chunks that keeps their length, and a second one that undoes it on each chunk, undo each other on the
whole sequence. -/
theorem flatMap_chunks_undo (w n : Nat) (s : Bits) (f g : Bits → Bits) (hw : 1 ≤ w) (hs : s.length = w * n)
    (hf : ∀ c, c.length = w → (f c).length = w) (hg : ∀ c, c.length = w → g (f c) = c) :
    (chunks ((chunks s w).flatMap f) w).flatMap g = s := by
  have hm := mem_chunks_length s n w hw hs
  have hl : ∀ c ∈ (chunks s w).map f, c.length = w := by
    intro c hc
    obtain ⟨d, hd, rfl⟩ := List.mem_map.mp hc
    exact hf d (hm d hd)
  rw [List.flatMap_def (f := f), chunks_of_flatten w _ hw hl, List.flatMap_map, List.flatMap_def]
  have : (chunks s w).map (fun c => g (f c)) = chunks s w := by
    rw [List.map_congr_left (g := id) fun c hc => hg c (hm c hc), List.map_id]
  rw [this, chunks_flatten s n w hw hs]

theorem flatMap_chunks_length (w n : Nat) (s : Bits) (f : Bits → Bits) (hw : 1 ≤ w) (hs : s.length = w * n)
    (hf : ∀ c, c.length = w → (f c).length = w) : ((chunks s w).flatMap f).length = w * n := by
  have hm := mem_chunks_length s n w hw hs
  rw [List.flatMap_def, flatten_length w, List.length_map, chunks_length s n w hw hs]
  intro c hc
  obtain ⟨d, hd, rfl⟩ := List.mem_map.mp hc
  exact hf d (hm d hd)

end Sys2Proof.Machine
end

