-- ==== Sys2Proof/Laws/State.lean ====
section
/-! SUPPORT. What each update of the state does to each field: one lemma per field per update, so that no proof unfolds a
record update. -/

namespace Sys2Proof.Machine

/-! ### `State.writeQ` -/

@[simp] theorem State.writeQ_q (s : State) (r : QReg) (b : Bits) : (s.writeQ r b).q = s.q.set r b := rfl
@[simp] theorem State.writeQ_rk (s : State) (r : QReg) (b : Bits) : (s.writeQ r b).rk = s.rk := rfl
@[simp] theorem State.writeQ_rkn (s : State) (r : QReg) (b : Bits) : (s.writeQ r b).rkn = s.rkn := rfl
@[simp] theorem State.writeQ_rkw (s : State) (r : QReg) (b : Bits) : (s.writeQ r b).rkw = s.rkw := rfl
@[simp] theorem State.writeQ_rkv (s : State) (r : QReg) (b : Bits) : (s.writeQ r b).rkv = s.rkv := rfl
@[simp] theorem State.writeQ_seed (s : State) (r : QReg) (b : Bits) : (s.writeQ r b).seed = s.seed := rfl
@[simp] theorem State.writeQ_ptab (s : State) (r : QReg) (b : Bits) : (s.writeQ r b).ptab = s.ptab := rfl
@[simp] theorem State.writeQ_pw (s : State) (r : QReg) (b : Bits) : (s.writeQ r b).pw = s.pw := rfl
@[simp] theorem State.writeQ_pstg (s : State) (r : QReg) (b : Bits) : (s.writeQ r b).pstg = s.pstg := rfl
@[simp] theorem State.writeQ_pws (s : State) (r : QReg) (b : Bits) : (s.writeQ r b).pws = s.pws := rfl
@[simp] theorem State.writeQ_nr (s : State) (r : QReg) (b : Bits) : (s.writeQ r b).nr = s.nr := rfl
@[simp] theorem State.writeQ_rks (s : State) (r : QReg) (b : Bits) : (s.writeQ r b).rks = s.rks := rfl
@[simp] theorem State.writeQ_bs (s : State) (r : QReg) (b : Bits) : (s.writeQ r b).bs = s.bs := rfl
@[simp] theorem State.writeQ_err (s : State) (r : QReg) (b : Bits) : (s.writeQ r b).err = s.err := rfl
@[simp] theorem State.writeQ_pamb (s : State) (r : QReg) (b : Bits) : (s.writeQ r b).pamb = s.pamb := rfl
@[simp] theorem State.writeQ_fmt (s : State) (r : QReg) (b : Bits) : (s.writeQ r b).fmt = s.fmt := rfl
@[simp] theorem State.writeQ_errcode (s : State) (r : QReg) (b : Bits) : (s.writeQ r b).errcode = s.errcode := rfl
@[simp] theorem State.writeQ_errinfo (s : State) (r : QReg) (b : Bits) : (s.writeQ r b).errinfo = s.errinfo := rfl
@[simp] theorem State.writeQ_errie (s : State) (r : QReg) (b : Bits) : (s.writeQ r b).errie = s.errie := rfl
@[simp] theorem State.writeQ_qsel (s : State) (r : QReg) (b : Bits) : (s.writeQ r b).qsel = s.qsel := rfl
@[simp] theorem State.writeQ_qptr (s : State) (r : QReg) (b : Bits) : (s.writeQ r b).qptr = s.qptr := rfl
@[simp] theorem State.writeQ_pidx (s : State) (r : QReg) (b : Bits) : (s.writeQ r b).pidx = s.pidx := rfl
@[simp] theorem State.writeQ_sbox (s : State) (r : QReg) (b : Bits) : (s.writeQ r b).sbox = s.sbox := rfl
@[simp] theorem State.writeQ_pbox16 (s : State) (r : QReg) (b : Bits) : (s.writeQ r b).pbox16 = s.pbox16 := rfl
@[simp] theorem State.writeQ_pending (s : State) (r : QReg) (b : Bits) : (s.writeQ r b).pending = s.pending := rfl
@[simp] theorem State.writeQ_replies (s : State) (r : QReg) (b : Bits) : (s.writeQ r b).replies = s.replies := rfl

/-! ### `State.setPamb` -/

@[simp] theorem State.setPamb_q (s : State) (v : Bool) : (s.setPamb v).q = s.q := rfl
@[simp] theorem State.setPamb_rk (s : State) (v : Bool) : (s.setPamb v).rk = s.rk := rfl
@[simp] theorem State.setPamb_rkn (s : State) (v : Bool) : (s.setPamb v).rkn = s.rkn := rfl
@[simp] theorem State.setPamb_rkw (s : State) (v : Bool) : (s.setPamb v).rkw = s.rkw := rfl
@[simp] theorem State.setPamb_rkv (s : State) (v : Bool) : (s.setPamb v).rkv = s.rkv := rfl
@[simp] theorem State.setPamb_seed (s : State) (v : Bool) : (s.setPamb v).seed = s.seed := rfl
@[simp] theorem State.setPamb_ptab (s : State) (v : Bool) : (s.setPamb v).ptab = s.ptab := rfl
@[simp] theorem State.setPamb_pw (s : State) (v : Bool) : (s.setPamb v).pw = s.pw := rfl
@[simp] theorem State.setPamb_pstg (s : State) (v : Bool) : (s.setPamb v).pstg = s.pstg := rfl
@[simp] theorem State.setPamb_pws (s : State) (v : Bool) : (s.setPamb v).pws = s.pws := rfl
@[simp] theorem State.setPamb_nr (s : State) (v : Bool) : (s.setPamb v).nr = s.nr := rfl
@[simp] theorem State.setPamb_rks (s : State) (v : Bool) : (s.setPamb v).rks = s.rks := rfl
@[simp] theorem State.setPamb_bs (s : State) (v : Bool) : (s.setPamb v).bs = s.bs := rfl
@[simp] theorem State.setPamb_err (s : State) (v : Bool) : (s.setPamb v).err = s.err := rfl
@[simp] theorem State.setPamb_pamb (s : State) (v : Bool) : (s.setPamb v).pamb = v := rfl
@[simp] theorem State.setPamb_fmt (s : State) (v : Bool) : (s.setPamb v).fmt = s.fmt := rfl
@[simp] theorem State.setPamb_errcode (s : State) (v : Bool) : (s.setPamb v).errcode = s.errcode := rfl
@[simp] theorem State.setPamb_errinfo (s : State) (v : Bool) : (s.setPamb v).errinfo = s.errinfo := rfl
@[simp] theorem State.setPamb_errie (s : State) (v : Bool) : (s.setPamb v).errie = s.errie := rfl
@[simp] theorem State.setPamb_qsel (s : State) (v : Bool) : (s.setPamb v).qsel = s.qsel := rfl
@[simp] theorem State.setPamb_qptr (s : State) (v : Bool) : (s.setPamb v).qptr = s.qptr := rfl
@[simp] theorem State.setPamb_pidx (s : State) (v : Bool) : (s.setPamb v).pidx = s.pidx := rfl
@[simp] theorem State.setPamb_sbox (s : State) (v : Bool) : (s.setPamb v).sbox = s.sbox := rfl
@[simp] theorem State.setPamb_pbox16 (s : State) (v : Bool) : (s.setPamb v).pbox16 = s.pbox16 := rfl
@[simp] theorem State.setPamb_pending (s : State) (v : Bool) : (s.setPamb v).pending = s.pending := rfl
@[simp] theorem State.setPamb_replies (s : State) (v : Bool) : (s.setPamb v).replies = s.replies := rfl

/-! ### `State.setFmt` -/

@[simp] theorem State.setFmt_q (s : State) (rule : Nat) : (s.setFmt rule).q = s.q := rfl
@[simp] theorem State.setFmt_rk (s : State) (rule : Nat) : (s.setFmt rule).rk = s.rk := rfl
@[simp] theorem State.setFmt_rkn (s : State) (rule : Nat) : (s.setFmt rule).rkn = s.rkn := rfl
@[simp] theorem State.setFmt_rkw (s : State) (rule : Nat) : (s.setFmt rule).rkw = s.rkw := rfl
@[simp] theorem State.setFmt_rkv (s : State) (rule : Nat) : (s.setFmt rule).rkv = s.rkv := rfl
@[simp] theorem State.setFmt_seed (s : State) (rule : Nat) : (s.setFmt rule).seed = s.seed := rfl
@[simp] theorem State.setFmt_ptab (s : State) (rule : Nat) : (s.setFmt rule).ptab = s.ptab := rfl
@[simp] theorem State.setFmt_pw (s : State) (rule : Nat) : (s.setFmt rule).pw = s.pw := rfl
@[simp] theorem State.setFmt_pstg (s : State) (rule : Nat) : (s.setFmt rule).pstg = s.pstg := rfl
@[simp] theorem State.setFmt_pws (s : State) (rule : Nat) : (s.setFmt rule).pws = s.pws := rfl
@[simp] theorem State.setFmt_nr (s : State) (rule : Nat) : (s.setFmt rule).nr = s.nr := rfl
@[simp] theorem State.setFmt_rks (s : State) (rule : Nat) : (s.setFmt rule).rks = s.rks := rfl
@[simp] theorem State.setFmt_bs (s : State) (rule : Nat) : (s.setFmt rule).bs = s.bs := rfl
@[simp] theorem State.setFmt_err (s : State) (rule : Nat) : (s.setFmt rule).err = s.err := rfl
@[simp] theorem State.setFmt_pamb (s : State) (rule : Nat) : (s.setFmt rule).pamb = s.pamb := rfl
@[simp] theorem State.setFmt_fmt (s : State) (rule : Nat) : (s.setFmt rule).fmt = BitVec.ofNat 2 (rule - 1) := rfl
@[simp] theorem State.setFmt_errcode (s : State) (rule : Nat) : (s.setFmt rule).errcode = s.errcode := rfl
@[simp] theorem State.setFmt_errinfo (s : State) (rule : Nat) : (s.setFmt rule).errinfo = s.errinfo := rfl
@[simp] theorem State.setFmt_errie (s : State) (rule : Nat) : (s.setFmt rule).errie = s.errie := rfl
@[simp] theorem State.setFmt_qsel (s : State) (rule : Nat) : (s.setFmt rule).qsel = s.qsel := rfl
@[simp] theorem State.setFmt_qptr (s : State) (rule : Nat) : (s.setFmt rule).qptr = s.qptr := rfl
@[simp] theorem State.setFmt_pidx (s : State) (rule : Nat) : (s.setFmt rule).pidx = s.pidx := rfl
@[simp] theorem State.setFmt_sbox (s : State) (rule : Nat) : (s.setFmt rule).sbox = s.sbox := rfl
@[simp] theorem State.setFmt_pbox16 (s : State) (rule : Nat) : (s.setFmt rule).pbox16 = s.pbox16 := rfl
@[simp] theorem State.setFmt_pending (s : State) (rule : Nat) : (s.setFmt rule).pending = s.pending := rfl
@[simp] theorem State.setFmt_replies (s : State) (rule : Nat) : (s.setFmt rule).replies = s.replies := rfl

/-! ### `State.raise` -/

@[simp] theorem State.raise_q (s : State) (e : CmdError) (w : Word) : (s.raise e w).q = s.q := rfl
@[simp] theorem State.raise_rk (s : State) (e : CmdError) (w : Word) : (s.raise e w).rk = s.rk := rfl
@[simp] theorem State.raise_rkn (s : State) (e : CmdError) (w : Word) : (s.raise e w).rkn = s.rkn := rfl
@[simp] theorem State.raise_rkw (s : State) (e : CmdError) (w : Word) : (s.raise e w).rkw = s.rkw := rfl
@[simp] theorem State.raise_rkv (s : State) (e : CmdError) (w : Word) : (s.raise e w).rkv = s.rkv := rfl
@[simp] theorem State.raise_seed (s : State) (e : CmdError) (w : Word) : (s.raise e w).seed = s.seed := rfl
@[simp] theorem State.raise_ptab (s : State) (e : CmdError) (w : Word) : (s.raise e w).ptab = s.ptab := rfl
@[simp] theorem State.raise_pw (s : State) (e : CmdError) (w : Word) : (s.raise e w).pw = s.pw := rfl
@[simp] theorem State.raise_pstg (s : State) (e : CmdError) (w : Word) : (s.raise e w).pstg = s.pstg := rfl
@[simp] theorem State.raise_pws (s : State) (e : CmdError) (w : Word) : (s.raise e w).pws = s.pws := rfl
@[simp] theorem State.raise_nr (s : State) (e : CmdError) (w : Word) : (s.raise e w).nr = s.nr := rfl
@[simp] theorem State.raise_rks (s : State) (e : CmdError) (w : Word) : (s.raise e w).rks = s.rks := rfl
@[simp] theorem State.raise_bs (s : State) (e : CmdError) (w : Word) : (s.raise e w).bs = s.bs := rfl
@[simp] theorem State.raise_err (s : State) (e : CmdError) (w : Word) : (s.raise e w).err = true := rfl
@[simp] theorem State.raise_pamb (s : State) (e : CmdError) (w : Word) : (s.raise e w).pamb = s.pamb := rfl
@[simp] theorem State.raise_fmt (s : State) (e : CmdError) (w : Word) : (s.raise e w).fmt = s.fmt := rfl
@[simp] theorem State.raise_errcode (s : State) (e : CmdError) (w : Word) : (s.raise e w).errcode = errorCode e := rfl
@[simp] theorem State.raise_errinfo (s : State) (e : CmdError) (w : Word) : (s.raise e w).errinfo = w := rfl
@[simp] theorem State.raise_errie (s : State) (e : CmdError) (w : Word) : (s.raise e w).errie = s.errie := rfl
@[simp] theorem State.raise_qsel (s : State) (e : CmdError) (w : Word) : (s.raise e w).qsel = s.qsel := rfl
@[simp] theorem State.raise_qptr (s : State) (e : CmdError) (w : Word) : (s.raise e w).qptr = s.qptr := rfl
@[simp] theorem State.raise_pidx (s : State) (e : CmdError) (w : Word) : (s.raise e w).pidx = s.pidx := rfl
@[simp] theorem State.raise_sbox (s : State) (e : CmdError) (w : Word) : (s.raise e w).sbox = s.sbox := rfl
@[simp] theorem State.raise_pbox16 (s : State) (e : CmdError) (w : Word) : (s.raise e w).pbox16 = s.pbox16 := rfl
@[simp] theorem State.raise_pending (s : State) (e : CmdError) (w : Word) : (s.raise e w).pending = s.pending := rfl
@[simp] theorem State.raise_replies (s : State) (e : CmdError) (w : Word) : (s.raise e w).replies = s.replies := rfl

/-! ### `State.clearLatch` -/

@[simp] theorem State.clearLatch_q (s : State) : (s.clearLatch).q = s.q := rfl
@[simp] theorem State.clearLatch_rk (s : State) : (s.clearLatch).rk = s.rk := rfl
@[simp] theorem State.clearLatch_rkn (s : State) : (s.clearLatch).rkn = s.rkn := rfl
@[simp] theorem State.clearLatch_rkw (s : State) : (s.clearLatch).rkw = s.rkw := rfl
@[simp] theorem State.clearLatch_rkv (s : State) : (s.clearLatch).rkv = s.rkv := rfl
@[simp] theorem State.clearLatch_seed (s : State) : (s.clearLatch).seed = s.seed := rfl
@[simp] theorem State.clearLatch_ptab (s : State) : (s.clearLatch).ptab = s.ptab := rfl
@[simp] theorem State.clearLatch_pw (s : State) : (s.clearLatch).pw = s.pw := rfl
@[simp] theorem State.clearLatch_pstg (s : State) : (s.clearLatch).pstg = s.pstg := rfl
@[simp] theorem State.clearLatch_pws (s : State) : (s.clearLatch).pws = s.pws := rfl
@[simp] theorem State.clearLatch_nr (s : State) : (s.clearLatch).nr = s.nr := rfl
@[simp] theorem State.clearLatch_rks (s : State) : (s.clearLatch).rks = s.rks := rfl
@[simp] theorem State.clearLatch_bs (s : State) : (s.clearLatch).bs = s.bs := rfl
@[simp] theorem State.clearLatch_err (s : State) : (s.clearLatch).err = false := rfl
@[simp] theorem State.clearLatch_pamb (s : State) : (s.clearLatch).pamb = s.pamb := rfl
@[simp] theorem State.clearLatch_fmt (s : State) : (s.clearLatch).fmt = s.fmt := rfl
@[simp] theorem State.clearLatch_errcode (s : State) : (s.clearLatch).errcode = 0 := rfl
@[simp] theorem State.clearLatch_errinfo (s : State) : (s.clearLatch).errinfo = 0 := rfl
@[simp] theorem State.clearLatch_errie (s : State) : (s.clearLatch).errie = s.errie := rfl
@[simp] theorem State.clearLatch_qsel (s : State) : (s.clearLatch).qsel = s.qsel := rfl
@[simp] theorem State.clearLatch_qptr (s : State) : (s.clearLatch).qptr = s.qptr := rfl
@[simp] theorem State.clearLatch_pidx (s : State) : (s.clearLatch).pidx = s.pidx := rfl
@[simp] theorem State.clearLatch_sbox (s : State) : (s.clearLatch).sbox = s.sbox := rfl
@[simp] theorem State.clearLatch_pbox16 (s : State) : (s.clearLatch).pbox16 = s.pbox16 := rfl
@[simp] theorem State.clearLatch_pending (s : State) : (s.clearLatch).pending = s.pending := rfl
@[simp] theorem State.clearLatch_replies (s : State) : (s.clearLatch).replies = s.replies := rfl

/-! ### `State.installSchedule` -/

@[simp] theorem State.installSchedule_q (s : State) (keys : List Bits) (sd : Nat) : (s.installSchedule keys sd).q = s.q := rfl
@[simp] theorem State.installSchedule_rk (s : State) (keys : List Bits) (sd : Nat) : (s.installSchedule keys sd).rk = keys := rfl
@[simp] theorem State.installSchedule_rkn (s : State) (keys : List Bits) (sd : Nat) : (s.installSchedule keys sd).rkn = s.nr := rfl
@[simp] theorem State.installSchedule_rkw (s : State) (keys : List Bits) (sd : Nat) : (s.installSchedule keys sd).rkw = s.rks := rfl
@[simp] theorem State.installSchedule_rkv (s : State) (keys : List Bits) (sd : Nat) : (s.installSchedule keys sd).rkv = true := rfl
@[simp] theorem State.installSchedule_seed (s : State) (keys : List Bits) (sd : Nat) : (s.installSchedule keys sd).seed = BitVec.ofNat 32 sd := rfl
@[simp] theorem State.installSchedule_ptab (s : State) (keys : List Bits) (sd : Nat) : (s.installSchedule keys sd).ptab = s.ptab := rfl
@[simp] theorem State.installSchedule_pw (s : State) (keys : List Bits) (sd : Nat) : (s.installSchedule keys sd).pw = s.pw := rfl
@[simp] theorem State.installSchedule_pstg (s : State) (keys : List Bits) (sd : Nat) : (s.installSchedule keys sd).pstg = s.pstg := rfl
@[simp] theorem State.installSchedule_pws (s : State) (keys : List Bits) (sd : Nat) : (s.installSchedule keys sd).pws = s.pws := rfl
@[simp] theorem State.installSchedule_nr (s : State) (keys : List Bits) (sd : Nat) : (s.installSchedule keys sd).nr = s.nr := rfl
@[simp] theorem State.installSchedule_rks (s : State) (keys : List Bits) (sd : Nat) : (s.installSchedule keys sd).rks = s.rks := rfl
@[simp] theorem State.installSchedule_bs (s : State) (keys : List Bits) (sd : Nat) : (s.installSchedule keys sd).bs = s.bs := rfl
@[simp] theorem State.installSchedule_err (s : State) (keys : List Bits) (sd : Nat) : (s.installSchedule keys sd).err = s.err := rfl
@[simp] theorem State.installSchedule_pamb (s : State) (keys : List Bits) (sd : Nat) : (s.installSchedule keys sd).pamb = s.pamb := rfl
@[simp] theorem State.installSchedule_fmt (s : State) (keys : List Bits) (sd : Nat) : (s.installSchedule keys sd).fmt = s.fmt := rfl
@[simp] theorem State.installSchedule_errcode (s : State) (keys : List Bits) (sd : Nat) : (s.installSchedule keys sd).errcode = s.errcode := rfl
@[simp] theorem State.installSchedule_errinfo (s : State) (keys : List Bits) (sd : Nat) : (s.installSchedule keys sd).errinfo = s.errinfo := rfl
@[simp] theorem State.installSchedule_errie (s : State) (keys : List Bits) (sd : Nat) : (s.installSchedule keys sd).errie = s.errie := rfl
@[simp] theorem State.installSchedule_qsel (s : State) (keys : List Bits) (sd : Nat) : (s.installSchedule keys sd).qsel = s.qsel := rfl
@[simp] theorem State.installSchedule_qptr (s : State) (keys : List Bits) (sd : Nat) : (s.installSchedule keys sd).qptr = s.qptr := rfl
@[simp] theorem State.installSchedule_pidx (s : State) (keys : List Bits) (sd : Nat) : (s.installSchedule keys sd).pidx = s.pidx := rfl
@[simp] theorem State.installSchedule_sbox (s : State) (keys : List Bits) (sd : Nat) : (s.installSchedule keys sd).sbox = s.sbox := rfl
@[simp] theorem State.installSchedule_pbox16 (s : State) (keys : List Bits) (sd : Nat) : (s.installSchedule keys sd).pbox16 = s.pbox16 := rfl
@[simp] theorem State.installSchedule_pending (s : State) (keys : List Bits) (sd : Nat) : (s.installSchedule keys sd).pending = s.pending := rfl
@[simp] theorem State.installSchedule_replies (s : State) (keys : List Bits) (sd : Nat) : (s.installSchedule keys sd).replies = s.replies := rfl

/-! ### Registers and functions of the state -/

@[simp] theorem State.readQ_writeQ_same (s : State) (r : QReg) (b : Bits) : (s.writeQ r b).readQ r = b := by
  simp [State.readQ]

theorem State.readQ_writeQ_other (s : State) (r r' : QReg) (b : Bits) (h : r' ≠ r) :
    (s.writeQ r b).readQ r' = s.readQ r' := by
  have : r.val ≠ r'.val := fun e => h (Fin.ext e.symm)
  simp [State.readQ, State.writeQ, this]

theorem State.readQ_writeQ (s : State) (r r' : QReg) (b : Bits) :
    (s.writeQ r b).readQ r' = if r' = r then b else s.readQ r' := by
  split
  · next h => subst h; simp
  · next h => exact s.readQ_writeQ_other r r' b h

@[simp] theorem State.activeTable_writeQ (s : State) (r : QReg) (b : Bits) :
    (s.writeQ r b).activeTable = s.activeTable := rfl

@[simp] theorem State.roundKeys_writeQ (s : State) (r : QReg) (b : Bits) :
    (s.writeQ r b).roundKeys = s.roundKeys := rfl

@[simp] theorem State.roundKey_writeQ (s : State) (r : QReg) (b : Bits) (i : Nat) :
    (s.writeQ r b).roundKey i = s.roundKey i := rfl

@[simp] theorem State.readQ_setPamb (s : State) (v : Bool) (r : QReg) : (s.setPamb v).readQ r = s.readQ r := rfl

@[simp] theorem State.readQ_setFmt (s : State) (n : Nat) (r : QReg) : (s.setFmt n).readQ r = s.readQ r := rfl

@[simp] theorem State.readQ_raise (s : State) (e : CmdError) (w : Word) (r : QReg) :
    (s.raise e w).readQ r = s.readQ r := rfl

end Sys2Proof.Machine
end

