-- ==== Sys2Proof/Laws/Ops.lean ====
section
/-! SUPPORT. What the shared operations can do, said once: running a command behind the latch, the checks of the two
engines and of the chaining modes, one host access and one step. -/

namespace Sys2Proof.Machine

/-! ### Running a command -/

theorem State.command_latched (s : State) (i : Instr) (body : Except CmdError State) (h : s.err = true) :
    s.command i body = .next s := by simp [State.command, State.unlessLatched, h]

theorem State.command_ok (s t : State) (i : Instr) (body : Except CmdError State) (h : s.err = false)
    (hb : body = .ok t) : s.command i body = .next t := by simp [State.command, State.unlessLatched, h, hb]

theorem State.command_error (s : State) (i : Instr) (e : CmdError) (body : Except CmdError State) (h : s.err = false)
    (hb : body = .error e) : s.command i body = .next (s.raise e (encode i)) := by
  simp [State.command, State.unlessLatched, h, hb]

/-- Everything `State.command` can do: drop the command, run its body, or raise the body's error. -/
theorem State.command_cases (s t : State) (i : Instr) (body : Except CmdError State)
    (h : s.command i body = .next t) :
    (s.err = true ∧ t = s) ∨ (s.err = false ∧ body = .ok t) ∨
    (s.err = false ∧ ∃ e, body = .error e ∧ t = s.raise e (encode i)) := by
  rcases hs : s.err with _ | _
  · rcases hb : body with e | u
    · rw [State.command_error s i e body hs hb] at h
      exact .inr (.inr ⟨rfl, e, rfl, (Host.Outcome.next.inj h).symm⟩)
    · rw [State.command_ok s u i body hs hb] at h
      exact .inr (.inl ⟨rfl, by rw [Host.Outcome.next.inj h]⟩)
  · rw [State.command_latched s i body hs] at h
    exact .inl ⟨rfl, (Host.Outcome.next.inj h).symm⟩

/-- A command's body always leads to a next state. -/
theorem State.command_next (s : State) (i : Instr) (body : Except CmdError State) :
    ∃ t, s.command i body = .next t := ⟨_, rfl⟩

theorem errorCode_ne_zero (e : CmdError) : errorCode e ≠ 0 := by cases e <;> decide

@[simp] theorem fitsQ_iff (n : Nat) : fitsQ n = true ↔ n ≤ 65536 := by simp [fitsQ]

/-! ### The checks of the engines -/

theorem State.badFeistelBlock_eq_false (s : State) :
    s.badFeistelBlock = false ↔ 2 ≤ s.bs.toNat ∧ s.bs.toNat % 2 = 0 ∧ s.bs.toNat ≤ 65536 := by
  simp [State.badFeistelBlock, and_assoc]; omega

theorem State.feistelWidthsFit_iff (s : State) :
    s.feistelWidthsFit = true ↔
      s.rkw.toNat = s.bs.toNat / 2 ∧ s.bs.toNat / 2 % 4 = 0 ∧ s.bs.toNat / 2 % s.pw.toNat = 0 := by
  simp [State.feistelWidthsFit, State.halfBlock, and_assoc]

/-- `feistel_checks` finds nothing exactly when its three conditions hold. -/
theorem State.feistelChecks_eq_none (s : State) (nk : Nat) :
    s.feistelChecks nk = none ↔
      s.badFeistelBlock = false ∧ s.rkv = true ∧ (0 < nk → s.feistelWidthsFit = true) := by
  unfold State.feistelChecks
  cases s.badFeistelBlock <;> cases s.rkv <;> cases s.feistelWidthsFit <;> simp

theorem State.spnWidthsBad_eq_false (s : State) :
    s.spnWidthsBad = false ↔ s.rkw.toNat % 4 = 0 ∧ s.rkw.toNat % s.pw.toNat = 0 := by
  simp [State.spnWidthsBad]

/-- `spn_checks` finds nothing exactly when its two conditions hold. -/
theorem State.spnChecks_eq_none (s : State) (nk : Nat) :
    s.spnChecks nk = none ↔ s.rkv = true ∧ (0 < nk → s.spnWidthsBad = false) := by
  unfold State.spnChecks
  cases s.rkv <;> cases s.spnWidthsBad <;> simp

theorem State.chainChecks_spn_eq_none (s : State) :
    s.chainChecks .spn = none ↔
      (1 ≤ s.bs.toNat ∧ s.bs.toNat ≤ 65536) ∧ s.spnChecks s.rkn.toNat = none ∧ s.bs.toNat % s.rkw.toNat = 0 := by
  simp only [State.chainChecks, Config.qMax]
  by_cases h : s.bs.toNat < 1 ∨ 65536 < s.bs.toNat
  · simp only [h, if_true]; constructor
    · intro h'; cases h'
    · rintro ⟨h', -, -⟩; omega
  · have h1 : 1 ≤ s.bs.toNat ∧ s.bs.toNat ≤ 65536 := by omega
    simp only [h, if_false, h1, true_and]
    cases s.spnChecks s.rkn.toNat <;> simp

theorem State.keyMissing_eq_false (s : State) (imm : Nat) :
    s.keyMissing imm = false ↔ s.rkv = true ∧ imm < s.rkn.toNat := by
  simp [State.keyMissing]

/-! ### A host access and a step -/

/-- Every command answers a next state. -/
theorem exec_next (i : Instr) (s : State) : ∃ t, exec i s = .next t := by
  cases i <;> exact ⟨_, rfl⟩

/-- A word written to `CMD` leads to a next state, legal or not. -/
theorem State.commandWord_next (s : State) (w : Word) : ∃ t, s.commandWord w = .next t := by
  unfold State.commandWord
  split
  · exact exec_next _ _
  · exact ⟨_, rfl⟩

/-- Everything a write to an offset of the register space can do: run a command word, store, or nothing. -/
theorem State.csrWrite_cases (s t : State) (a : Nat) (v : Word) (h : s.csrWrite a v = .next t) :
    (csrOf a = some .cmd ∧ s.commandWord v = .next t) ∨
    (∃ r, r ≠ .cmd ∧ csrOf a = some r ∧ t = s.storeCsr v r) ∨ (csrOf a = none ∧ t = s) := by
  unfold State.csrWrite at h
  split at h
  · next hc => exact .inl ⟨hc, h⟩
  · next r hr hc => exact .inr (.inl ⟨r, fun e => hr e, hc, (Host.Outcome.next.inj h).symm⟩)
  · next hc => exact .inr (.inr ⟨hc, (Host.Outcome.next.inj h).symm⟩)

theorem State.csrWrite_next (s : State) (a : Nat) (v : Word) : ∃ t, s.csrWrite a v = .next t := by
  unfold State.csrWrite
  split
  · exact s.commandWord_next v
  · exact ⟨_, rfl⟩
  · exact ⟨_, rfl⟩

theorem accessRefusal_eq_none (addr bytes : Nat) :
    accessRefusal addr bytes = none ↔ bytes = 4 ∧ addr ≤ 0xFF ∧ addr % 4 = 0 := by
  unfold accessRefusal
  split_ifs <;> simp <;> omega

/-- Everything a step can do when it answers a next state: idle, hand the host a word, serve a write, or reset. -/
theorem step_cases (s t : State) (h : step s = .next t) :
    (s.pending = [] ∧ t = s) ∨
    ∃ e rest, s.pending = e :: rest ∧
      ((∃ addr bytes, e = .read addr bytes ∧ accessRefusal addr bytes = none ∧
          t = { s with pending := rest, replies := s.replies ++ [{ s with pending := rest }.csrRead addr] }) ∨
        (∃ addr bytes v, e = .write addr bytes v ∧ accessRefusal addr bytes = none ∧
          { s with pending := rest }.csrWrite addr v = .next t) ∨
        (e = .rst ∧ t = { s with pending := rest }.afterRst)) := by
  unfold step State.serveNext at h
  split at h
  · next hp => exact .inl ⟨hp, (Host.Outcome.next.inj h).symm⟩
  · next e rest hp =>
    refine .inr ⟨e, rest, hp, ?_⟩
    cases e with
    | read addr bytes =>
      simp only [State.serve] at h
      split at h
      · cases h
      · next ha => exact .inl ⟨addr, bytes, rfl, ha, (Host.Outcome.next.inj h).symm⟩
    | write addr bytes v =>
      simp only [State.serve] at h
      split at h
      · cases h
      · next ha => exact .inr (.inl ⟨addr, bytes, v, rfl, ha, h⟩)
    | rst => exact .inr (.inr ⟨rfl, (Host.Outcome.next.inj h).symm⟩)

end Sys2Proof.Machine
end

