-- ==== Sys2Proof/Laws/PerInstr.lean ====
section
/-! SUPPORT. A family of one lemma per command: the command's word carries the opcode of the row of the opcode table that
has the command's name (rules R91 and R94). -/

namespace Sys2Proof.Laws

/-- The byte `op`,`var` of a word put together from its fields is the one it was given (rule R91). -/
theorem field_wordOf (opVar : Nat) (rd rs1 rs2 : QReg) (imm : Nat) (h : opVar < 256) :
    field (wordOf opVar rd rs1 rs2 imm) 31 24 = opVar := by
  have h1 := rd.isLt
  have h2 := rs1.isLt
  have h3 := rs2.isLt
  simp only [field, wordOf, BitVec.toNat_ofNat]
  omega

/-- The command's word carries the opcode byte of the row of the opcode table that has its mnemonic. -/
def OpcodeByte.Statement (i : Instr) : Prop :=
  ∃ r ∈ opcodeTable, r.mnemonic = i.mnemonic ∧ field (encode i) 31 24 = field r.pattern 31 24

/-- A row of the table with the command's mnemonic and opcode byte settles the command. -/
theorem OpcodeByte.of_row (i : Instr) (r : OpcodeRow) (opVar : Nat) (rd rs1 rs2 : QReg) (imm : Nat)
    (hr : opcodeTable.contains r = true) (hm : r.mnemonic = i.mnemonic) (he : encode i = wordOf opVar rd rs1 rs2 imm)
    (hp : field r.pattern 31 24 = opVar) (h : opVar < 256) : OpcodeByte.Statement i :=
  ⟨r, List.contains_iff_mem.mp hr, hm, by rw [he, field_wordOf _ _ _ _ _ h, hp]⟩

theorem OpcodeByte.tobits (rd rs1 : QReg) : OpcodeByte.Statement (.tobits rd rs1) :=
  of_row _ ⟨"tobits", 0x20000000, 0xFF03FFFF⟩ 0x20 _ _ _ _ (by decide) rfl rfl (by decide) (by decide)

theorem OpcodeByte.frombits (rd rs1 : QReg) : OpcodeByte.Statement (.frombits rd rs1) :=
  of_row _ ⟨"frombits", 0x24000000, 0xFF03FFFF⟩ 0x24 _ _ _ _ (by decide) rfl rfl (by decide) (by decide)

theorem OpcodeByte.tohex (rd rs1 : QReg) : OpcodeByte.Statement (.tohex rd rs1) :=
  of_row _ ⟨"tohex", 0x28000000, 0xFF03FFFF⟩ 0x28 _ _ _ _ (by decide) rfl rfl (by decide) (by decide)

theorem OpcodeByte.fromhex (rd rs1 : QReg) : OpcodeByte.Statement (.fromhex rd rs1) :=
  of_row _ ⟨"fromhex", 0x2C000000, 0xFF03FFFF⟩ 0x2C _ _ _ _ (by decide) rfl rfl (by decide) (by decide)

theorem OpcodeByte.xor (rd rs1 rs2 : QReg) : OpcodeByte.Statement (.xor rd rs1 rs2) :=
  of_row _ ⟨"xor", 0x40000000, 0xFF007FFF⟩ 0x40 _ _ _ _ (by decide) rfl rfl (by decide) (by decide)

theorem OpcodeByte.sub4 (rd rs1 : QReg) : OpcodeByte.Statement (.sub4 rd rs1) :=
  of_row _ ⟨"sub4", 0x44000000, 0xFF03FFFF⟩ 0x44 _ _ _ _ (by decide) rfl rfl (by decide) (by decide)

theorem OpcodeByte.sub4I (rd rs1 : QReg) : OpcodeByte.Statement (.sub4I rd rs1) :=
  of_row _ ⟨"sub4.i", 0x45000000, 0xFF03FFFF⟩ 0x45 _ _ _ _ (by decide) rfl rfl (by decide) (by decide)

theorem OpcodeByte.perm (rd rs1 : QReg) : OpcodeByte.Statement (.perm rd rs1) :=
  of_row _ ⟨"perm", 0x48000000, 0xFF03FFFF⟩ 0x48 _ _ _ _ (by decide) rfl rfl (by decide) (by decide)

theorem OpcodeByte.permI (rd rs1 : QReg) : OpcodeByte.Statement (.permI rd rs1) :=
  of_row _ ⟨"perm.i", 0x49000000, 0xFF03FFFF⟩ 0x49 _ _ _ _ (by decide) rfl rfl (by decide) (by decide)

theorem OpcodeByte.pdflt : OpcodeByte.Statement (.pdflt) :=
  of_row _ ⟨"pdflt", 0x4C000000, 0xFFFFFFFF⟩ 0x4C _ _ _ _ (by decide) rfl rfl (by decide) (by decide)

theorem OpcodeByte.pload : OpcodeByte.Statement (.pload) :=
  of_row _ ⟨"pload", 0x50000000, 0xFFFFFFFF⟩ 0x50 _ _ _ _ (by decide) rfl rfl (by decide) (by decide)

theorem OpcodeByte.ksched (rs1 : QReg) : OpcodeByte.Statement (.ksched rs1) :=
  of_row _ ⟨"ksched", 0x60000000, 0xFFE3FFFF⟩ 0x60 _ _ _ _ (by decide) rfl rfl (by decide) (by decide)

theorem OpcodeByte.rkget (rd : QReg) (imm : Nat) : OpcodeByte.Statement (.rkget rd imm) :=
  of_row _ ⟨"rkget", 0x64000000, 0xFF1F8000⟩ 0x64 _ _ _ _ (by decide) rfl rfl (by decide) (by decide)

theorem OpcodeByte.frnd (rd rs1 : QReg) (imm : Nat) : OpcodeByte.Statement (.frnd rd rs1 imm) :=
  of_row _ ⟨"frnd", 0x80000000, 0xFF038000⟩ 0x80 _ _ _ _ (by decide) rfl rfl (by decide) (by decide)

theorem OpcodeByte.frndI (rd rs1 : QReg) (imm : Nat) : OpcodeByte.Statement (.frndI rd rs1 imm) :=
  of_row _ ⟨"frnd.i", 0x81000000, 0xFF038000⟩ 0x81 _ _ _ _ (by decide) rfl rfl (by decide) (by decide)

theorem OpcodeByte.feisE (rd rs1 : QReg) : OpcodeByte.Statement (.feisE rd rs1) :=
  of_row _ ⟨"feis.e", 0x84000000, 0xFF03FFFF⟩ 0x84 _ _ _ _ (by decide) rfl rfl (by decide) (by decide)

theorem OpcodeByte.feisD (rd rs1 : QReg) : OpcodeByte.Statement (.feisD rd rs1) :=
  of_row _ ⟨"feis.d", 0x85000000, 0xFF03FFFF⟩ 0x85 _ _ _ _ (by decide) rfl rfl (by decide) (by decide)

theorem OpcodeByte.srnd (rd rs1 : QReg) (imm : Nat) : OpcodeByte.Statement (.srnd rd rs1 imm) :=
  of_row _ ⟨"srnd", 0xA0000000, 0xFF038000⟩ 0xA0 _ _ _ _ (by decide) rfl rfl (by decide) (by decide)

theorem OpcodeByte.srndI (rd rs1 : QReg) (imm : Nat) : OpcodeByte.Statement (.srndI rd rs1 imm) :=
  of_row _ ⟨"srnd.i", 0xA1000000, 0xFF038000⟩ 0xA1 _ _ _ _ (by decide) rfl rfl (by decide) (by decide)

theorem OpcodeByte.spnE (rd rs1 : QReg) : OpcodeByte.Statement (.spnE rd rs1) :=
  of_row _ ⟨"spn.e", 0xA4000000, 0xFF03FFFF⟩ 0xA4 _ _ _ _ (by decide) rfl rfl (by decide) (by decide)

theorem OpcodeByte.spnD (rd rs1 : QReg) : OpcodeByte.Statement (.spnD rd rs1) :=
  of_row _ ⟨"spn.d", 0xA5000000, 0xFF03FFFF⟩ 0xA5 _ _ _ _ (by decide) rfl rfl (by decide) (by decide)

theorem OpcodeByte.pad (rd rs1 : QReg) : OpcodeByte.Statement (.pad rd rs1) :=
  of_row _ ⟨"pad", 0xC0000000, 0xFF03FFFF⟩ 0xC0 _ _ _ _ (by decide) rfl rfl (by decide) (by decide)

theorem OpcodeByte.unpad (rd rs1 : QReg) : OpcodeByte.Statement (.unpad rd rs1) :=
  of_row _ ⟨"unpad", 0xC4000000, 0xFF03FFFF⟩ 0xC4 _ _ _ _ (by decide) rfl rfl (by decide) (by decide)

theorem OpcodeByte.ecbEF (rd rs1 : QReg) : OpcodeByte.Statement (.ecbEF rd rs1) :=
  of_row _ ⟨"ecb.e.f", 0xC8000000, 0xFF03FFFF⟩ 0xC8 _ _ _ _ (by decide) rfl rfl (by decide) (by decide)

theorem OpcodeByte.ecbDF (rd rs1 : QReg) : OpcodeByte.Statement (.ecbDF rd rs1) :=
  of_row _ ⟨"ecb.d.f", 0xC9000000, 0xFF03FFFF⟩ 0xC9 _ _ _ _ (by decide) rfl rfl (by decide) (by decide)

theorem OpcodeByte.ecbES (rd rs1 : QReg) : OpcodeByte.Statement (.ecbES rd rs1) :=
  of_row _ ⟨"ecb.e.s", 0xCA000000, 0xFF03FFFF⟩ 0xCA _ _ _ _ (by decide) rfl rfl (by decide) (by decide)

theorem OpcodeByte.ecbDS (rd rs1 : QReg) : OpcodeByte.Statement (.ecbDS rd rs1) :=
  of_row _ ⟨"ecb.d.s", 0xCB000000, 0xFF03FFFF⟩ 0xCB _ _ _ _ (by decide) rfl rfl (by decide) (by decide)

theorem OpcodeByte.cbcEF (rd rs1 rs2 : QReg) : OpcodeByte.Statement (.cbcEF rd rs1 rs2) :=
  of_row _ ⟨"cbc.e.f", 0xCC000000, 0xFF007FFF⟩ 0xCC _ _ _ _ (by decide) rfl rfl (by decide) (by decide)

theorem OpcodeByte.cbcDF (rd rs1 rs2 : QReg) : OpcodeByte.Statement (.cbcDF rd rs1 rs2) :=
  of_row _ ⟨"cbc.d.f", 0xCD000000, 0xFF007FFF⟩ 0xCD _ _ _ _ (by decide) rfl rfl (by decide) (by decide)

theorem OpcodeByte.cbcES (rd rs1 rs2 : QReg) : OpcodeByte.Statement (.cbcES rd rs1 rs2) :=
  of_row _ ⟨"cbc.e.s", 0xCE000000, 0xFF007FFF⟩ 0xCE _ _ _ _ (by decide) rfl rfl (by decide) (by decide)

theorem OpcodeByte.cbcDS (rd rs1 rs2 : QReg) : OpcodeByte.Statement (.cbcDS rd rs1 rs2) :=
  of_row _ ⟨"cbc.d.s", 0xCF000000, 0xFF007FFF⟩ 0xCF _ _ _ _ (by decide) rfl rfl (by decide) (by decide)

theorem OpcodeByte.nop : OpcodeByte.Statement (.nop) :=
  of_row _ ⟨"nop", 0xE0000000, 0xFFFFFFFF⟩ 0xE0 _ _ _ _ (by decide) rfl rfl (by decide) (by decide)

theorem OpcodeByte.clrerr : OpcodeByte.Statement (.clrerr) :=
  of_row _ ⟨"clrerr", 0xE4000000, 0xFFFFFFFF⟩ 0xE4 _ _ _ _ (by decide) rfl rfl (by decide) (by decide)

theorem OpcodeByte.mov (rd rs1 : QReg) : OpcodeByte.Statement (.mov rd rs1) :=
  of_row _ ⟨"mov", 0xE8000000, 0xFF03FFFF⟩ 0xE8 _ _ _ _ (by decide) rfl rfl (by decide) (by decide)

end Sys2Proof.Laws
end

