-- ==== Sys2Proof/Laws/Tables.lean ====
section
/-! SUPPORT. What `substitute` and `permute` do to lengths and to single chunks (rules R143 and R145). -/

namespace Sys2Proof.Machine

theorem substitute_length (sbox : Vector (BitVec 4) 16) (inverse : Bool) (b : Bits) :
    (substitute sbox inverse b).length = 4 * ceilDiv b.length 4 := by
  unfold substitute
  have h := padRMult_length b 4 (by omega)
  rw [List.flatMap_def, flatten_length 4, List.length_map, chunks_length _ _ 4 (by omega) h]
  intro c hc
  obtain ⟨d, -, rfl⟩ := List.mem_map.mp hc
  simp

@[simp] theorem permuteChunk_length (pairs : List (Nat × Nat)) (w : Nat) (c : Bits) :
    (permuteChunk pairs w c).length = w := by simp [permuteChunk]

theorem permute_length (table : List (Nat × Nat)) (w : Nat) (inverse : Bool) (b : Bits) (hw : 1 ≤ w) :
    (permute table w inverse b).length = w * ceilDiv b.length w := by
  unfold permute
  exact flatMap_chunks_length w _ _ _ hw (padRMult_length b w hw) fun c _ => permuteChunk_length _ w c

/-- A result of `substitute` on whole nibbles, nibble by nibble. -/
theorem substitute_of_dvd (sbox : Vector (BitVec 4) 16) (inverse : Bool) (b : Bits) (n : Nat)
    (h : b.length = 4 * n) :
    substitute sbox inverse b = (chunks b 4).flatMap fun nib =>
      bitsOf 4 (if inverse then invSboxAt sbox (val nib) else sboxAt sbox (val nib)) := by
  rw [substitute, padRMult_of_dvd b n 4 (by omega) h]

/-- A result of `permute` on whole chunks, chunk by chunk. -/
theorem permute_of_dvd (table : List (Nat × Nat)) (w : Nat) (inverse : Bool) (b : Bits) (n : Nat) (hw : 1 ≤ w)
    (h : b.length = w * n) :
    permute table w inverse b = (chunks b w).flatMap (permuteChunk (direction inverse table) w) := by
  rw [permute, padRMult_of_dvd b n w hw h]

/-- One bit of a permuted chunk: the input bit of a pair that ends there, when only one does. -/
theorem permutedBit_eq (pairs : List (Nat × Nat)) (c : Bits) (src dst : Nat) (h : (src, dst) ∈ pairs)
    (hu : ∀ src', (src', dst) ∈ pairs → src' = src) : permutedBit pairs c dst = c.getD (src - 1) false := by
  unfold permutedBit
  cases hf : pairs.find? fun p => p.2 == dst with
  | none =>
    have := List.find?_eq_none.mp hf (src, dst) h
    simp at this
  | some p =>
    have h1 : p ∈ pairs := List.mem_of_find?_eq_some hf
    have h2 : p.2 = dst := by simpa using List.find?_some hf
    have h3 : p.1 = src := hu p.1 (by rw [← h2]; exact h1)
    simp [h3]

end Sys2Proof.Machine
end

