-- ==== Sys2Proof/Tests/Slice0.lean ====
section
/-! SUPPORT. The model's own tests: ill-formed terms refused, every constructor's word decoded, each command on the spec's
own vectors (spec/95_test_vectors.md, whose test tables they use), and for every statement with hypotheses a state
that meets them. -/

set_option Elab.async false

namespace Sys2Proof.Tests

open Sys2Proof.Machine Sys2Proof.Claims

/-! ### Well-formedness -/

/-- Rule R93: 32768 does not fit the 15-bit immediate; each form that has an immediate refuses it. -/
theorem test_wf_refuses_imm_rkget : (Instr.rkget 0 32768).WellFormed = false := by decide
theorem test_wf_refuses_imm_frnd : (Instr.frnd 0 1 32768).WellFormed = false := by decide
theorem test_wf_refuses_imm_frndI : (Instr.frndI 0 1 32768).WellFormed = false := by decide
theorem test_wf_refuses_imm_srnd : (Instr.srnd 0 1 32768).WellFormed = false := by decide
theorem test_wf_refuses_imm_srndI : (Instr.srndI 0 1 32768).WellFormed = false := by decide
theorem test_wf_accepts_largest_imm : (Instr.rkget 7 32767).WellFormed = true := by decide
theorem test_immFits_refuses : immFits 32768 = false := by decide

/-! ### Decoding: the encoding vectors of section 3 of spec/95_test_vectors.md, one word for every constructor -/


theorem test_decode_tobits : decode 0x20680000 = some (.tobits 3 2) := by decide
theorem test_decode_frombits : decode 0x24F80000 = some (.frombits 7 6) := by decide
theorem test_decode_tohex : decode 0x28B00000 = some (.tohex 5 4) := by decide
theorem test_decode_fromhex : decode 0x2C200000 = some (.fromhex 1 0) := by decide
theorem test_decode_xor : decode 0x40408000 = some (.xor 2 0 1) := by decide
theorem test_decode_sub4 : decode 0x448C0000 = some (.sub4 4 3) := by decide
theorem test_decode_sub4I : decode 0x45B00000 = some (.sub4I 5 4) := by decide
theorem test_decode_perm : decode 0x48F80000 = some (.perm 7 6) := by decide
theorem test_decode_permI : decode 0x49DC0000 = some (.permI 6 7) := by decide
theorem test_decode_pdflt : decode 0x4C000000 = some (.pdflt) := by decide
theorem test_decode_pload : decode 0x50000000 = some (.pload) := by decide
theorem test_decode_ksched : decode 0x600C0000 = some (.ksched 3) := by decide
theorem test_decode_rkget : decode 0x64800002 = some (.rkget 4 2) := by decide
theorem test_decode_nop : decode 0xE0000000 = some (.nop) := by decide
theorem test_decode_clrerr : decode 0xE4000000 = some (.clrerr) := by decide
theorem test_decode_mov : decode 0xE8700000 = some (.mov 3 4) := by decide
theorem test_decode_frnd : decode 0x80B00000 = some (.frnd 5 4 0) := by decide
theorem test_decode_frndI : decode 0x81200005 = some (.frndI 1 0 5) := by decide
theorem test_decode_feisE : decode 0x84D00000 = some (.feisE 6 4) := by decide
theorem test_decode_feisD : decode 0x85F80000 = some (.feisD 7 6) := by decide
theorem test_decode_srnd : decode 0xA0000000 = some (.srnd 0 0 0) := by decide
theorem test_decode_srndI : decode 0xA1FC7FFF = some (.srndI 7 7 32767) := by decide
theorem test_decode_spnE : decode 0xA4400000 = some (.spnE 2 0) := by decide
theorem test_decode_spnD : decode 0xA5000000 = some (.spnD 0 0) := by decide
theorem test_decode_pad : decode 0xC06C0000 = some (.pad 3 3) := by decide
theorem test_decode_unpad : decode 0xC4D80000 = some (.unpad 6 6) := by decide
theorem test_decode_ecbEF : decode 0xC88C0000 = some (.ecbEF 4 3) := by decide
theorem test_decode_ecbDF : decode 0xC9D80000 = some (.ecbDF 6 6) := by decide
theorem test_decode_ecbES : decode 0xCA000000 = some (.ecbES 0 0) := by decide
theorem test_decode_ecbDS : decode 0xCB000000 = some (.ecbDS 0 0) := by decide
theorem test_decode_cbcEF : decode 0xCC000000 = some (.cbcEF 0 0 0) := by decide
theorem test_decode_cbcDF : decode 0xCD000000 = some (.cbcDF 0 0 0) := by decide
theorem test_decode_cbcES : decode 0xCE650000 = some (.cbcES 3 1 2) := by decide
theorem test_decode_cbcDS : decode 0xCF688000 = some (.cbcDS 3 2 1) := by decide

/-- The xor word put together bit by bit from rule R92: op, var, rd, rs1, rs2, imm. -/
theorem test_decode_xor_from_fields :
    decode (0b010000#6 ++ 0b00#2 ++ 0b010#3 ++ 0b000#3 ++ 0b001#3 ++ 0#15) = some (.xor 2 0 1) := by decide

/-- The srnd.i word put together bit by bit from rule R92. -/
theorem test_decode_srndI_from_fields :
    decode (0b101000#6 ++ 0b01#2 ++ 0b110#3 ++ 0b011#3 ++ 0#3 ++ 9#15) = some (.srndI 6 3 9) := by decide

/-- The illegal words of section 3 of spec/95_test_vectors.md. -/
theorem test_illegal_words :
    ([0x00000000, 0xFFFFFFFF, 0x21000000, 0x46000000, 0x40408001, 0x60200000, 0xE0000001, 0xE4000001,
      0x64048000, 0x54000000] : List Word).map decode = List.replicate 10 none := by decide

/-- Rule R100: a command as the assembler writes it, and as it reads it. -/
theorem test_asm : (Instr.frndI 1 0 5).asm = "frnd.i q1, q0, 5" := by decide +kernel
theorem test_assemble : assemble "frnd.i q1, q0, 0x1F # a round".toList = some (.frndI 1 0 31) := by decide +kernel
theorem test_assemble_of_asm : assemble (Instr.cbcDS 3 2 1).asm.toList = some (.cbcDS 3 2 1) := by decide +kernel
theorem test_assemble_refuses :
    ["rkget q1, 32768", "xor q1, q8, q0", "nop q1", "# a comment"].map (fun l => assemble l.toList) =
      [none, none, none, none] := by decide +kernel

/-! ### Small states with the test tables of section 1 of spec/95_test_vectors.md -/

/-- `SBOX_TV` -/
def tvSbox : Vector (BitVec 4) 16 := Vector.ofFn fun x => BitVec.ofNat 4 (5 * x.val + 8)

/-- `PBOX16_TV` -/
def tvPbox : Vector Entry 16 := Vector.ofFn fun p => BitVec.ofNat 16 ((5 * p.val + 3) % 16 + 1)

/-- The reset state with the test tables. -/
def tv : State := State.resetWith tvSbox tvPbox

/-- The schedule K3 of section 1, with `BS = 32`. -/
def k3 : State :=
  { tv with rk := [bitsOf 16 0x9043, bitsOf 16 0x9CB3, bitsOf 16 0x61B5], rkn := 3, rkw := 16, rkv := true, bs := 32 }

/-- A schedule of no rounds (`NR = 0`, `RKS = 16`), with `BS = 32`. -/
def k0 : State := { tv with rkw := 16, rkv := true, bs := 32 }

/-- An n-bit sequence from a number. -/
def hex (n v : Nat) : Bits := bitsOf n v

/-- Text from its bytes. -/
def text (c : List Nat) : Bits := ofBytes c

/-- A state with q0 and q1 loaded. -/
def with2 (s : State) (a b : Bits) : State := (s.writeQ 0 a).writeQ 1 b

/-- A state with `PWS` and the first staging entries written. -/
def staged (w : Word) (f : Nat → Entry) : State := { tv with pws := w, pstg := fillTable tv.pstg w.toNat f }

/-- What a register holds after a command that leaves no error. -/
def result (o : Host.Outcome State Fault Refusal) (r : QReg) : Option Bits :=
  match o with
  | .next t => if t.err then none else some (t.readQ r)
  | .fault _ => none
  | .refused _ => none

/-- A field of the state a command leads to. -/
def after {α : Type} (o : Host.Outcome State Fault Refusal) (f : State → α) : Option α :=
  match o with
  | .next t => some (f t)
  | .fault _ => none
  | .refused _ => none

/-! ### Commands on the vectors of sections 4 to 11 -/

theorem test_tobits_prefix :
    after (exec (.tobits 1 0) (tv.writeQ 0 (text [0x30, 0x78, 0x31, 0x46]))) (fun t => (t.readQ 1, t.fmt)) =
    some (hex 8 0x1F, 1) := by decide +kernel
theorem test_tobits_decimal :
    after (exec (.tobits 1 0) (tv.writeQ 0 (text [0x31, 0x39]))) (fun t => (t.readQ 1, t.fmt)) =
    some (hex 5 19, 2) := by decide +kernel
theorem test_frombits_copies :
    result (exec (.frombits 1 0) (tv.writeQ 0 (hex 16 0x4869))) 1 = some (hex 16 0x4869) := by decide +kernel
theorem test_frombits_partial :
    after (exec (.frombits 1 0) (tv.writeQ 0 (hex 3 5))) (fun t => t.errcode) = some 1 := by decide +kernel
theorem test_tohex_pads_left :
    result (exec (.tohex 1 0) (tv.writeQ 0 (hex 9 0x1F0))) 1 = some (text [0x31, 0x66, 0x30]) := by decide +kernel
theorem test_fromhex_upper_case :
    result (exec (.fromhex 1 0) (tv.writeQ 0 (text [0x31, 0x46]))) 1 = some (hex 8 0x1F) := by decide +kernel
theorem test_fromhex_no_prefix :
    after (exec (.fromhex 1 0) (tv.writeQ 0 (text [0x30, 0x78, 0x31, 0x66]))) (fun t => t.errcode) =
      some 1 := by decide +kernel
theorem test_xor_source_example :
    result (exec (.xor 2 0 1) (with2 tv (hex 4 0xC) (hex 4 0xA))) 2 = some (hex 4 6) := by decide +kernel
theorem test_xor_unequal : after (exec (.xor 2 0 1) (with2 tv (hex 3 6) (hex 2 2))) (fun t => (t.errcode, t.errinfo)) =
    some (2, 0x40408000) := by decide +kernel
theorem test_sub4_every_nibble :
    result (exec (.sub4 1 0) (tv.writeQ 0 (hex 64 0x0123456789ABCDEF))) 1 =
      some (hex 64 0x8D27C16B05AF49E3) := by decide +kernel
theorem test_sub4_short_group :
    result (exec (.sub4 1 0) (tv.writeQ 0 (hex 3 5))) 1 = some (hex 4 0xA) := by decide +kernel
theorem test_sub4I_every_nibble :
    result (exec (.sub4I 1 0) (tv.writeQ 0 (hex 64 0x0123456789ABCDEF))) 1 =
      some (hex 64 0x852FC9630DA741EB) := by decide +kernel
theorem test_perm_two_chunks :
    result (exec (.perm 1 0) (tv.writeQ 0 (hex 32 0xB38F0001))) 1 = some (hex 32 0x7A570002) := by decide +kernel
theorem test_perm_short_chunk :
    result (exec (.perm 1 0) (tv.writeQ 0 (hex 2 3))) 1 = some (hex 16 0x1080) := by decide +kernel
theorem test_permI_two_chunks :
    result (exec (.permI 1 0) (tv.writeQ 0 (hex 32 0xB38F0001))) 1 = some (hex 32 0xFD490008) := by decide +kernel
theorem test_pdflt_identity : after (exec .pdflt { tv with pws := 8 }) (fun t => (t.pw, tableEntries t.ptab 8)) =
    some (8, [1, 2, 3, 4, 5, 6, 7, 8]) := by decide +kernel
theorem test_pdflt_sixteen_is_pbox :
    after (exec .pdflt tv) (fun t => tableEntries t.ptab 4) = some [4, 9, 14, 3] := by decide +kernel
theorem test_pload_installs :
    after (exec .pload (staged 4 fun p => BitVec.ofNat 16 (p % 4 + 1))) (fun t => (t.pw, tableEntries t.ptab 4)) =
    some (4, [2, 3, 4, 1]) := by decide +kernel
theorem test_pload_rejects :
    after (exec .pload (staged 4 fun p => BitVec.ofNat 16 (if p = 4 then 2 else p + 1))) (fun t => (t.pw, t.errcode)) =
    some (16, 3) := by decide +kernel
theorem test_ksched_keys :
    after (exec (.ksched 0) { tv.writeQ 0 (hex 2 1) with nr := 2, rks := 40 }) (fun t => (t.rk, t.seed)) =
    some ([hex 40 0x5E8885DB81, hex 40 0x9867C4347B], 0x5EA1EBE8) := by decide +kernel
theorem test_ksched_long_halves :
    after (exec (.ksched 0) { tv.writeQ 0 (hex 128 0x0123456789ABCDEF00000000FFFFFFFF) with nr := 2, rks := 48 })
    (fun t => t.rk) = some [hex 48 0x0A62F5C23152, hex 48 0x48A47CEFAA00] := by decide +kernel
theorem test_rkget_copies : result (exec (.rkget 4 1) k3) 4 = some (hex 16 0x9CB3) := by decide +kernel
theorem test_rkget_past_the_end : after (exec (.rkget 4 3) k3) (fun t => t.errcode) = some 6 := by decide +kernel
theorem test_frnd_round0 :
    result (exec (.frnd 1 0 0) (k3.writeQ 0 (hex 32 0x01234567))) 1 = some (hex 32 0x45673F22) := by decide +kernel
theorem test_frndI_round0 :
    result (exec (.frndI 1 0 0) (k3.writeQ 0 (hex 32 0x45673F22))) 1 = some (hex 32 0x01234567) := by decide +kernel
theorem test_feisE_three_rounds :
    result (exec (.feisE 1 0) (k3.writeQ 0 (hex 32 0x01234567))) 1 = some (hex 32 0x9F485A0D) := by decide +kernel
theorem test_feisD_three_rounds :
    result (exec (.feisD 1 0) (k3.writeQ 0 (hex 32 0x01234567))) 1 = some (hex 32 0x651CA402) := by decide +kernel
theorem test_srnd_one_bit :
    result (exec (.srnd 1 0 0) (k3.writeQ 0 [true])) 1 = some (hex 16 0xB9D2) := by decide +kernel
theorem test_srndI_round0 :
    result (exec (.srndI 1 0 0) (k3.writeQ 0 (hex 16 0x3E01))) 1 = some (hex 16 0x4567) := by decide +kernel
theorem test_spnE_short_chunk :
    result (exec (.spnE 1 0) (k3.writeQ 0 (hex 24 0x012345))) 1 = some (hex 32 0x40281755) := by decide +kernel
theorem test_spnD_one_bit : result (exec (.spnD 1 0) (k3.writeQ 0 [true])) 1 = some (hex 16 0xA313) := by decide +kernel
theorem test_pad_four_bytes :
    result (exec (.pad 1 0) (k3.writeQ 0 (hex 24 0x486921))) 1 = some (hex 32 0x48692101) := by decide +kernel
theorem test_pad_full_block :
    result (exec (.pad 1 0) (k3.writeQ 0 (hex 32 0x48697961))) 1 = some (hex 64 0x4869796104040404) := by decide +kernel
theorem test_unpad_all :
    after (exec (.unpad 1 0) (tv.writeQ 0 (hex 24 0x410303))) (fun t => (t.readQ 1, t.pamb)) =
      some ([], false) := by decide +kernel
theorem test_unpad_ambiguous :
    after (exec (.unpad 1 0) (tv.writeQ 0 (hex 16 0x4103))) (fun t => (t.readQ 1, t.pamb, t.err)) =
    some (hex 16 0x4103, true, false) := by decide +kernel
theorem test_ecbEF_short_block :
    result (exec (.ecbEF 1 0) (k3.writeQ 0 (hex 40 0x0123456789))) 1 =
      some (hex 64 0x9F485A0DBC8F97B3) := by decide +kernel
theorem test_ecbDF_short_block :
    result (exec (.ecbDF 1 0) (k3.writeQ 0 (hex 64 0x9F485A0DBC8F97B3))) 1 =
      some (hex 64 0x0123456789000000) := by decide +kernel
theorem test_ecbES_short_block :
    result (exec (.ecbES 1 0) (k3.writeQ 0 (hex 40 0x0123456789))) 1 =
      some (hex 64 0x4028BA879F77C6E0) := by decide +kernel
theorem test_ecbDS_short_block :
    result (exec (.ecbDS 1 0) (k3.writeQ 0 (hex 64 0x4028BA879F77C6E0))) 1 =
      some (hex 64 0x0123456789000000) := by decide +kernel
theorem test_cbcEF_two_blocks : result (exec (.cbcEF 2 0 1) (with2 k3 (hex 64 0x0123456701234567) (hex 8 0xFF))) 2 =
    some (hex 64 0x9ACE542F01521561) := by decide +kernel
theorem test_cbcDF_wrong_iv :
    result (exec (.cbcDF 2 0 1) (with2 k3 (hex 64 0x9ACE542F01521561) [])) 2 =
      some (hex 64 0x0123459801234567) := by decide +kernel
theorem test_cbcES_two_blocks : result (exec (.cbcES 2 0 1) (with2 k3 (hex 64 0x0123456701234567) (hex 8 0xFF))) 2 =
    some (hex 64 0x4028B7BCC6548BC9) := by decide +kernel
theorem test_cbcDS_two_blocks : result (exec (.cbcDS 2 0 1) (with2 k3 (hex 64 0x4028B7BCC6548BC9) (hex 8 0xFF))) 2 =
    some (hex 64 0x0123456701234567) := by decide +kernel
theorem test_nop_changes_nothing :
    after (exec .nop k3) (fun t => t.readQ 0 == k3.readQ 0 && t.statusWord == k3.statusWord) =
      some true := by decide +kernel
theorem test_clrerr_clears :
    after (exec .clrerr (k3.raise .overflow 5)) (fun t => (t.err, t.errcode, t.errinfo)) =
      some (false, 0, 0) := by decide +kernel
theorem test_mov_copies : result (exec (.mov 5 0) (tv.writeQ 0 (hex 4 0xA))) 5 = some (hex 4 0xA) := by decide +kernel
theorem test_mov_dropped_while_latched :
    after (exec (.mov 2 0) ((tv.writeQ 0 (hex 4 0xA)).raise .overflow 5)) (fun t => t.readQ 2) =
      some [] := by decide +kernel

/-! ### Steps, the host's accesses and the windows -/

theorem test_step_runs_fetched_word :
    after (step ((tv.writeQ 0 (hex 4 0xA)).withFetchWord 32 0xE8A00000)) (fun t => (t.readQ 5, t.pending)) =
      some (hex 4 0xA, []) := by decide +kernel
theorem test_step_illegal_word :
    after (step (tv.withFetchWord 32 0x54000000)) (fun t => (t.err, t.errcode, t.errinfo)) =
      some (true, 4, 0x54000000) := by decide +kernel
theorem test_step_refuses_byte : (match step { tv with pending := [.read 0 1] } with
    | .refused r => some r | .next _ => none | .fault _ => none) = some .accessNotAWord := by decide +kernel
theorem test_qdata_words :
    [0, 1, 2].map (fun w => { tv.writeQ 1 (hex 40 0x5E8885DB81) with qsel := 1, qptr := w }.csrRead 0x4C) =
      ([0x5E8885DB, 0x81000000, 0] : List Word) := by decide +kernel
theorem test_qdata_write_discards :
    after ((tv.writeQ 0 (hex 5 0x18)).csrWrite 0x4C 0xFFFFFFFF) (fun t => t.readQ 0) = some (hex 5 0x1F) := by
  decide +kernel
theorem test_qlen_grows :
    after ((tv.writeQ 0 (hex 2 3)).csrWrite 0x44 5) (fun t => t.readQ 0) = some (hex 5 0x18) := by decide +kernel
theorem test_pdata_discards_high_bits :
    after ({ tv with pidx := 3 }.csrWrite 0x2C 0x00010007) (fun t => entryAt t.pstg 256 3) = some 7 := by
  decide +kernel
theorem test_pact_past_width : { tv with pidx := 17 }.csrRead 0x30 = 0 := by decide +kernel
theorem test_status_word : { k3 with pamb := true, fmt := 2, err := true }.csrRead 0x04 = 0x1B := by decide +kernel
/-- Rule R145's general case, a table that is not total: uncovered positions stay 0. -/
theorem test_permute_partial_table :
    permute [(1, 2)] 4 false [true, true, true, true] = [false, true, false, false] := by decide +kernel
theorem test_hostWriteQ_accesses :
    hostWriteQ 0 (hex 4 0xC) = [.write 0x40 4 0, .write 0x44 4 0, .write 0x44 4 4, .write 0x48 4 0,
      .write 0x4C 4 0xC0000000] := by decide +kernel

/-- Rule R7: `SBOX[0] = 8` holds of the built-in table, whatever the rest of it is. -/
theorem sbox_zero : Config.sbox 0 = 8 := by simp [Config.sbox]

theorem test_sbox_zero_at_reset : State.reset.sbox[0] = 8 := by
  simp [State.reset, State.resetWith, builtinSbox, sbox_zero]

/-! ### Witnesses: states and operands that meet the hypotheses of the statements, each clause at a boundary value -/

/-- A state with n zero bits in q0, for lengths too long to write out. -/
def long (s : State) (n : Nat) : State := s.writeQ 0 (zeros n)

theorem long_length (s : State) (n : Nat) : ((long s n).readQ 0).length = n := by
  simp [long, State.writeQ, State.readQ]

theorem witness_DecodeOfEncodeIsIdentity :
    ∀ i ∈ [Instr.rkget 7 32767, .frnd 0 7 0, .srndI 7 7 32767, .cbcDS 7 7 7, .nop], i.WellFormed = true := by decide

theorem witness_EncodeOfDecodeIsIdentity : decode 0xA1FC7FFF = some (.srndI 7 7 32767) := by decide

theorem witness_DecodeFollowsOpcodeTable :
    (∃ r ∈ opcodeTable, (0xCFFF8000 : Word) &&& r.mask = r.pattern) ∧
    ∀ r ∈ opcodeTable, (0xCFFF8001 : Word) &&& r.mask ≠ r.pattern := by decide

theorem witness_StepRunsTheDecodedCommand :
    (k3.withFetchWord 32 0xE0000000).pending = .write 0x00 4 0xE0000000 :: k3.pending ∧
    decode 0xE0000000 = some .nop ∧
    (k3.withFetchWord 32 0xE0000001).pending = .write 0x00 4 0xE0000001 :: k3.pending ∧
    decode 0xE0000001 = none ∧ (k3.withFetchWord 32 0xE0000001).err = false ∧
    ((k3.raise .overflow 5).withFetchWord 32 0xE0000001).err = true := by decide +kernel

/-- The last offset inside the space answers, the first one outside it, a byte access and a misaligned one do not. -/
theorem witness_OnlyAccessesOutsideTheSpecAreRefused :
    ([(0xFC, 4), (0x00, 4), (0x100, 4), (0x04, 1), (0x02, 4)].map fun p =>
      decide (p.2 ≠ 4 ∨ 0xFF < p.1 ∨ p.1 % 4 ≠ 0)) = [false, false, true, true, true] ∧
    ∀ e ∈ [HostEvent.read 0xFC 4, .write 0x100 4 1, .rst], { tv with pending := [e] }.pending = [e] := by
  decide +kernel

theorem witness_RegisterReads :
    (0xFC ≤ 0xFF ∧ 0xFC % 4 = 0 ∧ { tv with pending := [.read 0xFC 4] }.pending = [.read 0xFC 4]) ∧
    (([1, 256] : List Word).all fun p =>
      decide (1 ≤ { tv with pidx := p }.pidx.toNat ∧ { tv with pidx := p }.pidx.toNat ≤ 256)) ∧
    (([0, 257] : List Word).all fun p =>
      decide ({ tv with pidx := p }.pidx.toNat = 0 ∨ 256 < { tv with pidx := p }.pidx.toNat)) ∧
    (([1, 16] : List Word).all fun p =>
      decide (1 ≤ { tv with pidx := p }.pidx.toNat ∧ { tv with pidx := p }.pidx.toNat ≤ tv.pw.toNat)) ∧
    (([0, 17] : List Word).all fun p =>
      decide ({ tv with pidx := p }.pidx.toNat = 0 ∨ tv.pw.toNat < { tv with pidx := p }.pidx.toNat)) ∧
    (k3.readQ k3.qsel).length ≤ 65536 := by decide +kernel

theorem witness_RegisterReads_longest : ((long tv 65536).readQ (long tv 65536).qsel).length ≤ 65536 := by
  have h : (long tv 65536).qsel = 0 := rfl
  rw [h, long_length]

theorem witness_RegisterWrites :
    (0xFC ≤ 0xFF ∧ 0xFC % 4 = 0 ∧ { tv with pending := [.write 0xFC 4 7] }.pending = [.write 0xFC 4 7]) ∧
    (([1, 256] : List Word).all fun p =>
      decide (1 ≤ { tv with pidx := p }.pidx.toNat ∧ { tv with pidx := p }.pidx.toNat ≤ 256)) ∧
    (([0, 257] : List Word).all fun p =>
      decide ({ tv with pidx := p }.pidx.toNat = 0 ∨ 256 < { tv with pidx := p }.pidx.toNat)) ∧ 0x50 ≤ 0xFC := by
  decide +kernel

theorem witness_WindowReadsAndWritesBits :
    (tv.readQ tv.qsel).length ≤ 65536 ∧ (65536 : Word).toNat ≤ 65536 ∧ (0 : Word).toNat ≤ 65536 ∧
      65536 < (65537 : Word).toNat := by decide +kernel

/-- A state whose pending accesses load q3, with one more access after them. -/
def loading (b : Bits) : State := { k3 with pending := hostWriteQ 3 b ++ [.read 0x04 4] }

theorem witness_HostWriteQLoadsTheRegister :
    ∀ b ∈ [[], hex 32 5, hex 33 5],
      b.length ≤ 65536 ∧ (loading b).pending = hostWriteQ 3 b ++ [.read 0x04 4] := by decide +kernel

theorem witness_HostWriteQLoadsTheRegister_longest : (zeros 65536).length ≤ 65536 ∧
    (loading (zeros 65536)).pending = hostWriteQ 3 (zeros 65536) ++ [.read 0x04 4] := by
  simp [loading]

theorem witness_HostReadQReturnsTheRegister :
    ∀ b ∈ [[], hex 32 5, hex 33 5],
      ({ k3.writeQ 3 b with pending := hostReadQ 3 b.length }.readQ 3).length ≤ 65536 ∧
      { k3.writeQ 3 b with pending := hostReadQ 3 b.length }.pending =
        hostReadQ 3 ({ k3.writeQ 3 b with pending := hostReadQ 3 b.length }.readQ 3).length ++ [] := by
  decide +kernel

theorem witness_RstResetsAndNoAccessIdles :
    { k3 with pending := [.rst, .rst] }.pending = .rst :: [.rst] ∧ k3.pending = [] := by decide +kernel

theorem witness_ErrorEntryWritesOnlyTheLatch :
    k3.err = false ∧ after (k3.csrWrite 0x00 0x54000000) (fun t => t.err) = some true ∧
    after (k3.csrWrite 0x00 0x64800003) (fun t => t.err) = some true := by decide +kernel

/-- One command for each row of rule R221's table that raises an error. -/
theorem witness_CommandsRaiseOnlyTheirErrors :
    ∀ i ∈ [Instr.frombits 1 0, .xor 2 0 1, .ksched 0, .rkget 4 3, .frnd 1 0 0, .srnd 1 0 3, .ecbEF 1 0],
      (with2 { tv with bs := 3 } (hex 3 5) []).err = false ∧
      after (exec i (with2 { tv with bs := 3 } (hex 3 5) [])) (fun t => t.err) = some true := by decide +kernel

theorem witness_LatchedErrorDropsEveryWordButClrerr :
    (k3.raise .overflow 5).err = true ∧ (0xE4000001 : Word) ≠ 0xE4000000 ∧ 0x4C ≠ 0x00 ∧ 0x08 ≠ 0x04 := by
  decide +kernel

theorem witness_CommandsChangeOnlyWhatTheyOwn :
    (∀ i ∈ [Instr.pdflt, .mov 3 0, .ksched 0, .unpad 1 0, .tobits 1 0, .clrerr],
      (after (exec i k3) (fun _ => true)) = some true) ∧
    (Instr.mov 3 0).rd? ≠ some 2 ∧ Instr.pload ≠ .pdflt ∧ (∀ r, Instr.nop ≠ .ksched r) ∧
    (∀ rd rs1, Instr.nop ≠ .unpad rd rs1) ∧ (∀ rd rs1, Instr.nop ≠ .tobits rd rs1) ∧
    Instr.nop ≠ .clrerr ∧ (k3.raise .overflow 5).err = true ∧
    after (exec (.mov 3 0) k3) (fun t => t.err) = some false := by decide +kernel

theorem inv_tv : tv.Inv := by decide +kernel
theorem inv_k3 : k3.Inv := by decide +kernel
theorem inv_k0 : k0.Inv := by decide +kernel

theorem witness_StepKeepsInv :
    k3.Inv ∧ (k0.withFetchWord 32 0x4C000000).Inv ∧
    (after (step k3) (fun _ => true)) = some true ∧
    (after (step (k0.withFetchWord 32 0x4C000000)) (fun _ => true)) = some true := by decide +kernel

theorem witness_StepKeepsTheBuiltInTables :
    (after (step { tv with pending := [.rst] }) (fun _ => true)) = some true := by decide +kernel

/-- A state with text in q0. -/
def ascii (c : List Nat) : State := tv.writeQ 0 (text c)

theorem witness_TobitsFollowsFirstMatchingFormat :
    (∀ c ∈ [[], [0x30], [0x31], [0x30, 0x78], [0x30, 0x78, 0x39, 0x61], [0x30, 0x78, 0x67], [0x61], [0x46], [0x32],
        [0x39], [0x2F], [0x47]],
      (ascii c).err = false ∧ ((ascii c).readQ 0).length % 8 = 0 ∧ c = bytesOf ((ascii c).readQ 0)) ∧
    (∀ c ∈ [[], [0x30], [0x31]], ∀ x ∈ c, x = 0x30 ∨ x = 0x31) ∧
    (∀ d ∈ [[], [0x39, 0x61]], ∀ x ∈ d, isHex x = true) ∧
    (∃ x ∈ [0x67], isHex x = false) ∧
    (∀ c ∈ [[0x61], [0x46]], (∀ x ∈ c, isHex x = true) ∧ ∃ x ∈ c, isLetter x = true) ∧
    (∀ c ∈ [[0x32], [0x39]], (∀ x ∈ c, isDec x = true) ∧ ∃ x ∈ c, x ≠ 0x30 ∧ x ≠ 0x31) ∧
    (∀ c ∈ [[0x2F], [0x47]], ∃ x ∈ c, isHex x = false) := by decide +kernel

theorem witness_TobitsFollowsFirstMatchingFormat_partial :
    ∀ b ∈ [hex 1 1, hex 7 1, hex 9 1], (tv.writeQ 0 b).err = false ∧ ((tv.writeQ 0 b).readQ 0).length % 8 ≠ 0 := by
  decide +kernel

theorem witness_TobitsFollowsFirstMatchingFormat_no_prefix : ∀ d : List Nat, [0x47] ≠ 0x30 :: 0x78 :: d := by simp

theorem witness_FrombitsCopiesWholeBytes :
    tv.err = false ∧ (tv.readQ 0).length % 8 = 0 ∧ ((tv.writeQ 0 (hex 8 1)).readQ 0).length % 8 = 0 ∧
    ((tv.writeQ 0 (hex 7 1)).readQ 0).length % 8 ≠ 0 := by decide +kernel

theorem witness_TohexWritesOneDigitPerNibble :
    tv.err = false ∧ CeilOf 0 (tv.readQ 0).length 4 ∧ 8 * 0 ≤ 65536 ∧
    CeilOf 2 ((tv.writeQ 0 (hex 5 1)).readQ 0).length 4 ∧ 8 * 2 ≤ 65536 := by decide +kernel

theorem witness_TohexWritesOneDigitPerNibble_boundary :
    (CeilOf 8192 ((long tv 32768).readQ 0).length 4 ∧ 8 * 8192 ≤ 65536) ∧
    (CeilOf 8193 ((long tv 32769).readQ 0).length 4 ∧ 65536 < 8 * 8193) := by
  simp only [long_length]; decide

theorem witness_FromhexDecodesEveryDigit :
    (∀ c ∈ [[], [0x39, 0x66, 0x46], [0x67]], (ascii c).err = false ∧ c = bytesOf ((ascii c).readQ 0) ∧
      ((ascii c).readQ 0).length % 8 = 0) ∧
    (∀ c ∈ [[], [0x39, 0x66, 0x46]], ∀ x ∈ c, isHex x = true) ∧ (∃ x ∈ [0x67], isHex x = false) ∧
    ((tv.writeQ 0 (hex 7 1)).readQ 0).length % 8 ≠ 0 := by decide +kernel

theorem witness_HexConversionsAreInverse :
    tv.err = false ∧ CeilOf 2 ((tv.writeQ 0 (hex 5 1)).readQ 0).length 4 ∧ 8 * 2 ≤ 65536 ∧
    (∀ c ∈ [[], [0x39, 0x66, 0x46]], c = bytesOf ((ascii c).readQ 0) ∧ ((ascii c).readQ 0).length % 8 = 0 ∧
      ((ascii c).readQ 0).length ≤ 65536 ∧ ∀ x ∈ c, isHex x = true) := by decide +kernel

theorem witness_XorIsBitwise :
    tv.err = false ∧ (tv.readQ 0).length = (tv.readQ 1).length ∧
    ((with2 tv (hex 4 1) (hex 4 2)).readQ 0).length = ((with2 tv (hex 4 1) (hex 4 2)).readQ 1).length ∧
    ((with2 tv (hex 4 1) []).readQ 0).length ≠ ((with2 tv (hex 4 1) []).readQ 1).length := by decide +kernel

theorem witness_Sub4LooksUpEveryNibble :
    tv.err = false ∧ tv.ConstantsOk ∧ CeilOf 0 (tv.readQ 0).length 4 ∧ (tv.readQ 0).length ≤ 65536 ∧
    (tv.writeQ 0 (hex 5 1)).ConstantsOk ∧ CeilOf 2 ((tv.writeQ 0 (hex 5 1)).readQ 0).length 4 := by decide +kernel

theorem witness_Sub4RoundTrips :
    (∀ b ∈ [[], hex 8 5, hex 4 0, hex 4 8], (tv.writeQ 0 b).err = false ∧ (tv.writeQ 0 b).ConstantsOk ∧
      ((tv.writeQ 0 b).readQ 0).length ≤ 65536 ∧ ((tv.writeQ 0 b).readQ 0).length % 4 = 0) ∧
    (tv.writeQ 0 (hex 4 0)).readQ 0 = [false, false, false, false] ∧
    (tv.writeQ 0 (hex 4 8)).readQ 0 = [true, false, false, false] := by decide +kernel

theorem witness_PermMovesEveryBit :
    (tv.err = false ∧ tv.TableOk ∧ CeilOf 0 (tv.readQ 0).length tv.pw.toNat) ∧
    CeilOf 2 ((tv.writeQ 0 (hex 17 1)).readQ 0).length tv.pw.toNat ∧ tv.pw.toNat * 2 ≤ 65536 ∧
    (1 ≤ 1 ∧ 1 ≤ tv.pw.toNat) ∧ (1 ≤ 16 ∧ 16 ≤ tv.pw.toNat) := by decide +kernel

/-- A table of width 3, with which 65536 bits do not fit any more. -/
def three : State := { tv with pw := 3, ptab := fillTable tv.ptab 3 fun p => BitVec.ofNat 16 p }

theorem witness_PermMovesEveryBit_overflow :
    (three.err = false ∧ three.TableOk) ∧ (long three 65536).TableOk ∧
    CeilOf 21846 ((long three 65536).readQ 0).length three.pw.toNat ∧ 65536 < three.pw.toNat * 21846 := by
  refine ⟨by decide +kernel, by decide +kernel, ?_, by decide +kernel⟩
  rw [long_length]; decide +kernel

theorem witness_PermRoundTrips :
    tv.err = false ∧ tv.TableOk ∧ (tv.readQ 0).length ≤ 65536 ∧ (tv.readQ 0).length % tv.pw.toNat = 0 ∧
    ((tv.writeQ 0 (hex 32 5)).readQ 0).length % tv.pw.toNat = 0 := by decide +kernel

theorem witness_PdfltInstallsTheDefaultTable :
    (([1, 16, 256] : List Word).all fun w =>
      decide ({ tv with pws := w }.err = false ∧ 1 ≤ { tv with pws := w }.pws.toNat ∧
      { tv with pws := w }.pws.toNat ≤ 256)) ∧
    (([0, 257] : List Word).all fun w =>
      decide ({ tv with pws := w }.pws.toNat = 0 ∨ 256 < { tv with pws := w }.pws.toNat)) := by
  decide +kernel

/-- A staging table of width w is a bijection. -/
abbrev StagedOk (s : State) : Prop :=
  (∀ k : Fin 256, k.val < s.pws.toNat → 1 ≤ s.pstg[k].toNat ∧ s.pstg[k].toNat ≤ s.pws.toNat) ∧
  (∀ k l : Fin 256, k.val < s.pws.toNat → l.val < s.pws.toNat → k ≠ l → s.pstg[k] ≠ s.pstg[l])

theorem witness_PloadInstallsOnlyBijections :
    tv.err = false ∧ (1 ≤ tv.pws.toNat ∧ tv.pws.toNat ≤ 256) ∧
    (1 ≤ (staged 1 fun _ => 1).pws.toNat ∧ (staged 2 fun _ => 1).pws.toNat ≤ 256) ∧
    { tv with pws := 0 }.pws.toNat = 0 ∧ 256 < { tv with pws := 257 }.pws.toNat := by decide +kernel

theorem witness_PloadInstallsOnlyBijections_bijection : StagedOk (staged 1 fun _ => 1) := by
  have h : (staged 1 fun _ => 1).pws.toNat = 1 := by decide +kernel
  refine ⟨by decide +kernel, fun k l hk hl hkl => absurd (Fin.ext ?_) hkl⟩
  rw [h] at hk hl
  omega

theorem witness_PloadInstallsOnlyBijections_repeated : ¬ StagedOk (staged 2 fun _ => 1) := fun h =>
  h.2 0 1 (by decide +kernel) (by decide +kernel) (by decide) (by decide +kernel)

/-- A state whose next schedule has n keys of w bits. -/
def scheduling (n w : Word) (b : Bits) : State := { tv.writeQ 0 b with nr := n, rks := w }

theorem witness_KschedFollowsTheRecurrence :
    ([(0, 1), (64, 1024), (1, 40)] : List (Word × Word)).all fun p =>
      decide ((scheduling p.1 p.2 (hex 2 1)).err = false ∧ (scheduling p.1 p.2 (hex 2 1)).nr.toNat ≤ 64 ∧
      1 ≤ (scheduling p.1 p.2 (hex 2 1)).rks.toNat ∧ (scheduling p.1 p.2 (hex 2 1)).rks.toNat ≤ 1024 ∧
      (scheduling p.1 p.2 (hex 2 1)).readQ 0 = [false] ++ [true] ∧ [false].length = [true].length ∧
      1 ≤ [false].length) := by decide +kernel

theorem witness_KschedErrorsInOrder :
    (([(65, 1), (0, 0), (0, 1025)] : List (Word × Word)).all fun p => decide ((scheduling p.1 p.2 []).err = false ∧
      (64 < (scheduling p.1 p.2 []).nr.toNat ∨ (scheduling p.1 p.2 []).rks.toNat = 0 ∨
        1024 < (scheduling p.1 p.2 []).rks.toNat))) ∧
    (∀ b ∈ [[], [true], hex 3 1], (scheduling 64 1024 b).nr.toNat ≤ 64 ∧ 1 ≤ (scheduling 64 1024 b).rks.toNat ∧
      (scheduling 64 1024 b).rks.toNat ≤ 1024 ∧ (((scheduling 64 1024 b).readQ 0).length < 2 ∨
        ((scheduling 64 1024 b).readQ 0).length % 2 = 1)) := by decide +kernel

theorem witness_SchedulePrefixes : 1 ≤ 1 := by decide

theorem witness_RkgetCopiesARoundKey :
    k3.err = false ∧ k3.rkv = true ∧ 2 < k3.rkn.toNat ∧ k3.rk[2]? = some (hex 16 0x61B5) ∧
    0 < k3.rkn.toNat ∧ k3.rk[0]? = some (hex 16 0x9043) ∧ tv.rkv = false ∧ k3.rkn.toNat ≤ 3 := by decide +kernel

/-- The state of the Feistel and SPN witnesses: a block of 32 bits in q0. -/
def block : State := k3.writeQ 0 (hex 16 0x0123 ++ hex 16 0x4567)

theorem inv_block : block.Inv := by decide +kernel

theorem witness_FrndIsOneRound :
    block.err = false ∧ FeistelBlockOk block ∧ block.rkv = true ∧ 2 < block.rkn.toNat ∧ FeistelWidthsOk block ∧
    block.rk[2]? = some (hex 16 0x61B5) ∧ block.readQ 0 = hex 16 0x0123 ++ hex 16 0x4567 ∧
    (hex 16 0x0123).length = block.bs.toNat / 2 ∧ (hex 16 0x4567).length = block.bs.toNat / 2 := by decide +kernel

theorem witness_FeistelRoundsUndoEachOther :
    block.Inv ∧ block.err = false ∧ FeistelBlockOk block ∧ block.rkv = true ∧ 0 < block.rkn.toNat ∧
    FeistelWidthsOk block ∧ (block.readQ 0).length = block.bs.toNat := by decide +kernel

theorem witness_FeistelCipherIsItsRounds :
    block.Inv ∧ block.err = false ∧ FeistelReady block ∧ (block.readQ 0).length = block.bs.toNat := by decide +kernel

/-- A schedule of no rounds with a block of 2 bits, which has no width to fit. -/
def tiny : State := { k0.writeQ 0 (hex 2 1) with bs := 2 }

theorem witness_FeistelDecryptUndoesEncrypt :
    (block.Inv ∧ block.err = false ∧ FeistelReady block ∧ (block.readQ 0).length = block.bs.toNat) ∧
    (tiny.Inv ∧ FeistelReady tiny ∧ (tiny.readQ 0).length = tiny.bs.toNat ∧ tiny.rkn = 0) :=
  ⟨by decide +kernel, by decide +kernel⟩

theorem witness_FeistelErrorsInOrder :
    (([0, 1, 33, 65538] : List Word).all fun w =>
      decide ({ k3 with bs := w }.err = false ∧ ¬ FeistelBlockOk { k3 with bs := w })) ∧
    (FeistelBlockOk block ∧ { block with rkv := false }.rkv = false ∧ block.rkn.toNat ≤ 3) ∧
    (block.rkv = true ∧ 2 < block.rkn.toNat ∧ (k3.readQ 0).length ≠ k3.bs.toNat) ∧
    (FeistelBlockOk { block with bs := 34 } ∧ 0 < block.rkn.toNat ∧ ¬ FeistelWidthsOk { block with bs := 34 }) := by
  decide +kernel

theorem witness_FeistelErrorsInOrder_largest_block : FeistelBlockOk { k3 with bs := 65536 } := by decide +kernel

theorem witness_SrndIsThreeStagesPerChunk :
    (block.Inv ∧ block.err = false ∧ block.rkv = true ∧ 2 < block.rkn.toNat ∧ SpnWidthsOk block ∧
      block.rk[2]? = some (hex 16 0x61B5) ∧ CeilOf 2 (block.readQ 0).length block.rkw.toNat ∧
      block.rkw.toNat * 2 ≤ 65536) ∧
    CeilOf 1 ((k3.writeQ 0 [true]).readQ 0).length k3.rkw.toNat ∧ CeilOf 0 (k3.readQ 0).length k3.rkw.toNat := by
  decide +kernel

theorem witness_SrndIsXorThenSub4ThenPerm :
    (k3.writeQ 0 (hex 16 5)).Inv ∧ (k3.writeQ 0 (hex 16 5)).err = false ∧ (k3.writeQ 0 (hex 16 5)).rkv = true ∧
    2 < (k3.writeQ 0 (hex 16 5)).rkn.toNat ∧ SpnWidthsOk (k3.writeQ 0 (hex 16 5)) ∧
    ((k3.writeQ 0 (hex 16 5)).readQ 0).length = (k3.writeQ 0 (hex 16 5)).rkw.toNat ∧ (1 : QReg) ≠ 0 := by
  decide +kernel

theorem witness_SpnRoundsUndoEachOther :
    block.Inv ∧ block.err = false ∧ block.rkv = true ∧ 0 < block.rkn.toNat ∧ SpnWidthsOk block ∧
    (block.readQ 0).length % block.rkw.toNat = 0 := by decide +kernel

theorem witness_SpnCipherIsItsRounds :
    (block.Inv ∧ block.err = false ∧ SpnReady block ∧ CeilOf 2 (block.readQ 0).length block.rkw.toNat ∧
      block.rkw.toNat * 2 ≤ 65536) ∧
    ((k3.writeQ 0 (hex 24 5)).Inv ∧ CeilOf 2 ((k3.writeQ 0 (hex 24 5)).readQ 0).length k3.rkw.toNat) :=
  ⟨by decide +kernel, by decide +kernel⟩

theorem witness_SpnDecryptUndoesEncrypt :
    (block.Inv ∧ block.err = false ∧ SpnReady block ∧ CeilOf 2 (block.readQ 0).length block.rkw.toNat ∧
      block.rkw.toNat * 2 ≤ 65536) ∧
    (k0.Inv ∧ SpnReady { k0 with rkw := 1 } ∧ CeilOf 0 (k0.readQ 0).length 1) :=
  ⟨by decide +kernel, by decide +kernel⟩

/-- The schedule of K3 cut to 12-bit keys, with a table of width 12: 65536 bits need more than `QMAX`. -/
def k12 : State :=
  { tv with
    rk := [bitsOf 12 0x904, bitsOf 12 0x9CB], rkn := 2, rkw := 12, rkv := true, bs := 12
    pw := 12, ptab := fillTable tv.ptab 12 fun p => BitVec.ofNat 16 p }

theorem witness_SpnErrorsInOrder :
    (tv.err = false ∧ tv.rkv = false ∧ k3.rkn.toNat ≤ 3) ∧
    (k3.rkv = true ∧ 2 < k3.rkn.toNat ∧ ¬ SpnWidthsOk { k3 with pw := 3 } ∧ 0 < k3.rkn.toNat) ∧
    (k12.rkv = true ∧ 1 < k12.rkn.toNat ∧ SpnWidthsOk k12 ∧ SpnReady k12) := by decide +kernel

theorem witness_SpnErrorsInOrder_overflow :
    CeilOf 5462 ((long k12 65536).readQ 0).length k12.rkw.toNat ∧ 65536 < k12.rkw.toNat * 5462 := by
  rw [long_length]; decide +kernel

theorem witness_PadAppendsThePadLength :
    (([8, 2040] : List Word).all fun w =>
      decide ({ tv with bs := w }.err = false ∧ { tv with bs := w }.bs.toNat % 8 = 0 ∧
      8 ≤ { tv with bs := w }.bs.toNat ∧ { tv with bs := w }.bs.toNat ≤ 2040 ∧
      1 ≤ { tv with bs := w }.bs.toNat / 8 ∧
      ((tv.readQ 0).length + 8 * ({ tv with bs := w }.bs.toNat / 8)) % { tv with bs := w }.bs.toNat = 0)) ∧
    ((k3.writeQ 0 (hex 24 5)).readQ 0).length % 8 = 0 ∧
    (1 ≤ 1 ∧ 1 ≤ k3.bs.toNat / 8 ∧ (((k3.writeQ 0 (hex 24 5)).readQ 0).length + 8 * 1) % k3.bs.toNat = 0) ∧
    (([0, 7, 9, 2041, 2048] : List Word).all fun w =>
      decide ({ tv with bs := w }.bs.toNat % 8 ≠ 0 ∨ { tv with bs := w }.bs.toNat < 8 ∨ 2040 < { tv with bs := w }.bs.toNat)) ∧
    ((k3.writeQ 0 (hex 7 5)).readQ 0).length % 8 ≠ 0 := by decide +kernel

theorem witness_PadAppendsThePadLength_boundary :
    (((long k3 65528).readQ 0).length % 8 = 0 ∧ (((long k3 65528).readQ 0).length + 8 * 1) % k3.bs.toNat = 0 ∧
      ((long k3 65528).readQ 0).length + 8 * 1 ≤ 65536) ∧
    (((long k3 65536).readQ 0).length % 8 = 0 ∧ (((long k3 65536).readQ 0).length + 8 * 4) % k3.bs.toNat = 0 ∧
      4 ≤ k3.bs.toNat / 8 ∧ 65536 < ((long k3 65536).readQ 0).length + 8 * 4) := by
  simp only [long_length]; decide +kernel

theorem witness_UnpadRemovesTheDeclaredLength :
    tv.err = false ∧
    ((tv.writeQ 0 (hex 16 0x4101)).readQ 0 = hex 8 0x41 ++ hex 8 1 ∧ (hex 8 0x41 ++ hex 8 1).length % 8 = 0 ∧
      1 ≤ 1 ∧ (hex 8 1).length = 8 * 1 ∧ val (slice (hex 8 1) ((hex 8 1).length - 8) (hex 8 1).length) = 1) ∧
    ((tv.writeQ 0 (hex 16 0x0202)).readQ 0 = [] ++ hex 16 0x0202 ∧ (hex 16 0x0202).length = 8 * 2 ∧
      val (slice (hex 16 0x0202) ((hex 16 0x0202).length - 8) (hex 16 0x0202).length) = 2) ∧
    ((tv.writeQ 0 (hex 16 0x4100)).readQ 0 = hex 8 0x41 ++ hex 8 0 ∧ (hex 8 0x41).length % 8 = 0 ∧
      (hex 8 0).length = 8 ∧ val (hex 8 0) = 0) ∧
    ((tv.writeQ 0 (hex 16 0x4103)).readQ 0 = hex 8 0x41 ++ hex 8 3 ∧ (hex 8 0x41).length / 8 + 1 < val (hex 8 3)) ∧
    tv.readQ 0 = [] ∧ ((tv.writeQ 0 (hex 7 1)).readQ 0).length % 8 ≠ 0 := by decide +kernel

/-- The state of the chaining witnesses: two blocks in q0 and a one-byte IV in q1. -/
def message : State := with2 k3 (hex 64 0x0123456701234567) (hex 8 0xFF)

theorem witness_EcbCiphersEachBlockAlone :
    (message.Inv ∧ message.err = false ∧ ChainReady message .feistel ∧ ChainReady message .spn ∧
      CeilOf 2 (message.readQ 0).length message.bs.toNat ∧ message.bs.toNat * 2 ≤ 65536) ∧
    CeilOf 1 ((k3.writeQ 0 [true]).readQ 0).length k3.bs.toNat := by decide +kernel

theorem witness_BlockFunctionsAreTheCipherCommands :
    block.err = false ∧ (block.readQ 0).length = block.bs.toNat ∧ ChainReady block .feistel ∧
    ChainReady block .spn := by decide +kernel

theorem witness_EcbDecryptUndoesEncrypt :
    message.Inv ∧ message.err = false ∧ ChainReady message .feistel ∧ ChainReady message .spn ∧
    (message.readQ 0).length % message.bs.toNat = 0 := by decide +kernel

theorem witness_CbcChainsOnCiphertext :
    message.Inv ∧ message.err = false ∧ ChainReady message .feistel ∧ ChainReady message .spn ∧
    (message.readQ 1).length ≤ message.bs.toNat ∧ CeilOf 2 (message.readQ 0).length message.bs.toNat ∧
    message.bs.toNat * 2 ≤ 65536 := by decide +kernel

theorem witness_CbcChainsOnCiphertext_longest_iv :
    (with2 k3 (hex 33 1) (hex 32 1)).Inv ∧ ((with2 k3 (hex 33 1) (hex 32 1)).readQ 1).length ≤ k3.bs.toNat ∧
    CeilOf 2 ((with2 k3 (hex 33 1) (hex 32 1)).readQ 0).length k3.bs.toNat := by decide +kernel

theorem witness_CbcDecryptUndoesEncrypt :
    message.Inv ∧ message.err = false ∧ ChainReady message .feistel ∧ ChainReady message .spn ∧
    (message.readQ 0).length % message.bs.toNat = 0 ∧ (message.readQ 1).length ≤ message.bs.toNat ∧
    (2 : QReg) ≠ 1 := by decide +kernel

theorem witness_CbcIvChangesTheFirstBlock :
    message.Inv ∧ message.err = false ∧ ChainReady message .feistel ∧ ChainReady message .spn ∧
    message.readQ 0 ≠ [] ∧ CeilOf 2 (message.readQ 0).length message.bs.toNat ∧ message.bs.toNat * 2 ≤ 65536 ∧
    (message.readQ 1).length ≤ message.bs.toNat ∧ (message.readQ 2).length ≤ message.bs.toNat ∧
    padL (message.readQ 1) message.bs.toNat ≠ padL (message.readQ 2) message.bs.toNat := by decide +kernel

theorem witness_CbcIvChangesTheFirstBlock_one_bit :
    (with2 k3 [true] [true]).Inv ∧ (with2 k3 [true] [true]).readQ 0 ≠ [] ∧
    CeilOf 1 ((with2 k3 [true] [true]).readQ 0).length k3.bs.toNat ∧ k3.bs.toNat * 1 ≤ 65536 ∧
    padL ((with2 k3 [true] [true]).readQ 1) k3.bs.toNat ≠ padL ((with2 k3 [true] [true]).readQ 2) k3.bs.toNat := by
  decide +kernel

theorem witness_ChainingErrorsInOrder :
    message.err = false ∧
    (([0, 1, 33, 65538] : List Word).all fun w => decide (¬ FeistelBlockOk { k3 with bs := w })) ∧
    ({ k3 with bs := 0 }.bs.toNat = 0 ∧ 65536 < { k3 with bs := 65537 }.bs.toNat) ∧
    (FeistelBlockOk { tv with bs := 2 } ∧ tv.rkv = false ∧ 1 ≤ { tv with bs := 1 }.bs.toNat ∧
      { tv with bs := 65536 }.bs.toNat ≤ 65536) ∧
    (FeistelBlockOk { k3 with bs := 34 } ∧ k3.rkv = true ∧ ¬ FeistelReady { k3 with bs := 34 }) ∧
    (1 ≤ { k3 with bs := 34 }.bs.toNat ∧ { k3 with bs := 34 }.bs.toNat ≤ 65536 ∧ ¬ ChainReady { k3 with bs := 34 } .spn) ∧
    (ChainReady message .feistel ∧ CeilOf 2 (message.readQ 0).length message.bs.toNat ∧
      (with2 k3 [] (hex 33 1)).bs.toNat < ((with2 k3 [] (hex 33 1)).readQ 1).length) := by decide +kernel

theorem witness_ChainingErrorsInOrder_overflow :
    ChainReady (long k12 65536) .spn ∧ ((long k12 65536).readQ 1).length ≤ k12.bs.toNat ∧
    CeilOf 5462 ((long k12 65536).readQ 0).length k12.bs.toNat ∧ 65536 < k12.bs.toNat * 5462 := by
  refine ⟨by decide +kernel, by decide +kernel, ?_, by decide +kernel⟩
  rw [long_length]; decide +kernel

/-- With blocks of 8 bits and no rounds both ciphers are ready too: the smallest block `pad` works with. -/
theorem witness_WholeMessagesRoundTrip :
    (message.Inv ∧ message.err = false ∧ ChainReady message .feistel ∧ ChainReady message .spn ∧
      message.bs.toNat % 8 = 0 ∧ 8 ≤ message.bs.toNat ∧ message.bs.toNat ≤ 2040 ∧
      (message.readQ 0).length % 8 = 0 ∧ (message.readQ 0).length < message.bs.toNat * 3 ∧
      message.bs.toNat * 3 ≤ (message.readQ 0).length + message.bs.toNat ∧ message.bs.toNat * 3 ≤ 65536 ∧
      (message.readQ 1).length ≤ message.bs.toNat ∧ (2 : QReg) ≠ 1) ∧
    ({ k0 with bs := 8, rkw := 8 }.Inv ∧ ChainReady { k0 with bs := 8, rkw := 8 } .feistel ∧
      ChainReady { k0 with bs := 8, rkw := 8 } .spn ∧ 8 ≤ { k0 with bs := 8 }.bs.toNat) ∧
    ({ k0 with bs := 2040 }.bs.toNat ≤ 2040 ∧ ChainReady { k0 with bs := 2040 } .feistel) :=
  ⟨by decide +kernel, by decide +kernel, by decide +kernel⟩

theorem witness_NopChangesNothing :
    k3.err = false ∧ (0xE0000001 : Word).extractLsb' 26 6 = 0x38 ∧ (0xE0000001 : Word) ≠ 0xE0000000 ∧
    (0xE3FFFFFF : Word).extractLsb' 26 6 = 0x38 := by decide +kernel

theorem witness_ClrerrClearsTheLatch :
    (k3.raise .overflow 5).err = true ∧ Instr.nop ≠ .clrerr ∧
    after (step ((k3.raise .overflow 5).withFetchWord 32 0xE4000000)) (fun t => t.err) = some false ∧
    (0xE4000001 : Word).extractLsb' 26 6 = 0x39 ∧ (0xE4000001 : Word) ≠ 0xE4000000 ∧
    k3.err = false := by decide +kernel

theorem witness_MovCopiesARegister : k3.err = false := by decide +kernel

end Sys2Proof.Tests
end

section
/-! SUPPORT. Lengths of the results of the codec, the scheduler and the permutation tables. -/

namespace Sys2Proof.Machine

/-! ### Lengths -/

theorem ceilDiv_le (len n w : Nat) (h : len ≤ w * n) : w * ceilDiv len w ≤ w * n := by
  rcases Nat.eq_zero_or_pos w with rfl | hw
  · simp
  · have hlt : w * ceilDiv len w < w * (n + 1) := by
      have := (ceilDiv_spec len w hw).2
      rw [Nat.mul_add, Nat.mul_one]; omega
    exact Nat.mul_le_mul_left w (Nat.lt_succ_iff.mp (Nat.lt_of_mul_lt_mul_left hlt))

/-- Rounding a length up to a multiple of m does not take it past a multiple of m. -/
theorem mul_ceilDiv_le_of_mod (len m w : Nat) (h : len ≤ w) (hm : w % m = 0) : m * ceilDiv len m ≤ w := by
  obtain ⟨n, rfl⟩ := Nat.dvd_of_mod_eq_zero hm
  exact ceilDiv_le len n m h

theorem flatMap_length_le {α : Type} (l : List α) (f : α → Bits) (w : Nat) (h : ∀ c ∈ l, (f c).length ≤ w) :
    (l.flatMap f).length ≤ w * l.length := by
  rw [List.length_flatMap, Nat.mul_comm, ← smul_eq_mul, ← List.length_map (f := fun c => (f c).length)]
  exact List.sum_le_card_nsmul _ w fun _ hx => by
    obtain ⟨c, hc, rfl⟩ := List.mem_map.mp hx
    exact h c hc

/-- A fold of an operation that keeps a bound on lengths keeps it. -/
theorem foldl_length_le (keys : List Bits) (f : Bits → Bits → Bits) (b : Bits) (n : Nat) (hb : b.length ≤ n)
    (hf : ∀ x, x.length ≤ n → ∀ k ∈ keys, (f x k).length ≤ n) : (keys.foldl f b).length ≤ n := by
  induction keys generalizing b with
  | nil => exact hb
  | cons k keys ih =>
    exact ih (f b k) (hf b hb k (by simp)) fun x hx k' hk' => hf x hx k' (by simp [hk'])

@[simp] theorem ofBytes_length (c : List Nat) : (ofBytes c).length = 8 * c.length := by
  simp [ofBytes, List.length_flatMap, Nat.mul_comm]

@[simp] theorem hexBits_length (c : List Nat) : (hexBits c).length = 4 * c.length := by
  simp [hexBits, List.length_flatMap, Nat.mul_comm]

@[simp] theorem bytesOf_length (t : Bits) : (bytesOf t).length = t.length / 8 := by
  simp [bytesOf, chunks]

theorem decimalValue_lt (c : List Nat) (h : c.all isDec = true) : decimalValue c < 10 ^ c.length := by
  induction c using List.reverseRecOn with
  | nil => simp [decimalValue]
  | append_singleton c d ih =>
    simp only [List.all_append, List.all_cons, List.all_nil, Bool.and_true, Bool.and_eq_true, isDec,
      decide_eq_true_eq] at h
    obtain ⟨hc, -, hd⟩ := h
    have hv : decimalValue (c ++ [d]) = 10 * decimalValue c + (d - 0x30) := by simp [decimalValue]
    have := ih hc
    rw [hv, List.length_append, List.length_singleton, pow_succ]
    omega

theorem minBits_length_le (v n : Nat) (hn : 1 ≤ n) (h : v < 2 ^ n) : (minBits v).length ≤ n := by
  rw [minBits, bitsOf_length]
  rcases eq_or_ne v 0 with rfl | hv
  · simpa using hn
  · exact (Nat.log2_lt hv).mpr h

/-- No format makes more bits than the text has (rule R121): a decimal digit stands for less than four bits. -/
theorem detect_length_le (c : List Nat) (rule : Nat) (b : Bits) (h : detect c = .ok (rule, b)) :
    b.length ≤ 8 * c.length := by
  unfold detect at h
  split at h
  next => cases h; simp; omega
  next hbin =>
  split at h
  next =>
    split at h
    next => cases h; simp; omega
    next => cases h
  next =>
  split at h
  next => cases h; simp; omega
  next =>
  split at h
  next hdec =>
    cases h
    have hpos : 1 ≤ c.length := by
      rcases c with _ | ⟨d, c⟩
      · simp at hbin
      · simp
    refine minBits_length_le _ _ (by omega) ((decimalValue_lt c hdec).trans_le ?_)
    calc 10 ^ c.length ≤ (2 ^ 8) ^ c.length := Nat.pow_le_pow_left (by omega) _
      _ = 2 ^ (8 * c.length) := (pow_mul 2 8 _).symm
  next => cases h; simp

theorem hexText_length (b : Bits) : (hexText b).length = 8 * ceilDiv b.length 4 := by
  have h : (padL b (4 * ceilDiv b.length 4)).length = 4 * ceilDiv b.length 4 :=
    padL_length b _ (ceilDiv_spec _ _ (by omega)).1
  rw [hexText, ofBytes_length, List.length_map, chunks_length _ _ 4 (by omega) h]

@[simp] theorem localWords_length (i n loc : Nat) : (localWords i n loc).length = 32 * n := by
  induction n generalizing loc with
  | zero => rfl
  | succ n ih => simp [localWords, ih]; omega

@[simp] theorem roundKeyFrom_length (seed i size : Nat) : (roundKeyFrom seed i size).length = size := by
  have := (ceilDiv_spec size 32 (by omega)).1
  simp [roundKeyFrom]; omega

@[simp] theorem scheduleFrom_length (size n i seed : Nat) : (scheduleFrom size n i seed).1.length = n := by
  induction n generalizing i seed with
  | zero => rfl
  | succ n ih => simp [scheduleFrom, ih]

theorem mem_scheduleFrom_length (size n i seed : Nat) : ∀ k ∈ (scheduleFrom size n i seed).1, k.length = size := by
  induction n generalizing i seed with
  | zero => simp [scheduleFrom]
  | succ n ih =>
    intro k hk
    rcases List.mem_cons.mp hk with rfl | hk
    · exact roundKeyFrom_length _ _ _
    · exact ih _ _ k hk

/-! ### Permutation tables -/

theorem isBijection_iff (entries : List Nat) (w : Nat) :
    isBijection entries w = true ↔ (∀ d ∈ entries, 1 ≤ d ∧ d ≤ w) ∧ entries.Nodup := by
  simp [isBijection]

/-- The first w entries of a table filled up to w (rule R147). -/
theorem tableEntries_fillTable (t : Vector Entry Config.pwMax) (w : Nat) (f : Nat → Entry) (hw : w ≤ Config.pwMax) :
    tableEntries (fillTable t w f) w = (List.range w).map fun k => (f (k + 1)).toNat := by
  apply List.ext_getElem
  · simpa [tableEntries] using hw
  · intro k hk _
    have hkw : k < w := by simp [tableEntries] at hk; omega
    simp [tableEntries, fillTable, hkw]

/-- Filling a table with the entries of another one copies them (rule R148). -/
theorem tableEntries_fillTable_entryAt (t u : Vector Entry Config.pwMax) (w : Nat) (hw : w ≤ Config.pwMax) :
    tableEntries (fillTable t w (entryAt u w)) w = tableEntries u w := by
  rw [tableEntries_fillTable t w _ hw]
  apply List.ext_getElem
  · simpa [tableEntries] using hw
  · intro k hk _
    have hkw : k < w := by simpa using hk
    have hk' : k < Config.pwMax := by omega
    simp [tableEntries, entryAt, List.getD, hk', hkw]

/-- The default table of every width is a bijection of {1..w} when `PBOX16` is one (rules R8 and R147). -/
theorem State.defaultEntry_isBijection (s : State) (w : Nat) (hw : w ≤ Config.pwMax) (hc : s.ConstantsOk) :
    isBijection ((List.range w).map fun k => (s.defaultEntry w (k + 1)).toNat) w = true := by
  obtain ⟨-, -, hbox⟩ := hc
  by_cases h16 : w = 16
  · subst h16
    have heq : ((List.range 16).map fun k => (s.defaultEntry 16 (k + 1)).toNat) = s.pbox16.toList.map BitVec.toNat := by
      apply List.ext_getElem
      · simp
      · intro k hk _
        have hk : k < 16 := by simpa using hk
        simp [State.defaultEntry, List.getD, hk]
    rw [heq, hbox]
  · have heq : ((List.range w).map fun k => (s.defaultEntry w (k + 1)).toNat) = (List.range w).map Nat.succ := by
      refine List.map_congr_left fun k hk => ?_
      have hlt : k < w := List.mem_range.mp hk
      have hmax : w ≤ 256 := hw
      simp [State.defaultEntry, h16]
      omega
    rw [heq, isBijection_iff]
    refine ⟨fun d hd => ?_, List.nodup_range.map Nat.succ_injective⟩
    obtain ⟨k, hk, rfl⟩ := List.mem_map.mp hd
    have := List.mem_range.mp hk
    omega

end Sys2Proof.Machine
end

section
/-! SUPPORT. What each update of the state, reset and running a command do to the invariant. -/

namespace Sys2Proof.Machine

/-! ### What each update of the state does to the invariant -/

/-- A q register holds at most `QMAX` bits (rule R21). -/
theorem State.readQ_length_le (s : State) (hs : s.Inv) (r : QReg) : (s.readQ r).length ≤ Config.qMax := hs.1 r

theorem State.writeQ_inv (s : State) (r : QReg) (b : Bits) (hs : s.Inv) (hb : b.length ≤ Config.qMax) :
    (s.writeQ r b).Inv := by
  obtain ⟨hq, hrest⟩ := hs
  refine ⟨fun r' => ?_, hrest⟩
  rw [s.readQ_writeQ]
  split
  · exact hb
  · exact hq r'

theorem State.setPamb_inv (s : State) (v : Bool) (hs : s.Inv) : (s.setPamb v).Inv := hs

theorem State.setFmt_inv (s : State) (rule : Nat) (hs : s.Inv) : (s.setFmt rule).Inv := hs

theorem State.raise_inv (s : State) (e : CmdError) (w : Word) (hs : s.Inv) : (s.raise e w).Inv := by
  obtain ⟨hq, hk, ht, -, hc⟩ := hs
  exact ⟨hq, hk, ht, ⟨fun h => by simp at h, fun _ => errorCode_ne_zero e⟩, hc⟩

theorem State.clearLatch_inv (s : State) (hs : s.Inv) : s.clearLatch.Inv := by
  obtain ⟨hq, hk, ht, -, hc⟩ := hs
  exact ⟨hq, hk, ht, ⟨fun _ => ⟨rfl, rfl⟩, fun h => by simp at h⟩, hc⟩

/-- A new key file keeps the invariant when it holds `NR` keys of `RKS` bits, within the file's limits (rule R163). -/
theorem State.installSchedule_inv (s : State) (keys : List Bits) (seed : Nat) (hs : s.Inv)
    (hn : s.nr.toNat ≤ Config.nrMax) (hw : 1 ≤ s.rks.toNat ∧ s.rks.toNat ≤ Config.rksMax)
    (hl : keys.length = s.nr.toNat) (hk : ∀ k ∈ keys, k.length = s.rks.toNat) :
    (s.installSchedule keys seed).Inv := by
  obtain ⟨hq, -, ht, he, hc⟩ := hs
  exact ⟨hq, ⟨hl, hn, hw.2, hk, fun _ => hw.1, fun h => by simp at h⟩, ht, he, hc⟩

theorem tableEntries_defaultTable (pbox16 : Vector Entry 16) :
    tableEntries (defaultTable pbox16) 16 = pbox16.toList.map BitVec.toNat := by
  have h : (defaultTable pbox16).toList.take 16 = pbox16.toList := by
    rw [defaultTable, Vector.toList_append]
    exact List.take_left' pbox16.length_toList
  rw [tableEntries, h]

/-- The reset state of a CORE whose tables meet rules R7 and R8 (rule R43). -/
theorem State.resetWith_inv (sbox : Vector (BitVec 4) 16) (pbox16 : Vector Entry 16)
    (hc : (State.resetWith sbox pbox16).ConstantsOk) : (State.resetWith sbox pbox16).Inv := by
  have ⟨_, _, hbox⟩ := hc
  have ht : tableEntries (State.resetWith sbox pbox16).ptab 16 = pbox16.toList.map BitVec.toNat :=
    tableEntries_defaultTable pbox16
  refine ⟨fun r => ?_, ?_, ⟨Nat.le_add_left 1 15, Nat.le_add_right 16 240, ?_⟩, ?_, hc⟩
  · simp [State.resetWith, State.readQ]
  · simp [State.KeyFileOk, State.resetWith]
  · exact (congrArg (isBijection · 16) ht).trans hbox
  · exact ⟨fun _ => ⟨rfl, rfl⟩, fun h => by cases h⟩

theorem State.afterRst_inv (s : State) (hs : s.Inv) : s.afterRst.Inv := by
  obtain ⟨-, -, -, -, hc⟩ := hs
  exact State.resetWith_inv s.sbox s.pbox16 hc

/-! ### Running a command -/

theorem State.unlessLatched_inv (s t : State) (hs : s.Inv) (ht : t.Inv) : (s.unlessLatched t).Inv := by
  unfold State.unlessLatched
  split
  · exact hs
  · exact ht

/-- A command keeps the invariant when its body does: it is dropped, or runs its body, or raises an error. -/
theorem State.command_inv (s t : State) (i : Instr) (body : Except CmdError State) (hs : s.Inv)
    (hb : ∀ u, body = .ok u → u.Inv) (h : s.command i body = .next t) : t.Inv := by
  obtain ⟨-, rfl⟩ | ⟨-, hok⟩ | ⟨-, e, -, rfl⟩ := s.command_cases t i body h
  · exact hs
  · exact hb t hok
  · exact s.raise_inv e _ hs

/-- A check at the head of a command's body: the body answers a state when the check passes and the rest answers it. -/
@[simp] theorem ite_error_eq_ok {c : Prop} [Decidable c] (e : CmdError) (x : Except CmdError State) (t : State) :
    (if c then .error e else x) = .ok t ↔ ¬ c ∧ x = .ok t := by
  split <;> simp [*]

end Sys2Proof.Machine
end

section
/-! SUPPORT. The round engines, padding and chaining make no more bits than the checks allow. -/

namespace Sys2Proof.Machine

/-! ### The engines make no more bits than they are given -/

theorem State.mem_roundKeys_length (s : State) (hs : s.KeyFileOk) : ∀ k ∈ s.roundKeys, k.length = s.rkw.toNat := by
  obtain ⟨-, -, -, hk, -⟩ := hs
  exact fun k h => hk k (List.mem_of_mem_take h)

theorem State.rkw_pos (s : State) (hs : s.KeyFileOk) (hv : s.rkv = true) : 1 ≤ s.rkw.toNat := by
  obtain ⟨-, -, -, -, hpos, -⟩ := hs
  exact hpos hv

/-- A round key fits a q register: `RKS_MAX` is below `QMAX` (rules R9 and R35). -/
theorem State.rkw_le (s : State) (hs : s.KeyFileOk) : s.rkw.toNat ≤ Config.qMax := by
  obtain ⟨-, -, hle, -⟩ := hs
  exact hle.trans (by decide)

/-- Entry i of the key file is a key of `RKW` bits where the command finds one. -/
theorem State.roundKey_length (s : State) (imm : Nat) (hs : s.KeyFileOk) (h : s.keyMissing imm = false) :
    (s.roundKey imm).length = s.rkw.toNat := by
  obtain ⟨hl, -, -, hk, -⟩ := hs
  obtain ⟨-, hi⟩ := (s.keyMissing_eq_false imm).mp h
  have hi' : imm < s.rk.length := hl ▸ hi
  have hget : s.roundKey imm = s.rk[imm] := by simp [State.roundKey, List.getD, hi']
  rw [hget]
  exact hk _ (List.getElem_mem hi')

theorem State.feistelRound_length_le (s : State) (b k : Bits) : (s.feistelRound b k).length ≤ b.length := by
  simp [State.feistelRound]; omega

theorem State.feistelRoundInv_length_le (s : State) (b k : Bits) : (s.feistelRoundInv b k).length ≤ b.length := by
  simp [State.feistelRoundInv]; omega

theorem State.feistelEnc_length_le (s : State) (b : Bits) : (s.feistelEnc b).length ≤ b.length :=
  foldl_length_le _ _ b _ le_rfl fun x hx k _ => (s.feistelRound_length_le x k).trans hx

theorem State.feistelDec_length_le (s : State) (b : Bits) : (s.feistelDec b).length ≤ b.length :=
  foldl_length_le _ _ b _ le_rfl fun x hx k _ => (s.feistelRoundInv_length_le x k).trans hx

/-- One forward SPN round of one chunk stays within the key width, which is a multiple of 4 and of `PW` (rule R182). -/
theorem State.spnChunk_length_le (s : State) (c k : Bits) (ht : 1 ≤ s.pw.toNat) (hw : s.spnWidthsBad = false)
    (hk : k.length = s.rkw.toNat) : (s.spnChunk c k).length ≤ s.rkw.toNat := by
  obtain ⟨h4, hpw⟩ := s.spnWidthsBad_eq_false.mp hw
  have hsub : (substitute s.sbox false (xorBits c k)).length ≤ s.rkw.toNat := by
    rw [substitute_length]
    exact mul_ceilDiv_le_of_mod _ 4 _ (by simp [hk]) h4
  rw [State.spnChunk, State.roundFunction, permute_length _ _ _ _ ht]
  exact mul_ceilDiv_le_of_mod _ _ _ hsub hpw

theorem State.spnChunkInv_length_le (s : State) (c k : Bits) (hk : k.length = s.rkw.toNat) :
    (s.spnChunkInv c k).length ≤ s.rkw.toNat := by
  simp [State.spnChunkInv, hk]

/-- One SPN round makes at most the bits of its operand in whole chunks (rule R181). -/
theorem State.spnRound_length_le (s : State) (inverse : Bool) (x k : Bits) (ht : 1 ≤ s.pw.toNat)
    (hw : s.spnWidthsBad = false) (hk : k.length = s.rkw.toNat) (hrkw : 1 ≤ s.rkw.toNat) :
    (s.spnRound inverse x k).length ≤ s.rkw.toNat * ceilDiv x.length s.rkw.toNat := by
  have hn := chunks_length _ _ _ hrkw (padRMult_length x _ hrkw)
  rw [← hn]
  refine flatMap_length_le _ _ _ fun c _ => ?_
  cases inverse
  · exact s.spnChunk_length_le c k ht hw hk
  · exact s.spnChunkInv_length_le c k hk

/-- What the SPN commands have checked or know from the invariant before they use a round key. -/
def State.SpnUsable (s : State) : Prop :=
  1 ≤ s.rkw.toNat ∧ 1 ≤ s.pw.toNat ∧ (∀ k ∈ s.roundKeys, k.length = s.rkw.toNat) ∧
    (s.roundKeys ≠ [] → s.spnWidthsBad = false)

theorem State.spnUsable_of_checks (s : State) (hs : s.Inv) (h : s.spnChecks s.rkn.toNat = none) : s.SpnUsable := by
  obtain ⟨-, hkf, ⟨hpw, -⟩, -, -⟩ := hs
  obtain ⟨hv, hwid⟩ := (s.spnChecks_eq_none _).mp h
  refine ⟨s.rkw_pos hkf hv, hpw, s.mem_roundKeys_length hkf, fun hne => hwid ?_⟩
  rcases Nat.eq_zero_or_pos s.rkn.toNat with h0 | hpos
  · exact absurd (by simp [State.roundKeys, h0]) hne
  · exact hpos

/-- The rounds of a whole SPN cipher, in any order of the keys, stay within the whole chunks of the operand. -/
theorem State.spnRounds_length_le (s : State) (inverse : Bool) (keys : List Bits) (x : Bits) (hu : s.SpnUsable)
    (hsub : ∀ k ∈ keys, k ∈ s.roundKeys) :
    (keys.foldl (s.spnRound inverse) (padRMult x s.rkw.toNat)).length ≤
      s.rkw.toNat * ceilDiv x.length s.rkw.toNat := by
  obtain ⟨hrkw, hpw, hk, hwid⟩ := hu
  refine foldl_length_le _ _ _ _ (padRMult_length x _ hrkw).le fun y hy k hmem => ?_
  have hmem := hsub k hmem
  exact (s.spnRound_length_le inverse y k hpw (hwid (List.ne_nil_of_mem hmem)) (hk k hmem) hrkw).trans
    (ceilDiv_le _ _ _ hy)

theorem State.spnEnc_length_le (s : State) (x : Bits) (hu : s.SpnUsable) :
    (s.spnEnc x).length ≤ s.rkw.toNat * ceilDiv x.length s.rkw.toNat :=
  s.spnRounds_length_le false _ x hu fun _ => id

theorem State.spnDec_length_le (s : State) (x : Bits) (hu : s.SpnUsable) :
    (s.spnDec x).length ≤ s.rkw.toNat * ceilDiv x.length s.rkw.toNat :=
  s.spnRounds_length_le true _ x hu fun _ => List.mem_reverse.mp

/-! ### Padding and chaining -/

theorem padMessage_length (b : Nat) (m : Bits) :
    (padMessage b m).length = m.length + 8 * padLength b (m.length / 8) := by
  rw [padMessage, List.length_append, flatten_length 8 _ fun c hc => by rw [List.eq_of_mem_replicate hc, bitsOf_length],
    List.length_replicate]

/-- A message is split into `ceil(|m| / BS)` blocks of `BS` bits (rule R194). -/
theorem splitBlocks_length (bs : Nat) (m : Bits) (h : 1 ≤ bs) :
    (splitBlocks bs m).length = ceilDiv m.length bs ∧ ∀ c ∈ splitBlocks bs m, c.length = bs := by
  have hp : (padR m (ceilDiv m.length bs * bs)).length = bs * ceilDiv m.length bs := by
    rw [Nat.mul_comm]; exact padR_length _ _ (ceilDiv_spec _ _ h).1
  exact ⟨chunks_length _ _ _ h hp, mem_chunks_length _ _ _ h hp⟩

/-- A block function makes no block longer than `BS` bits. -/
def BlockBounded (bs : Nat) (f : Bits → Bits) : Prop := ∀ b, b.length ≤ bs → (f b).length ≤ bs

theorem cbcEncrypt_length_le (bs : Nat) (e : Bits → Bits) (he : BlockBounded bs e) (prev : Bits) (blocks : List Bits)
    (hb : ∀ b ∈ blocks, b.length = bs) : (cbcEncrypt e prev blocks).length ≤ bs * blocks.length := by
  induction blocks generalizing prev with
  | nil => simp [cbcEncrypt]
  | cons b rest ih =>
    have hhead := he (xorBits b prev) (by simp [hb b])
    have htail := ih (e (xorBits b prev)) fun c hc => hb c (by simp [hc])
    rw [cbcEncrypt, List.length_append, List.length_cons, Nat.mul_add, Nat.mul_one]
    omega

theorem cbcDecrypt_length_le (bs : Nat) (d : Bits → Bits) (hd : BlockBounded bs d) (prev : Bits) (blocks : List Bits)
    (hb : ∀ b ∈ blocks, b.length = bs) : (cbcDecrypt d prev blocks).length ≤ bs * blocks.length := by
  induction blocks generalizing prev with
  | nil => simp [cbcDecrypt]
  | cons c rest ih =>
    have hhead := hd c (hb c (by simp)).le
    have htail := ih c fun c' hc => hb c' (by simp [hc])
    rw [cbcDecrypt, List.length_append, xorBits_length, List.length_cons, Nat.mul_add, Nat.mul_one]
    omega

theorem State.chainChecks_bs (s : State) (c : Cipher) (h : s.chainChecks c = none) : 1 ≤ s.bs.toNat := by
  cases c with
  | feistel =>
    obtain ⟨hb, -⟩ := (s.feistelChecks_eq_none _).mp h
    have := s.badFeistelBlock_eq_false.mp hb
    omega
  | spn =>
    obtain ⟨⟨hb, -⟩, -⟩ := s.chainChecks_spn_eq_none.mp h
    exact hb

/-- After `chain_checks` both block functions of a cipher keep blocks within `BS` bits (rules R195 and R196): a Feistel
round never lengthens its block, and `BS` is a multiple of the SPN key width. -/
theorem State.blockFunctions_bounded (s : State) (c : Cipher) (hs : s.Inv) (h : s.chainChecks c = none) :
    BlockBounded s.bs.toNat (s.encBlock c) ∧ BlockBounded s.bs.toNat (s.decBlock c) := by
  cases c with
  | feistel => exact ⟨fun b hb => (s.feistelEnc_length_le b).trans hb, fun b hb => (s.feistelDec_length_le b).trans hb⟩
  | spn =>
    obtain ⟨-, hchk, hmod⟩ := s.chainChecks_spn_eq_none.mp h
    have hu := s.spnUsable_of_checks hs hchk
    exact ⟨fun b hb => (s.spnEnc_length_le b hu).trans (mul_ceilDiv_le_of_mod _ _ _ hb hmod),
      fun b hb => (s.spnDec_length_le b hu).trans (mul_ceilDiv_le_of_mod _ _ _ hb hmod)⟩


end Sys2Proof.Machine
end

section
/-! PROOF. Every step keeps the invariant (O19). -/

namespace Sys2Proof.Machine

/-! ### The bodies of the commands -/

theorem State.sub4_inv (s t : State) (inverse : Bool) (rd rs1 : QReg) (hs : s.Inv)
    (h : s.sub4 inverse rd rs1 = .ok t) : t.Inv := by
  simp only [State.sub4, ite_error_eq_ok, Except.ok.injEq, Bool.not_eq_true', Bool.not_eq_false, fitsQ_iff] at h
  obtain ⟨hfit, rfl⟩ := h
  exact s.writeQ_inv rd _ hs (by rwa [substitute_length])

theorem State.perm_inv (s t : State) (inverse : Bool) (rd rs1 : QReg) (hs : s.Inv)
    (h : s.perm inverse rd rs1 = .ok t) : t.Inv := by
  have ⟨_, _, ⟨hpw, _⟩, _⟩ := hs
  simp only [State.perm, ite_error_eq_ok, Except.ok.injEq, Bool.not_eq_true', Bool.not_eq_false, fitsQ_iff] at h
  obtain ⟨hfit, rfl⟩ := h
  exact s.writeQ_inv rd _ hs (by rwa [permute_length _ _ _ _ hpw])

theorem State.oneFeistelRound_inv (s t : State) (inverse : Bool) (rd rs1 : QReg) (imm : Nat) (hs : s.Inv)
    (h : s.oneFeistelRound inverse rd rs1 imm = .ok t) : t.Inv := by
  simp only [State.oneFeistelRound, ite_error_eq_ok, Except.ok.injEq] at h
  obtain ⟨-, -, -, -, rfl⟩ := h
  refine s.writeQ_inv rd _ hs ?_
  cases inverse
  · exact (s.feistelRound_length_le _ _).trans (s.readQ_length_le hs rs1)
  · exact (s.feistelRoundInv_length_le _ _).trans (s.readQ_length_le hs rs1)

theorem State.feistelBlock_inv (s t : State) (inverse : Bool) (rd rs1 : QReg) (hs : s.Inv)
    (h : s.feistelBlock inverse rd rs1 = .ok t) : t.Inv := by
  unfold State.feistelBlock at h
  split at h
  next => cases h
  next =>
    simp only [ite_error_eq_ok, Except.ok.injEq] at h
    obtain ⟨-, rfl⟩ := h
    refine s.writeQ_inv rd _ hs ?_
    cases inverse
    · exact (s.feistelEnc_length_le _).trans (s.readQ_length_le hs rs1)
    · exact (s.feistelDec_length_le _).trans (s.readQ_length_le hs rs1)

theorem State.oneSpnRound_inv (s t : State) (inverse : Bool) (rd rs1 : QReg) (imm : Nat) (hs : s.Inv)
    (h : s.oneSpnRound inverse rd rs1 imm = .ok t) : t.Inv := by
  have ⟨_, hkf, ⟨hpw, _⟩, _⟩ := hs
  simp only [State.oneSpnRound, ite_error_eq_ok, Except.ok.injEq, Bool.not_eq_true, Bool.not_eq_true',
    Bool.not_eq_false, fitsQ_iff] at h
  obtain ⟨hkey, hwid, hfit, rfl⟩ := h
  have hrkw := s.rkw_pos hkf ((s.keyMissing_eq_false imm).mp hkey).1
  have hk := s.roundKey_length imm hkf hkey
  exact s.writeQ_inv rd _ hs ((s.spnRound_length_le inverse _ _ hpw hwid hk hrkw).trans hfit)

theorem State.spnSequence_inv (s t : State) (inverse : Bool) (rd rs1 : QReg) (hs : s.Inv)
    (h : s.spnSequence inverse rd rs1 = .ok t) : t.Inv := by
  unfold State.spnSequence at h
  split at h
  next => cases h
  next hchk =>
    simp only [ite_error_eq_ok, Except.ok.injEq, Bool.not_eq_true', Bool.not_eq_false, fitsQ_iff] at h
    obtain ⟨hfit, rfl⟩ := h
    have hu := s.spnUsable_of_checks hs hchk
    refine s.writeQ_inv rd _ hs ?_
    cases inverse
    · exact (s.spnEnc_length_le _ hu).trans hfit
    · exact (s.spnDec_length_le _ hu).trans hfit

theorem State.ecb_inv (s t : State) (c : Cipher) (inverse : Bool) (rd rs1 : QReg) (hs : s.Inv)
    (h : s.ecb c inverse rd rs1 = .ok t) : t.Inv := by
  unfold State.ecb at h
  split at h
  next => cases h
  next hchk =>
    simp only [ite_error_eq_ok, Except.ok.injEq, Bool.not_eq_true', Bool.not_eq_false, fitsQ_iff] at h
    obtain ⟨hfit, rfl⟩ := h
    obtain ⟨hn, hblk⟩ := splitBlocks_length _ (s.readQ rs1) (s.chainChecks_bs c hchk)
    obtain ⟨henc, hdec⟩ := s.blockFunctions_bounded c hs hchk
    rw [State.chainedLength, ← hn] at hfit
    refine s.writeQ_inv rd _ hs ((flatMap_length_le _ _ s.bs.toNat fun b hb => ?_).trans hfit)
    cases inverse
    · exact henc b (hblk b hb).le
    · exact hdec b (hblk b hb).le

theorem State.cbc_inv (s t : State) (c : Cipher) (inverse : Bool) (rd rs1 rs2 : QReg) (hs : s.Inv)
    (h : s.cbc c inverse rd rs1 rs2 = .ok t) : t.Inv := by
  unfold State.cbc at h
  split at h
  next => cases h
  next hchk =>
    simp only [ite_error_eq_ok, Except.ok.injEq, Bool.not_eq_true', Bool.not_eq_false, fitsQ_iff] at h
    obtain ⟨-, hfit, rfl⟩ := h
    obtain ⟨hn, hblk⟩ := splitBlocks_length _ (s.readQ rs1) (s.chainChecks_bs c hchk)
    obtain ⟨henc, hdec⟩ := s.blockFunctions_bounded c hs hchk
    rw [State.chainedLength, ← hn] at hfit
    refine s.writeQ_inv rd _ hs ?_
    cases inverse
    · exact (cbcEncrypt_length_le _ _ henc _ _ hblk).trans hfit
    · exact (cbcDecrypt_length_le _ _ hdec _ _ hblk).trans hfit

/-! ### The commands -/

theorem execTobits_inv (s t : State) (rd rs1 : QReg) (hs : s.Inv) (h : execTobits rd rs1 s = .next t) : t.Inv := by
  refine s.command_inv t _ _ hs (fun u hu => ?_) h
  rw [ite_error_eq_ok] at hu
  obtain ⟨-, hu⟩ := hu
  split at hu
  next => cases hu
  next rule b hdet =>
    cases hu
    have hb := detect_length_le _ _ _ hdet
    have hq : (s.readQ rs1).length ≤ Config.qMax := s.readQ_length_le hs rs1
    rw [bytesOf_length] at hb
    exact State.setFmt_inv _ rule (s.writeQ_inv rd b hs (by omega))

theorem execFrombits_inv (s t : State) (rd rs1 : QReg) (hs : s.Inv) (h : execFrombits rd rs1 s = .next t) :
    t.Inv := by
  refine s.command_inv t _ _ hs (fun u hu => ?_) h
  rw [ite_error_eq_ok] at hu
  obtain ⟨-, ⟨⟩⟩ := hu
  exact s.writeQ_inv rd _ hs (s.readQ_length_le hs rs1)

theorem execTohex_inv (s t : State) (rd rs1 : QReg) (hs : s.Inv) (h : execTohex rd rs1 s = .next t) : t.Inv := by
  refine s.command_inv t _ _ hs (fun u hu => ?_) h
  simp only [ite_error_eq_ok, Bool.not_eq_true', Bool.not_eq_false, fitsQ_iff] at hu
  obtain ⟨hfit, ⟨⟩⟩ := hu
  exact s.writeQ_inv rd _ hs (by rwa [hexText_length])

theorem execFromhex_inv (s t : State) (rd rs1 : QReg) (hs : s.Inv) (h : execFromhex rd rs1 s = .next t) :
    t.Inv := by
  refine s.command_inv t _ _ hs (fun u hu => ?_) h
  rw [ite_error_eq_ok, ite_error_eq_ok] at hu
  obtain ⟨-, -, ⟨⟩⟩ := hu
  have hq : (s.readQ rs1).length ≤ Config.qMax := s.readQ_length_le hs rs1
  exact s.writeQ_inv rd _ hs (by rw [hexBits_length, bytesOf_length]; omega)

theorem execXor_inv (s t : State) (rd rs1 rs2 : QReg) (hs : s.Inv) (h : execXor rd rs1 rs2 s = .next t) :
    t.Inv := by
  refine s.command_inv t _ _ hs (fun u hu => ?_) h
  rw [ite_error_eq_ok] at hu
  obtain ⟨-, ⟨⟩⟩ := hu
  exact s.writeQ_inv rd _ hs (by rw [xorBits_length]; exact (Nat.min_le_left _ _).trans (s.readQ_length_le hs rs1))

theorem State.widthOk_iff (s : State) : s.widthOk = true ↔ 1 ≤ s.pws.toNat ∧ s.pws.toNat ≤ Config.pwMax := by
  simp [State.widthOk]

theorem execPdflt_inv (s t : State) (hs : s.Inv) (h : execPdflt s = .next t) : t.Inv := by
  refine s.command_inv t _ _ hs (fun u hu => ?_) h
  simp only [ite_error_eq_ok, Bool.not_eq_true', Bool.not_eq_false, State.widthOk_iff] at hu
  obtain ⟨⟨hw1, hw⟩, ⟨⟩⟩ := hu
  obtain ⟨hq, hk, -, he, hc⟩ := hs
  have hbij := s.defaultEntry_isBijection _ hw hc
  rw [← tableEntries_fillTable s.ptab _ _ hw] at hbij
  exact ⟨hq, hk, ⟨hw1, hw, hbij⟩, he, hc⟩

theorem execPload_inv (s t : State) (hs : s.Inv) (h : execPload s = .next t) : t.Inv := by
  refine s.command_inv t _ _ hs (fun u hu => ?_) h
  simp only [ite_error_eq_ok, Bool.not_eq_true', Bool.not_eq_false, State.widthOk_iff] at hu
  obtain ⟨⟨hw1, hw⟩, hbij, ⟨⟩⟩ := hu
  obtain ⟨hq, hk, -, he, hc⟩ := hs
  rw [← tableEntries_fillTable_entryAt s.ptab s.pstg _ hw] at hbij
  exact ⟨hq, hk, ⟨hw1, hw, hbij⟩, he, hc⟩

theorem execKsched_inv (s t : State) (rs1 : QReg) (hs : s.Inv) (h : execKsched rs1 s = .next t) : t.Inv := by
  refine s.command_inv t _ _ hs (fun u hu => ?_) h
  rw [ite_error_eq_ok, ite_error_eq_ok] at hu
  obtain ⟨hcfg, -, ⟨⟩⟩ := hu
  simp only [not_or, not_lt] at hcfg
  obtain ⟨hn, hw⟩ := hcfg
  exact s.installSchedule_inv _ _ hs hn hw (scheduleFrom_length _ _ _ _) (mem_scheduleFrom_length _ _ _ _)

theorem execRkget_inv (s t : State) (rd : QReg) (imm : Nat) (hs : s.Inv) (h : execRkget rd imm s = .next t) :
    t.Inv := by
  refine s.command_inv t _ _ hs (fun u hu => ?_) h
  rw [ite_error_eq_ok, Bool.not_eq_true] at hu
  obtain ⟨hkey, ⟨⟩⟩ := hu
  have ⟨_, hkf, _⟩ := hs
  exact s.writeQ_inv rd _ hs (by rw [s.roundKey_length imm hkf hkey]; exact s.rkw_le hkf)

theorem execPad_inv (s t : State) (rd rs1 : QReg) (hs : s.Inv) (h : execPad rd rs1 s = .next t) : t.Inv := by
  refine s.command_inv t _ _ hs (fun u hu => ?_) h
  simp only [ite_error_eq_ok, Bool.not_eq_true', Bool.not_eq_false, fitsQ_iff] at hu
  obtain ⟨-, -, hfit, ⟨⟩⟩ := hu
  exact s.writeQ_inv rd _ hs (by rwa [padMessage_length])

theorem execUnpad_inv (s t : State) (rd rs1 : QReg) (hs : s.Inv) (h : execUnpad rd rs1 s = .next t) : t.Inv := by
  refine s.command_inv t _ _ hs (fun u hu => ?_) h
  rw [ite_error_eq_ok] at hu
  obtain ⟨-, hu⟩ := hu
  have hq : (s.readQ rs1).length ≤ Config.qMax := s.readQ_length_le hs rs1
  split at hu
  next => cases hu; exact State.setPamb_inv _ true (s.writeQ_inv rd _ hs hq)
  next =>
    cases hu
    exact State.setPamb_inv _ false (s.writeQ_inv rd _ hs ((List.length_take_le' _ _).trans hq))

theorem execNop_inv (s t : State) (hs : s.Inv) (h : execNop s = .next t) : t.Inv := by
  refine s.command_inv t _ _ hs (fun u hu => ?_) h
  cases hu
  exact hs

theorem execMov_inv (s t : State) (rd rs1 : QReg) (hs : s.Inv) (h : execMov rd rs1 s = .next t) : t.Inv := by
  refine s.command_inv t _ _ hs (fun u hu => ?_) h
  cases hu
  exact s.writeQ_inv rd _ hs (s.readQ_length_le hs rs1)

/-- Every command keeps the invariant. -/
theorem exec_inv (i : Instr) (s t : State) (hs : s.Inv) (h : exec i s = .next t) : t.Inv := by
  cases i with
  | tobits rd rs1 => exact execTobits_inv s t rd rs1 hs h
  | frombits rd rs1 => exact execFrombits_inv s t rd rs1 hs h
  | tohex rd rs1 => exact execTohex_inv s t rd rs1 hs h
  | fromhex rd rs1 => exact execFromhex_inv s t rd rs1 hs h
  | xor rd rs1 rs2 => exact execXor_inv s t rd rs1 rs2 hs h
  | sub4 rd rs1 => exact s.command_inv t _ _ hs (fun u => s.sub4_inv u false rd rs1 hs) h
  | sub4I rd rs1 => exact s.command_inv t _ _ hs (fun u => s.sub4_inv u true rd rs1 hs) h
  | perm rd rs1 => exact s.command_inv t _ _ hs (fun u => s.perm_inv u false rd rs1 hs) h
  | permI rd rs1 => exact s.command_inv t _ _ hs (fun u => s.perm_inv u true rd rs1 hs) h
  | pdflt => exact execPdflt_inv s t hs h
  | pload => exact execPload_inv s t hs h
  | ksched rs1 => exact execKsched_inv s t rs1 hs h
  | rkget rd imm => exact execRkget_inv s t rd imm hs h
  | frnd rd rs1 imm => exact s.command_inv t _ _ hs (fun u => s.oneFeistelRound_inv u false rd rs1 imm hs) h
  | frndI rd rs1 imm => exact s.command_inv t _ _ hs (fun u => s.oneFeistelRound_inv u true rd rs1 imm hs) h
  | feisE rd rs1 => exact s.command_inv t _ _ hs (fun u => s.feistelBlock_inv u false rd rs1 hs) h
  | feisD rd rs1 => exact s.command_inv t _ _ hs (fun u => s.feistelBlock_inv u true rd rs1 hs) h
  | srnd rd rs1 imm => exact s.command_inv t _ _ hs (fun u => s.oneSpnRound_inv u false rd rs1 imm hs) h
  | srndI rd rs1 imm => exact s.command_inv t _ _ hs (fun u => s.oneSpnRound_inv u true rd rs1 imm hs) h
  | spnE rd rs1 => exact s.command_inv t _ _ hs (fun u => s.spnSequence_inv u false rd rs1 hs) h
  | spnD rd rs1 => exact s.command_inv t _ _ hs (fun u => s.spnSequence_inv u true rd rs1 hs) h
  | pad rd rs1 => exact execPad_inv s t rd rs1 hs h
  | unpad rd rs1 => exact execUnpad_inv s t rd rs1 hs h
  | ecbEF rd rs1 => exact s.command_inv t _ _ hs (fun u => s.ecb_inv u .feistel false rd rs1 hs) h
  | ecbDF rd rs1 => exact s.command_inv t _ _ hs (fun u => s.ecb_inv u .feistel true rd rs1 hs) h
  | ecbES rd rs1 => exact s.command_inv t _ _ hs (fun u => s.ecb_inv u .spn false rd rs1 hs) h
  | ecbDS rd rs1 => exact s.command_inv t _ _ hs (fun u => s.ecb_inv u .spn true rd rs1 hs) h
  | cbcEF rd rs1 rs2 => exact s.command_inv t _ _ hs (fun u => s.cbc_inv u .feistel false rd rs1 rs2 hs) h
  | cbcDF rd rs1 rs2 => exact s.command_inv t _ _ hs (fun u => s.cbc_inv u .feistel true rd rs1 rs2 hs) h
  | cbcES rd rs1 rs2 => exact s.command_inv t _ _ hs (fun u => s.cbc_inv u .spn false rd rs1 rs2 hs) h
  | cbcDS rd rs1 rs2 => exact s.command_inv t _ _ hs (fun u => s.cbc_inv u .spn true rd rs1 rs2 hs) h
  | nop => exact execNop_inv s t hs h
  | clrerr => cases h; exact s.clearLatch_inv hs
  | mov rd rs1 => exact execMov_inv s t rd rs1 hs h

/-! ### The host's accesses and the step -/

theorem State.commandWord_inv (s t : State) (w : Word) (hs : s.Inv) (h : s.commandWord w = .next t) : t.Inv := by
  unfold State.commandWord at h
  split at h
  next i _ => exact exec_inv i s t hs h
  next =>
    cases h
    exact s.unlessLatched_inv _ hs (s.raise_inv _ w hs)

/-- A register other than `CMD` and the window onto the q registers has no part in the invariant. -/
theorem State.storeCsr_inv (s : State) (v : Word) (r : Csr) (hs : s.Inv) : (s.storeCsr v r).Inv := by
  cases r with
  | qlen =>
    rw [State.storeCsr]
    split
    next hv =>
      refine s.writeQ_inv _ _ hs ?_
      rwa [resize, padR_length _ _ (List.length_take_le _ _)]
    next => exact hs
  | qdata => exact s.writeQ_inv _ _ hs (by rw [windowWrite, List.length_mapIdx]; exact s.readQ_length_le hs s.qsel)
  | _ => exact hs

theorem State.csrWrite_inv (s t : State) (a : Nat) (v : Word) (hs : s.Inv) (h : s.csrWrite a v = .next t) :
    t.Inv := by
  obtain ⟨-, hw⟩ | ⟨r, -, -, rfl⟩ | ⟨-, rfl⟩ := s.csrWrite_cases t a v h
  · exact s.commandWord_inv t v hs hw
  · exact s.storeCsr_inv v r hs
  · exact hs

/-- Settles O19, by the cases of a step: an idle one, a read, a write and a reset. -/
theorem stepKeepsInv : Obligations.StepKeepsInv := by
  intro s t hs h
  obtain ⟨-, rfl⟩ | ⟨e, rest, -, ⟨_, _, -, -, rfl⟩ | ⟨addr, _, v, -, -, hw⟩ | ⟨-, rfl⟩⟩ := step_cases s t h
  · exact hs
  · exact hs
  · exact State.csrWrite_inv { s with pending := rest } t addr v hs hw
  · exact State.afterRst_inv { s with pending := rest } hs

end Sys2Proof.Machine
end

section
/-! PROOF. The reset state satisfies the invariant (O18). -/

namespace Sys2Proof.Machine

/-! ### The built-in tables (rules R7 and R8) -/

theorem builtinSbox_toList : builtinSbox.toList = (List.finRange 16).map fun x => BitVec.ofFin (Config.sbox x) := by
  rw [builtinSbox, Vector.toList_ofFn, List.ofFn_eq_map]
  exact List.map_congr_left fun x _ => BitVec.eq_of_toNat_eq (Nat.mod_eq_of_lt (Config.sbox x).isLt)

theorem builtinSbox_nodup : builtinSbox.toList.Nodup := by
  rw [builtinSbox_toList]
  exact (List.nodup_finRange 16).map fun x y h => Config.sbox.injective (BitVec.ofFin.inj h)

theorem builtinSbox_zero : builtinSbox[0] = 8 := by
  simp [builtinSbox, Config.sbox]

theorem builtinPbox16_entries :
    builtinPbox16.toList.map BitVec.toNat = (List.finRange 16).map fun p => (Config.pbox16 p).val + 1 := by
  rw [builtinPbox16, Vector.toList_ofFn, List.ofFn_eq_map, List.map_map]
  refine List.map_congr_left fun p _ => ?_
  have := (Config.pbox16 p).isLt
  simp only [Function.comp_apply, BitVec.toNat_ofNat]
  omega

theorem builtinPbox16_isBijection : isBijection (builtinPbox16.toList.map BitVec.toNat) 16 = true := by
  rw [builtinPbox16_entries, isBijection_iff]
  refine ⟨fun d hd => ?_, (List.nodup_finRange 16).map fun p p' h => ?_⟩
  · obtain ⟨p, -, rfl⟩ := List.mem_map.mp hd
    have := (Config.pbox16 p).isLt
    omega
  · exact Config.pbox16.injective (Fin.ext (Nat.succ.inj h))

/-- Settles O18: the built-in tables are made of permutations, so they meet rules R7 and R8. -/
theorem resetSatisfiesInv : Obligations.ResetSatisfiesInv :=
  State.resetWith_inv builtinSbox builtinPbox16 ⟨builtinSbox_nodup, builtinSbox_zero, builtinPbox16_isBijection⟩

end Sys2Proof.Machine
end

section
/-! PROOF. `sub4` and `sub4.i` look up every nibble (O27). -/

namespace Sys2Proof.Machine

open Sys2Proof.Claims

/-! ### Groups of w bits of a sequence -/

/-- Chunk k of a sequence is its group k. -/
theorem chunksN_getElem? (w n k : Nat) (s : Bits) (hk : k < n) : (chunksN w n s)[k]? = some (group s w k) := by
  induction n generalizing s k with
  | zero => omega
  | succ n ih =>
    cases k with
    | zero => simp [chunksN, slice]
    | succ k =>
      rw [chunksN, List.getElem?_cons_succ, ih k (s.drop w) (by omega)]
      simp [slice, Nat.mul_add, Nat.add_comm]

/-- Group k of joined pieces of w bits is piece k. -/
theorem group_flatten (w k : Nat) (l : List Bits) (h : ∀ c ∈ l, c.length = w) (hk : k < l.length) :
    l[k]? = some (group l.flatten w k) := by
  have hg := chunksN_getElem? w l.length k l.flatten hk
  rwa [chunksN_of_flatten w l h] at hg

/-- Group k of a sequence mapped chunk by chunk is the image of group k. -/
theorem group_flatMap_chunks (w n k : Nat) (s : Bits) (f : Bits → Bits) (hw : 1 ≤ w) (hs : s.length = w * n)
    (hf : ∀ c, c.length = w → (f c).length = w) (hk : k < n) :
    group ((chunks s w).flatMap f) w k = f (group s w k) := by
  rw [chunks_eq s n w hw hs, List.flatMap_def]
  have hl : ∀ c ∈ (chunksN w n s).map f, c.length = w := by
    intro c hc
    obtain ⟨d, hd, rfl⟩ := List.mem_map.mp hc
    exact hf d (mem_chunksN_length w n s hs d hd)
  have hg := group_flatten w k _ hl (by simpa using hk)
  rw [List.getElem?_map, chunksN_getElem? w n k s hk] at hg
  exact (Option.some.inj hg).symm

theorem group_length (b : Bits) (w n k : Nat) (hb : b.length = w * n) (hk : k < n) : (group b w k).length = w := by
  have h : w * k + w ≤ b.length := by
    rw [hb, ← Nat.mul_succ]; exact Nat.mul_le_mul_left w hk
  rw [slice_length b _ _ h]; omega

/-! ### The substitution table and its inverse (rule R142) -/

theorem sboxAt_lt (sbox : Vector (BitVec 4) 16) (x : Nat) : sboxAt sbox x < 16 := BitVec.isLt _

/-- A table without repeated entries holds every 4-bit value. -/
theorem mem_sbox_of_nodup (sbox : Vector (BitVec 4) 16) (h : sbox.toList.Nodup) (y : BitVec 4) : y ∈ sbox.toList := by
  have hinj : Function.Injective fun x : Fin 16 => (sbox.toList.get (x.cast sbox.length_toList.symm)).toFin :=
    fun x x' hx => by
      have := h.get_inj_iff.mp (BitVec.toFin_injective hx)
      simpa [Fin.ext_iff] using this
  obtain ⟨x, hx⟩ := Finite.surjective_of_injective hinj y.toFin
  rw [← BitVec.toFin_injective hx]
  exact List.get_mem _ _

/-- Looking a value up in the inverse of a bijective table, and the result in the table, gives the value back. -/
theorem sboxAt_invSboxAt (sbox : Vector (BitVec 4) 16) (h : sbox.toList.Nodup) (y : Nat) (hy : y < 16) :
    invSboxAt sbox y < 16 ∧ sboxAt sbox (invSboxAt sbox y) = y := by
  have hmem := mem_sbox_of_nodup sbox h (BitVec.ofNat 4 y)
  have hlt : invSboxAt sbox y < sbox.toList.length :=
    List.findIdx_lt_length_of_exists ⟨_, hmem, by simpa using hy⟩
  have heq := List.findIdx_getElem (w := hlt)
  refine ⟨by simpa using hlt, ?_⟩
  rw [sboxAt, List.getD_eq_getElem _ _ hlt]
  exact beq_iff_eq.mp heq

/-- Group k of `substitute`'s result is the look-up of group k of the padded operand (rule R143). -/
theorem substitute_group (sbox : Vector (BitVec 4) 16) (inverse : Bool) (b : Bits) (n k : Nat)
    (hn : CeilOf n b.length 4) (hk : k < n) :
    group (substitute sbox inverse b) 4 k =
      bitsOf 4 (if inverse then invSboxAt sbox (val (group (padR b (4 * n)) 4 k))
        else sboxAt sbox (val (group (padR b (4 * n)) 4 k))) := by
  have hpad : padRMult b 4 = padR b (4 * n) := by rw [padRMult, ceilDiv_eq n _ 4 hn.1 hn.2]
  rw [substitute, hpad]
  exact group_flatMap_chunks 4 n k _ _ (by omega) (padR_length b _ hn.1) (fun _ _ => bitsOf_length 4 _) hk

theorem substitute_length_of_ceilOf (sbox : Vector (BitVec 4) 16) (inverse : Bool) (b : Bits) (n : Nat)
    (hn : CeilOf n b.length 4) : (substitute sbox inverse b).length = 4 * n := by
  rw [substitute_length, ceilDiv_eq n _ 4 hn.1 hn.2]

/-- A substitution of an operand that fits a q register fits one too: `QMAX` is a multiple of 4 (rule R144). -/
theorem State.sub4_ok (s : State) (inverse : Bool) (rd rs1 : QReg) (h : (s.readQ rs1).length ≤ 65536) :
    s.sub4 inverse rd rs1 = .ok (s.writeQ rd (substitute s.sbox inverse (s.readQ rs1))) := by
  have hfit : fitsQ (4 * ceilDiv (s.readQ rs1).length 4) = true :=
    fitsQ_iff _ |>.mpr (mul_ceilDiv_le_of_mod _ 4 65536 h rfl)
  simp [State.sub4, hfit]

/-- Settles O27: each nibble of the result is one look-up, and a bijective table takes the inverse's nibble back. -/
theorem sub4LooksUpEveryNibble : Obligations.Sub4LooksUpEveryNibble := by
  intro rd rs1 s n herr hc hn hlen
  obtain ⟨hnodup, -, -⟩ := hc
  refine ⟨⟨_, s.command_ok _ _ _ herr (s.sub4_ok false rd rs1 hlen), substitute_length_of_ceilOf _ _ _ n hn,
      fun k hk => ?_⟩,
    ⟨_, s.command_ok _ _ _ herr (s.sub4_ok true rd rs1 hlen), substitute_length_of_ceilOf _ _ _ n hn,
      fun k hk => ?_⟩⟩
  · rw [substitute_group _ _ _ n k hn hk]
    exact val_bitsOf 4 _ (sboxAt_lt _ _)
  · have hnib : val (group (padR (s.readQ rs1) (4 * n)) 4 k) < 16 := by
      have hv := val_lt (group (padR (s.readQ rs1) (4 * n)) 4 k)
      rwa [group_length _ 4 n k (padR_length _ _ hn.1) hk] at hv
    obtain ⟨hlt, heq⟩ := sboxAt_invSboxAt s.sbox hnodup _ hnib
    rw [substitute_group _ _ _ n k hn hk]
    exact (congrArg (sboxAt s.sbox) (val_bitsOf 4 _ hlt)).trans heq

end Sys2Proof.Machine
end

section
/-! PROOF. `ksched` follows the recurrence (O33). -/

namespace Sys2Proof.Machine

/-! ### The sequences of the round-key generator -/

/-- The seed after i rounds (rule R162). -/
def seedAt (seed₀ : Nat) : Nat → Nat
  | 0 => seed₀
  | i + 1 => lcgStep (seedAt seed₀ i) i

theorem seedAt_succ (seed₀ i : Nat) : seedAt seed₀ (i + 1) = lcgStep (seedAt seed₀ i) i := rfl

/-- The local copy of the seed after j advances in round i (rule R162). -/
def localAt (i loc₀ : Nat) : Nat → Nat
  | 0 => loc₀
  | j + 1 => localStep (localAt i loc₀ j) i

theorem localStep_eq (loc i : Nat) : localStep loc i = (1664525 * (loc + i) + 1013904223) % 2 ^ 32 := rfl

theorem bitsOf_getD (n v j : Nat) (h : j < n) : (bitsOf n v).getD j false = v.testBit (n - 1 - j) := by
  induction n generalizing j with
  | zero => omega
  | succ n ih =>
    cases j with
    | zero => simp [bitsOf]
    | succ j =>
      rw [bitsOf, List.getD_cons_succ, ih j (by omega)]
      congr 1; omega

/-- Bit b of the words the local copy emits after its first j advances. -/
theorem localWords_getD (i loc n j b : Nat) (h : b < 32 * n) :
    (localWords i n (localAt i loc j)).getD b false = (localAt i loc (j + b / 32 + 1)).testBit (31 - b % 32) := by
  induction n generalizing j b with
  | zero => omega
  | succ n ih =>
    have hword : bitsOf 32 (localStep (localAt i loc j) i) = bitsOf 32 (localAt i loc (j + 1)) := rfl
    have hrest : localWords i n (localStep (localAt i loc j) i) = localWords i n (localAt i loc (j + 1)) := rfl
    rw [localWords, hword, hrest]
    by_cases hb : b < 32
    · rw [List.getD_append _ _ _ _ (by simpa using hb), bitsOf_getD 32 _ b hb, Nat.div_eq_of_lt hb,
        Nat.mod_eq_of_lt hb, Nat.add_zero]
    · rw [List.getD_append_right _ _ _ _ (by simpa using hb), bitsOf_length, ih (j + 1) (b - 32) (by omega)]
      have hdiv : j + 1 + (b - 32) / 32 + 1 = j + b / 32 + 1 := by omega
      have hmod : (b - 32) % 32 = b % 32 := by omega
      rw [hdiv, hmod]

/-- Bit b of the words a fresh local copy emits. -/
theorem localWords_getD_start (i loc n b : Nat) (h : b < 32 * n) :
    (localWords i n loc).getD b false = (localAt i loc (b / 32 + 1)).testBit (31 - b % 32) := by
  have hbit := localWords_getD i loc n 0 b h
  rw [Nat.zero_add] at hbit
  exact hbit

theorem roundKeyFrom_getD (seed i size b : Nat) (h : b < size) :
    (roundKeyFrom seed i size).getD b false = (localAt i seed (b / 32 + 1)).testBit (31 - b % 32) := by
  have hwords : b < 32 * ceilDiv size 32 := h.trans_le (ceilDiv_spec size 32 (by omega)).1
  rw [← localWords_getD_start i seed _ b hwords, roundKeyFrom, List.getD_eq_getElem?_getD,
    List.getElem?_take_of_lt h, List.getD_eq_getElem?_getD]

/-- A schedule that starts in round i: the key of each later round, and the seed after the last (rule R162). -/
theorem scheduleFrom_eq (size n i seed₀ : Nat) :
    (scheduleFrom size n i (seedAt seed₀ i)).2 = seedAt seed₀ (i + n) ∧
    ∀ j < n, (scheduleFrom size n i (seedAt seed₀ i)).1.getD j [] =
      roundKeyFrom (seedAt seed₀ (i + j + 1)) (i + j) size := by
  induction n generalizing i with
  | zero => exact ⟨rfl, fun j hj => by omega⟩
  | succ n ih =>
    obtain ⟨hseed, hkeys⟩ := ih (i + 1)
    rw [scheduleFrom, ← seedAt_succ]
    refine ⟨?_, fun j hj => ?_⟩
    · rw [hseed, Nat.add_right_comm, Nat.add_assoc]
    · cases j with
      | zero => rfl
      | succ j =>
        rw [List.getD_cons_succ, hkeys j (by omega), Nat.add_right_comm i 1 j, Nat.add_assoc i j 1]

theorem seed0_append (l r : Bits) (h : l.length = r.length) : seed0 (l ++ r) = (val l ^^^ val r) % 2 ^ 32 := by
  have hhalf : (l ++ r).length / 2 = l.length := by rw [List.length_append]; omega
  rw [seed0, hhalf, List.take_left, List.drop_left]

/-- The body of a `ksched` whose checks pass (rules R163 and R164). -/
theorem execKsched_ok (rs1 : QReg) (s : State) (herr : s.err = false) (hn : s.nr.toNat ≤ 64)
    (hw : 1 ≤ s.rks.toNat ∧ s.rks.toNat ≤ 1024) (hlen : 2 ≤ (s.readQ rs1).length ∧ (s.readQ rs1).length % 2 = 0) :
    execKsched rs1 s = .next (s.installSchedule (schedule (s.readQ rs1) s.nr.toNat s.rks.toNat).1
      (schedule (s.readQ rs1) s.nr.toNat s.rks.toNat).2) := by
  refine s.command_ok _ _ _ herr ?_
  rw [if_neg (by simp only [Config.nrMax, Config.rksMax]; omega), if_neg (by omega)]

/-- Settles O33: the seeds are `seedAt` of the key's seed, the local copies `localAt` of the round's seed. -/
theorem kschedFollowsTheRecurrence : Obligations.KschedFollowsTheRecurrence := by
  intro rs1 s l r herr hn hw1 hw hkey hlr hl
  have hlen : (s.readQ rs1).length = l.length + r.length := by rw [hkey, List.length_append]
  obtain ⟨hseed, hkeys⟩ := scheduleFrom_eq s.rks.toNat s.nr.toNat 0 (seed0 (s.readQ rs1))
  rw [Nat.zero_add] at hseed
  refine ⟨(schedule (s.readQ rs1) s.nr.toNat s.rks.toNat).1, seedAt (seed0 (s.readQ rs1)),
    fun i => localAt i (seedAt (seed0 (s.readQ rs1)) (i + 1)), ?_, ?_, fun _ => rfl, fun _ => rfl,
    fun i j => localStep_eq _ i, scheduleFrom_length _ _ _ _, fun i hi => ?_⟩
  · rw [← hseed]
    exact execKsched_ok rs1 s herr hn ⟨hw1, hw⟩ (by omega)
  · rw [hkey]; exact seed0_append l r hlr
  · have hk : (schedule (s.readQ rs1) s.nr.toNat s.rks.toNat).1.getD i [] = _ := hkeys i hi
    rw [hk, Nat.zero_add]
    exact ⟨roundKeyFrom_length _ _ _, fun b hb => roundKeyFrom_getD _ i _ b hb⟩

end Sys2Proof.Machine
end

section
/-! PROOF. What every command leaves unchanged (O17), and what every step does (O20). -/

namespace Sys2Proof.Machine

/-! ### What a command that completes writes -/

/-- What a command that completes without an error writes (rules R22 and R44): `rd` alone for most commands, and what the
six others own. -/
inductive State.Completes (s : State) : Instr → State → Prop
  | result (i : Instr) (rd : QReg) (b : Bits) (h : i.rd? = some rd) : s.Completes i (s.writeQ rd b)
  | tobits (rd rs1 : QReg) (b : Bits) (rule : Nat) : s.Completes (.tobits rd rs1) ((s.writeQ rd b).setFmt rule)
  | unpad (rd rs1 : QReg) (b : Bits) (v : Bool) : s.Completes (.unpad rd rs1) ((s.writeQ rd b).setPamb v)
  | pdflt (stg tab : Vector Entry Config.pwMax) : s.Completes .pdflt { s with pstg := stg, ptab := tab, pw := s.pws }
  | pload (tab : Vector Entry Config.pwMax) : s.Completes .pload { s with ptab := tab, pw := s.pws }
  | ksched (rs1 : QReg) (keys : List Bits) (seed : Nat) : s.Completes (.ksched rs1) (s.installSchedule keys seed)
  | nop : s.Completes .nop s

/-- A body answers nothing but states in which the command has completed. -/
def State.BodyCompletes (s : State) (i : Instr) (body : Except CmdError State) : Prop :=
  ∀ t, body = .ok t → s.Completes i t

theorem State.bodyCompletes_error (s : State) (i : Instr) (e : CmdError) : s.BodyCompletes i (.error e) :=
  fun _ h => by cases h

theorem State.bodyCompletes_ite (s : State) (i : Instr) (c : Prop) [Decidable c] (x y : Except CmdError State)
    (hx : s.BodyCompletes i x) (hy : s.BodyCompletes i y) : s.BodyCompletes i (if c then x else y) := by
  split
  · exact hx
  · exact hy

/-- The check at the head of a body adds nothing to what the rest of the body writes. -/
theorem State.bodyCompletes_check (s : State) (i : Instr) (c : Prop) [Decidable c] (e : CmdError)
    (y : Except CmdError State) (hy : s.BodyCompletes i y) : s.BodyCompletes i (if c then .error e else y) :=
  s.bodyCompletes_ite i c _ _ (s.bodyCompletes_error i e) hy

theorem State.bodyCompletes_ok (s t : State) (i : Instr) (h : s.Completes i t) : s.BodyCompletes i (.ok t) := by
  rintro _ ⟨⟩
  exact h

theorem State.bodyCompletes_writeQ (s : State) (i : Instr) (rd : QReg) (b : Bits) (h : i.rd? = some rd) :
    s.BodyCompletes i (.ok (s.writeQ rd b)) :=
  s.bodyCompletes_ok _ i (.result i rd b h)

/-! ### The bodies that several commands share -/

theorem State.sub4_completes (s : State) (i : Instr) (inverse : Bool) (rd rs1 : QReg) (h : i.rd? = some rd) :
    s.BodyCompletes i (s.sub4 inverse rd rs1) :=
  s.bodyCompletes_check _ _ _ _ (s.bodyCompletes_writeQ i rd _ h)

theorem State.perm_completes (s : State) (i : Instr) (inverse : Bool) (rd rs1 : QReg) (h : i.rd? = some rd) :
    s.BodyCompletes i (s.perm inverse rd rs1) :=
  s.bodyCompletes_check _ _ _ _ (s.bodyCompletes_writeQ i rd _ h)

theorem State.oneFeistelRound_completes (s : State) (i : Instr) (inverse : Bool) (rd rs1 : QReg) (imm : Nat)
    (h : i.rd? = some rd) : s.BodyCompletes i (s.oneFeistelRound inverse rd rs1 imm) :=
  s.bodyCompletes_check _ _ _ _ <| s.bodyCompletes_check _ _ _ _ <| s.bodyCompletes_check _ _ _ _ <|
    s.bodyCompletes_check _ _ _ _ (s.bodyCompletes_writeQ i rd _ h)

theorem State.feistelBlock_completes (s : State) (i : Instr) (inverse : Bool) (rd rs1 : QReg) (h : i.rd? = some rd) :
    s.BodyCompletes i (s.feistelBlock inverse rd rs1) := by
  unfold State.feistelBlock
  split
  · exact s.bodyCompletes_error _ _
  · exact s.bodyCompletes_check _ _ _ _ (s.bodyCompletes_writeQ i rd _ h)

theorem State.oneSpnRound_completes (s : State) (i : Instr) (inverse : Bool) (rd rs1 : QReg) (imm : Nat)
    (h : i.rd? = some rd) : s.BodyCompletes i (s.oneSpnRound inverse rd rs1 imm) :=
  s.bodyCompletes_check _ _ _ _ <| s.bodyCompletes_check _ _ _ _ <|
    s.bodyCompletes_check _ _ _ _ (s.bodyCompletes_writeQ i rd _ h)

theorem State.spnSequence_completes (s : State) (i : Instr) (inverse : Bool) (rd rs1 : QReg) (h : i.rd? = some rd) :
    s.BodyCompletes i (s.spnSequence inverse rd rs1) := by
  unfold State.spnSequence
  split
  · exact s.bodyCompletes_error _ _
  · exact s.bodyCompletes_check _ _ _ _ (s.bodyCompletes_writeQ i rd _ h)

theorem State.ecb_completes (s : State) (i : Instr) (c : Cipher) (inverse : Bool) (rd rs1 : QReg)
    (h : i.rd? = some rd) : s.BodyCompletes i (s.ecb c inverse rd rs1) := by
  unfold State.ecb
  split
  · exact s.bodyCompletes_error _ _
  · exact s.bodyCompletes_check _ _ _ _ (s.bodyCompletes_writeQ i rd _ h)

theorem State.cbc_completes (s : State) (i : Instr) (c : Cipher) (inverse : Bool) (rd rs1 rs2 : QReg)
    (h : i.rd? = some rd) : s.BodyCompletes i (s.cbc c inverse rd rs1 rs2) := by
  unfold State.cbc
  split
  · exact s.bodyCompletes_error _ _
  · exact s.bodyCompletes_check _ _ _ _ <| s.bodyCompletes_check _ _ _ _ (s.bodyCompletes_writeQ i rd _ h)

/-! ### Every command but `clrerr` is a body behind the latch -/

/-- Every command but `clrerr` is dropped while an error is latched, and otherwise runs a body that writes what the
command owns (rules R70 and R223). -/
theorem exec_eq_command (i : Instr) (s : State) (h : i ≠ .clrerr) :
    ∃ body, exec i s = s.command i body ∧ s.BodyCompletes i body := by
  cases i with
  | clrerr => exact absurd rfl h
  | tobits rd rs1 =>
    refine ⟨_, rfl, s.bodyCompletes_check _ _ _ _ ?_⟩
    split
    · exact s.bodyCompletes_error _ _
    · exact s.bodyCompletes_ok _ _ (.tobits rd rs1 _ _)
  | unpad rd rs1 =>
    exact ⟨_, rfl, s.bodyCompletes_check _ _ _ _ <| s.bodyCompletes_ite _ _ _ _
      (s.bodyCompletes_ok _ _ (.unpad rd rs1 _ true)) (s.bodyCompletes_ok _ _ (.unpad rd rs1 _ false))⟩
  | pdflt => exact ⟨_, rfl, s.bodyCompletes_check _ _ _ _ (s.bodyCompletes_ok _ _ (.pdflt _ _))⟩
  | pload =>
    exact ⟨_, rfl, s.bodyCompletes_check _ _ _ _ <| s.bodyCompletes_check _ _ _ _ (s.bodyCompletes_ok _ _ (.pload _))⟩
  | ksched rs1 =>
    exact ⟨_, rfl, s.bodyCompletes_check _ _ _ _ <| s.bodyCompletes_check _ _ _ _
      (s.bodyCompletes_ok _ _ (.ksched rs1 _ _))⟩
  | nop => exact ⟨_, rfl, s.bodyCompletes_ok _ _ .nop⟩
  | mov rd rs1 => exact ⟨_, rfl, s.bodyCompletes_writeQ _ rd _ rfl⟩
  | frombits rd rs1 => exact ⟨_, rfl, s.bodyCompletes_check _ _ _ _ (s.bodyCompletes_writeQ _ rd _ rfl)⟩
  | tohex rd rs1 => exact ⟨_, rfl, s.bodyCompletes_check _ _ _ _ (s.bodyCompletes_writeQ _ rd _ rfl)⟩
  | fromhex rd rs1 =>
    exact ⟨_, rfl, s.bodyCompletes_check _ _ _ _ <| s.bodyCompletes_check _ _ _ _
      (s.bodyCompletes_writeQ _ rd _ rfl)⟩
  | xor rd rs1 rs2 => exact ⟨_, rfl, s.bodyCompletes_check _ _ _ _ (s.bodyCompletes_writeQ _ rd _ rfl)⟩
  | rkget rd imm => exact ⟨_, rfl, s.bodyCompletes_check _ _ _ _ (s.bodyCompletes_writeQ _ rd _ rfl)⟩
  | pad rd rs1 =>
    exact ⟨_, rfl, s.bodyCompletes_check _ _ _ _ <| s.bodyCompletes_check _ _ _ _ <| s.bodyCompletes_check _ _ _ _
      (s.bodyCompletes_writeQ _ rd _ rfl)⟩
  | sub4 rd rs1 => exact ⟨_, rfl, s.sub4_completes _ _ rd _ rfl⟩
  | sub4I rd rs1 => exact ⟨_, rfl, s.sub4_completes _ _ rd _ rfl⟩
  | perm rd rs1 => exact ⟨_, rfl, s.perm_completes _ _ rd _ rfl⟩
  | permI rd rs1 => exact ⟨_, rfl, s.perm_completes _ _ rd _ rfl⟩
  | frnd rd rs1 imm => exact ⟨_, rfl, s.oneFeistelRound_completes _ _ rd _ _ rfl⟩
  | frndI rd rs1 imm => exact ⟨_, rfl, s.oneFeistelRound_completes _ _ rd _ _ rfl⟩
  | feisE rd rs1 => exact ⟨_, rfl, s.feistelBlock_completes _ _ rd _ rfl⟩
  | feisD rd rs1 => exact ⟨_, rfl, s.feistelBlock_completes _ _ rd _ rfl⟩
  | srnd rd rs1 imm => exact ⟨_, rfl, s.oneSpnRound_completes _ _ rd _ _ rfl⟩
  | srndI rd rs1 imm => exact ⟨_, rfl, s.oneSpnRound_completes _ _ rd _ _ rfl⟩
  | spnE rd rs1 => exact ⟨_, rfl, s.spnSequence_completes _ _ rd _ rfl⟩
  | spnD rd rs1 => exact ⟨_, rfl, s.spnSequence_completes _ _ rd _ rfl⟩
  | ecbEF rd rs1 => exact ⟨_, rfl, s.ecb_completes _ _ _ rd _ rfl⟩
  | ecbDF rd rs1 => exact ⟨_, rfl, s.ecb_completes _ _ _ rd _ rfl⟩
  | ecbES rd rs1 => exact ⟨_, rfl, s.ecb_completes _ _ _ rd _ rfl⟩
  | ecbDS rd rs1 => exact ⟨_, rfl, s.ecb_completes _ _ _ rd _ rfl⟩
  | cbcEF rd rs1 rs2 => exact ⟨_, rfl, s.cbc_completes _ _ _ rd _ _ rfl⟩
  | cbcDF rd rs1 rs2 => exact ⟨_, rfl, s.cbc_completes _ _ _ rd _ _ rfl⟩
  | cbcES rd rs1 rs2 => exact ⟨_, rfl, s.cbc_completes _ _ _ rd _ _ rfl⟩
  | cbcDS rd rs1 rs2 => exact ⟨_, rfl, s.cbc_completes _ _ _ rd _ _ rfl⟩

/-- Everything a command can do: clear the latch, be dropped, complete, or raise an error. -/
theorem exec_cases (i : Instr) (s t : State) (h : exec i s = .next t) :
    (i = .clrerr ∧ t = s.clearLatch) ∨
    (i ≠ .clrerr ∧ s.err = true ∧ t = s) ∨
    (i ≠ .clrerr ∧ s.err = false ∧ s.Completes i t) ∨
    (i ≠ .clrerr ∧ s.err = false ∧ ∃ e, t = s.raise e (encode i)) := by
  by_cases hi : i = .clrerr
  · subst hi
    exact .inl ⟨rfl, (Host.Outcome.next.inj h).symm⟩
  · obtain ⟨body, hbody, hc⟩ := exec_eq_command i s hi
    rw [hbody] at h
    obtain ⟨he, rfl⟩ | ⟨he, hok⟩ | ⟨he, e, -, rfl⟩ := s.command_cases t i body h
    · exact .inr (.inl ⟨hi, he, rfl⟩)
    · exact .inr (.inr (.inl ⟨hi, he, hc t hok⟩))
    · exact .inr (.inr (.inr ⟨hi, he, e, rfl⟩))

/-! ### The frame -/

/-- Two states agree in what no command writes: the configuration registers, the window pointers, `IE`, the built-in
tables and the host's side (rules R28 to R34, R37 and R40). -/
def State.SameSetup (s t : State) : Prop :=
  t.nr = s.nr ∧ t.rks = s.rks ∧ t.bs = s.bs ∧ t.pws = s.pws ∧ t.pidx = s.pidx ∧ t.qsel = s.qsel ∧
    t.qptr = s.qptr ∧ t.errie = s.errie ∧ t.sbox = s.sbox ∧ t.pbox16 = s.pbox16 ∧
    t.pending = s.pending ∧ t.replies = s.replies

theorem State.sameSetup_refl (s : State) : s.SameSetup s :=
  ⟨rfl, rfl, rfl, rfl, rfl, rfl, rfl, rfl, rfl, rfl, rfl, rfl⟩

theorem State.Completes.sameSetup {i : Instr} {s t : State} (h : s.Completes i t) : s.SameSetup t := by
  cases h <;> exact s.sameSetup_refl

theorem exec_sameSetup (i : Instr) (s t : State) (h : exec i s = .next t) : s.SameSetup t := by
  obtain ⟨-, rfl⟩ | ⟨-, -, rfl⟩ | ⟨-, -, hc⟩ | ⟨-, -, e, rfl⟩ := exec_cases i s t h
  · exact s.sameSetup_refl
  · exact t.sameSetup_refl
  · exact hc.sameSetup
  · exact s.sameSetup_refl

/-- A command that completes leaves the q registers other than `rd` alone. -/
theorem State.Completes.readQ {i : Instr} {s t : State} (h : s.Completes i t) (r : QReg) (hr : i.rd? ≠ some r) :
    t.readQ r = s.readQ r := by
  cases h with
  | result _ rd b hd => exact s.readQ_writeQ_other rd r b fun e => hr (by rw [hd, e])
  | tobits rd rs1 b rule => exact s.readQ_writeQ_other rd r b fun e => hr (by rw [e]; rfl)
  | unpad rd rs1 b v => exact s.readQ_writeQ_other rd r b fun e => hr (by rw [e]; rfl)
  | pdflt stg tab => rfl
  | pload tab => rfl
  | ksched rs1 keys seed => rfl
  | nop => rfl

/-- A command that completes leaves the code and the word of the latch alone. -/
theorem State.Completes.latch {i : Instr} {s t : State} (h : s.Completes i t) :
    t.errcode = s.errcode ∧ t.errinfo = s.errinfo := by
  cases h <;> exact ⟨rfl, rfl⟩

theorem State.Completes.pstg {i : Instr} {s t : State} (h : s.Completes i t) (hi : i ≠ .pdflt) : t.pstg = s.pstg := by
  cases h with
  | pdflt => exact absurd rfl hi
  | _ => rfl

theorem State.Completes.ptab {i : Instr} {s t : State} (h : s.Completes i t) (hd : i ≠ .pdflt) (hl : i ≠ .pload) :
    t.ptab = s.ptab ∧ t.pw = s.pw := by
  cases h with
  | pdflt => exact absurd rfl hd
  | pload => exact absurd rfl hl
  | _ => exact ⟨rfl, rfl⟩

theorem State.Completes.keyFile {i : Instr} {s t : State} (h : s.Completes i t) (hi : ∀ r, i ≠ .ksched r) :
    t.rk = s.rk ∧ t.rkn = s.rkn ∧ t.rkw = s.rkw ∧ t.seed = s.seed ∧ t.rkv = s.rkv := by
  cases h with
  | ksched rs1 => exact absurd rfl (hi rs1)
  | _ => exact ⟨rfl, rfl, rfl, rfl, rfl⟩

theorem State.Completes.pamb {i : Instr} {s t : State} (h : s.Completes i t) (hi : ∀ rd rs1, i ≠ .unpad rd rs1) :
    t.pamb = s.pamb := by
  cases h with
  | unpad rd rs1 => exact absurd rfl (hi rd rs1)
  | _ => rfl

theorem State.Completes.fmt {i : Instr} {s t : State} (h : s.Completes i t) (hi : ∀ rd rs1, i ≠ .tobits rd rs1) :
    t.fmt = s.fmt := by
  cases h with
  | tobits rd rs1 => exact absurd rfl (hi rd rs1)
  | _ => rfl

/-- Two states agree in what command i does not own: the q registers but `rd`, and the tables, the key file and the two
flags unless i is a command that writes them (rules R22, R35, R36, R39 and R44). -/
def State.SameUnowned (s : State) (i : Instr) (t : State) : Prop :=
  (∀ r, i.rd? ≠ some r → t.readQ r = s.readQ r) ∧
  (i ≠ .pdflt → t.pstg = s.pstg) ∧
  (i ≠ .pdflt → i ≠ .pload → t.ptab = s.ptab ∧ t.pw = s.pw) ∧
  ((∀ r, i ≠ .ksched r) → t.rk = s.rk ∧ t.rkn = s.rkn ∧ t.rkw = s.rkw ∧ t.seed = s.seed ∧ t.rkv = s.rkv) ∧
  ((∀ rd rs1, i ≠ .unpad rd rs1) → t.pamb = s.pamb) ∧
  ((∀ rd rs1, i ≠ .tobits rd rs1) → t.fmt = s.fmt)

theorem State.sameUnowned_refl (s : State) (i : Instr) : s.SameUnowned i s :=
  ⟨fun _ _ => rfl, fun _ => rfl, fun _ _ => ⟨rfl, rfl⟩, fun _ => ⟨rfl, rfl, rfl, rfl, rfl⟩, fun _ => rfl, fun _ => rfl⟩

theorem exec_sameUnowned (i : Instr) (s t : State) (h : exec i s = .next t) : s.SameUnowned i t := by
  obtain ⟨-, rfl⟩ | ⟨-, -, rfl⟩ | ⟨-, -, hc⟩ | ⟨-, -, e, rfl⟩ := exec_cases i s t h
  · exact s.sameUnowned_refl i
  · exact t.sameUnowned_refl i
  · exact ⟨hc.readQ, hc.pstg, hc.ptab, hc.keyFile, hc.pamb, hc.fmt⟩
  · exact s.sameUnowned_refl i

/-- A latched error drops every command but `clrerr` (rule R223). -/
theorem exec_latched (i : Instr) (s t : State) (h : exec i s = .next t) (hi : i ≠ .clrerr) (he : s.err = true) :
    t = s := by
  obtain ⟨hc, -⟩ | ⟨-, -, rfl⟩ | ⟨-, h0, -⟩ | ⟨-, h0, -⟩ := exec_cases i s t h
  · exact absurd hc hi
  · rfl
  · simp [he] at h0
  · simp [he] at h0

/-- A command other than `clrerr` that leaves no error latched leaves the latch as it was. -/
theorem exec_latch_of_ok (i : Instr) (s t : State) (h : exec i s = .next t) (hi : i ≠ .clrerr) (ht : t.err = false) :
    t.errcode = s.errcode ∧ t.errinfo = s.errinfo := by
  obtain ⟨hc, -⟩ | ⟨-, -, rfl⟩ | ⟨-, -, hc⟩ | ⟨-, -, e, rfl⟩ := exec_cases i s t h
  · exact absurd hc hi
  · exact ⟨rfl, rfl⟩
  · exact hc.latch
  · simp at ht

/-- Settles O17: each part of the frame by the cases of a command, `clrerr`, a dropped one, one that completes and one
that raises an error. -/
theorem commandsChangeOnlyWhatTheyOwn : Obligations.CommandsChangeOnlyWhatTheyOwn := by
  intro i s t h
  obtain ⟨hq, hstg, htab, hkeys, hpamb, hfmt⟩ := exec_sameUnowned i s t h
  exact ⟨exec_sameSetup i s t h, hq, hstg, htab, hkeys, hpamb, hfmt, exec_latched i s t h, exec_latch_of_ok i s t h⟩

/-! ### The built-in tables along every step -/

/-- Two states hold the same built-in tables (rule R40). -/
def State.SameTables (s t : State) : Prop := t.sbox = s.sbox ∧ t.pbox16 = s.pbox16

theorem exec_sameTables (i : Instr) (s t : State) (h : exec i s = .next t) : s.SameTables t := by
  obtain ⟨-, -, -, -, -, -, -, -, hs, hp, -⟩ := exec_sameSetup i s t h
  exact ⟨hs, hp⟩

theorem State.commandWord_sameTables (s t : State) (w : Word) (h : s.commandWord w = .next t) : s.SameTables t := by
  unfold State.commandWord at h
  split at h
  next i _ => exact exec_sameTables i s t h
  next =>
    cases h
    unfold State.unlessLatched
    split <;> exact ⟨rfl, rfl⟩

/-- No register write reaches a built-in table: none has an address (rule R40). -/
theorem State.storeCsr_sameTables (s : State) (v : Word) (r : Csr) : s.SameTables (s.storeCsr v r) := by
  cases r with
  | qlen =>
    rw [State.storeCsr]
    split <;> exact ⟨rfl, rfl⟩
  | _ => exact ⟨rfl, rfl⟩

theorem State.csrWrite_sameTables (s t : State) (a : Nat) (v : Word) (h : s.csrWrite a v = .next t) :
    s.SameTables t := by
  obtain ⟨-, hw⟩ | ⟨r, -, -, rfl⟩ | ⟨-, rfl⟩ := s.csrWrite_cases t a v h
  · exact s.commandWord_sameTables t v hw
  · exact s.storeCsr_sameTables v r
  · exact ⟨rfl, rfl⟩

/-- Settles O20, by the cases of a step: an idle one, a read, a write and a reset. -/
theorem stepKeepsTheBuiltInTables : Obligations.StepKeepsTheBuiltInTables := by
  intro s t h
  obtain ⟨-, rfl⟩ | ⟨e, rest, -, ⟨_, _, -, -, rfl⟩ | ⟨addr, _, v, -, -, hw⟩ | ⟨-, rfl⟩⟩ := step_cases s t h
  · exact ⟨rfl, rfl⟩
  · exact ⟨rfl, rfl⟩
  · exact State.csrWrite_sameTables { s with pending := rest } t addr v hw
  · exact ⟨rfl, rfl⟩

end Sys2Proof.Machine
end

section
/-! SUPPORT. The bits of a sequence by position: groups, padding and resizing (rule R12). -/

namespace Sys2Proof.Machine

open Sys2Proof.Claims

/-- Two sequences of one length that agree bit by bit are equal. -/
theorem bits_ext (a b : Bits) (hl : a.length = b.length) (h : ∀ p < a.length, a.getD p false = b.getD p false) :
    a = b := by
  refine List.ext_getElem hl fun p ha hb => ?_
  have hp := h p ha
  rwa [List.getD_eq_getElem _ _ ha, List.getD_eq_getElem _ _ hb] at hp

theorem zeros_getD (n p : Nat) : (zeros n).getD p false = false := by
  rcases Nat.lt_or_ge p n with h | h
  · exact List.getD_replicate _ h
  · exact List.getD_eq_default _ _ (by simpa using h)

/-- Padding on the right adds zeros, which is what a bit beyond the end reads anyway. -/
@[simp] theorem padR_getD (s : Bits) (n p : Nat) : (padR s n).getD p false = s.getD p false := by
  rcases Nat.lt_or_ge p s.length with h | h
  · exact List.getD_append _ _ _ _ h
  · rw [padR, List.getD_append_right _ _ _ _ h, zeros_getD, List.getD_eq_default _ _ h]

theorem take_getD (s : Bits) (n p : Nat) (h : p < n) : (s.take n).getD p false = s.getD p false := by
  simp [List.getD, h]

/-- Bit k of group j of w bits. -/
theorem group_getD (s : Bits) (w j k : Nat) (hk : k < w) : (group s w j).getD k false = s.getD (w * j + k) false := by
  rw [group, slice, take_getD _ _ _ (by omega)]
  simp [List.getD]

@[simp] theorem resize_length (b : Bits) (n : Nat) : (resize b n).length = n :=
  padR_length _ _ (List.length_take_le _ _)

theorem resize_getD (b : Bits) (n p : Nat) (hp : p < n) : (resize b n).getD p false = b.getD p false := by
  rw [resize, padR_getD, take_getD _ _ _ hp]

end Sys2Proof.Machine
end

section
/-! PROOF. `perm` and `perm.i` move every bit (O29). -/

namespace Sys2Proof.Machine

open Sys2Proof.Claims

/-! ### The active table as a relation -/

/-- `tablePairs` holds the pair of a position and its entry, for every position of the table, and nothing else. -/
theorem mem_tablePairs (entries : List Nat) (src dst : Nat) :
    (src, dst) ∈ tablePairs entries ↔ 1 ≤ src ∧ entries[src - 1]? = some dst := by
  simp only [tablePairs, List.mem_map, Prod.mk.injEq, Prod.exists, List.mem_zipIdx_iff_getElem?]
  constructor
  · rintro ⟨d, k, hk, rfl, rfl⟩
    exact ⟨by omega, hk⟩
  · rintro ⟨h1, h⟩
    exact ⟨dst, src - 1, h, by omega, rfl⟩

theorem tableEntries_getElem? (s : State) (p : Nat) (hpw : s.pw.toNat ≤ Config.pwMax) (h1 : 1 ≤ p)
    (h2 : p ≤ s.pw.toNat) : (tableEntries s.ptab s.pw.toNat)[p - 1]? = some (ptabAt s p) := by
  have hlt : p - 1 < s.pw.toNat := by omega
  have hlt' : p - 1 < Config.pwMax := by omega
  simp [tableEntries, ptabAt, entryAt, h1, h2, hlt, hlt', List.getD]

/-- Position p of an active table that is a bijection goes to `PTAB[p]`, in 1..PW; nothing else goes there, and p goes
nowhere else (rule R39). -/
theorem State.activeTable_bijective (s : State) (p : Nat) (ht : s.TableOk) (h1 : 1 ≤ p) (h2 : p ≤ s.pw.toNat) :
    (1 ≤ ptabAt s p ∧ ptabAt s p ≤ s.pw.toNat) ∧ (p, ptabAt s p) ∈ s.activeTable ∧
    (∀ src, (src, ptabAt s p) ∈ s.activeTable → src = p) ∧
    (∀ dst, (p, dst) ∈ s.activeTable → dst = ptabAt s p) := by
  obtain ⟨-, hpw, hbij⟩ := ht
  obtain ⟨hrange, hnodup⟩ := (isBijection_iff _ _).mp hbij
  have hp := tableEntries_getElem? s p hpw h1 h2
  obtain ⟨hlt, -⟩ := List.getElem?_eq_some_iff.mp hp
  refine ⟨hrange _ (List.mem_of_getElem? hp), (mem_tablePairs _ _ _).mpr ⟨h1, hp⟩, fun src hs => ?_, fun dst hd => ?_⟩
  · obtain ⟨hs1, hs⟩ := (mem_tablePairs _ _ _).mp hs
    have := (List.getElem?_inj hlt hnodup).mp (hp.trans hs.symm)
    omega
  · obtain ⟨-, hd⟩ := (mem_tablePairs _ _ _).mp hd
    exact Option.some.inj (hd.symm.trans hp)

/-- A permuted chunk holds at `PTAB[p]` the bit the chunk has at p. -/
theorem State.permutedBit_forward (s : State) (c : Bits) (p : Nat) (ht : s.TableOk) (h1 : 1 ≤ p)
    (h2 : p ≤ s.pw.toNat) :
    permutedBit (direction false s.activeTable) c (ptabAt s p) = c.getD (p - 1) false := by
  obtain ⟨-, hmem, hsrc, -⟩ := s.activeTable_bijective p ht h1 h2
  exact permutedBit_eq _ c p _ hmem hsrc

/-- A chunk permuted back holds at p the bit the chunk has at `PTAB[p]`. -/
theorem State.permutedBit_inverse (s : State) (c : Bits) (p : Nat) (ht : s.TableOk) (h1 : 1 ≤ p)
    (h2 : p ≤ s.pw.toNat) :
    permutedBit (direction true s.activeTable) c p = c.getD (ptabAt s p - 1) false := by
  obtain ⟨-, hmem, -, hdst⟩ := s.activeTable_bijective p ht h1 h2
  have hswap : ∀ a, (a, p) ∈ direction true s.activeTable ↔ (p, a) ∈ s.activeTable := by
    simp [direction]
  exact permutedBit_eq _ c (ptabAt s p) p ((hswap _).mpr hmem) fun src h => hdst src ((hswap src).mp h)

/-! ### The bits of `permute` -/

theorem permute_length_of_ceilOf (table : List (Nat × Nat)) (w : Nat) (inverse : Bool) (b : Bits) (n : Nat) (hw : 1 ≤ w)
    (hn : CeilOf n b.length w) : (permute table w inverse b).length = w * n := by
  rw [permute_length _ _ _ _ hw, ceilDiv_eq n _ w hn.1 hn.2]

/-- Bit `dst` of chunk j of `permute`'s result is one bit of chunk j of the padded operand (rule R145). -/
theorem permute_getD (table : List (Nat × Nat)) (w : Nat) (inverse : Bool) (b : Bits) (n j dst : Nat) (hw : 1 ≤ w)
    (hn : CeilOf n b.length w) (hj : j < n) (h1 : 1 ≤ dst) (h2 : dst ≤ w) :
    (permute table w inverse b).getD (w * j + dst - 1) false =
      permutedBit (direction inverse table) (group (padR b (w * n)) w j) dst := by
  have hpad : padRMult b w = padR b (w * n) := by rw [padRMult, ceilDiv_eq n _ w hn.1 hn.2]
  have hchunk := group_flatMap_chunks w n j (padR b (w * n)) (permuteChunk (direction inverse table) w) hw
    (padR_length b _ hn.1) (fun c _ => permuteChunk_length _ w c) hj
  have hidx : w * j + dst - 1 = w * j + (dst - 1) := by omega
  have hk : dst - 1 < w := by omega
  rw [hidx, ← group_getD _ w j (dst - 1) hk, permute, hpad, hchunk]
  simp [permuteChunk, List.getD, hk, Nat.sub_add_cancel h1]

/-- Bit p of chunk j of the padded operand. -/
theorem group_padR_getD (b : Bits) (w m j p : Nat) (h1 : 1 ≤ p) (h2 : p ≤ w) :
    (group (padR b m) w j).getD (p - 1) false = b.getD (w * j + p - 1) false := by
  rw [group_getD _ w j _ (by omega), padR_getD, Nat.add_sub_assoc h1]

/-! ### The commands -/

theorem State.perm_ok (s : State) (inverse : Bool) (rd rs1 : QReg) (n : Nat)
    (hn : CeilOf n (s.readQ rs1).length s.pw.toNat) (hfit : s.pw.toNat * n ≤ 65536) :
    s.perm inverse rd rs1 = .ok (s.writeQ rd (permute s.activeTable s.pw.toNat inverse (s.readQ rs1))) := by
  have hq := (fitsQ_iff _).mpr hfit
  rw [← ceilDiv_eq n _ _ hn.1 hn.2] at hq
  simp [State.perm, hq]

theorem State.perm_overflow (s : State) (inverse : Bool) (rd rs1 : QReg) (n : Nat)
    (hn : CeilOf n (s.readQ rs1).length s.pw.toNat) (hfit : 65536 < s.pw.toNat * n) :
    s.perm inverse rd rs1 = .error .overflow := by
  have hq : fitsQ (s.pw.toNat * ceilDiv (s.readQ rs1).length s.pw.toNat) = false := by
    rw [ceilDiv_eq n _ _ hn.1 hn.2, ← Bool.not_eq_true, fitsQ_iff]
    omega
  simp [State.perm, hq]

/-- Settles O29: the pair of the active table that ends at a position is the only one, in both directions. -/
theorem permMovesEveryBit : Obligations.PermMovesEveryBit := by
  intro rd rs1 s n herr ht hn
  have ⟨hw, _⟩ := ht
  refine ⟨fun hfit => ⟨⟨_, s.command_ok _ _ _ herr (s.perm_ok false rd rs1 n hn hfit),
      permute_length_of_ceilOf _ _ _ _ n hw hn, fun j hj p h1 h2 => ?_⟩,
    ⟨_, s.command_ok _ _ _ herr (s.perm_ok true rd rs1 n hn hfit),
      permute_length_of_ceilOf _ _ _ _ n hw hn, fun j hj p h1 h2 => ?_⟩⟩,
    fun hfit => ⟨s.command_error _ _ _ herr (s.perm_overflow false rd rs1 n hn hfit),
      s.command_error _ _ _ herr (s.perm_overflow true rd rs1 n hn hfit)⟩⟩
  · obtain ⟨⟨hp1, hp2⟩, -⟩ := s.activeTable_bijective p ht h1 h2
    rw [permute_getD _ _ _ _ n j _ hw hn hj hp1 hp2, s.permutedBit_forward _ p ht h1 h2,
      group_padR_getD _ _ _ j p h1 h2]
  · obtain ⟨⟨hp1, hp2⟩, -⟩ := s.activeTable_bijective p ht h1 h2
    rw [permute_getD _ _ _ _ n j _ hw hn hj h1 h2, s.permutedBit_inverse _ p ht h1 h2,
      group_padR_getD _ _ _ j _ hp1 hp2]

end Sys2Proof.Machine
end

section
/-! SUPPORT. One served access (rule R71), and the words of the window onto a q register (rule R63). -/

namespace Sys2Proof.Machine

open Sys2Proof.Claims

/-! ### A step that serves an access -/

theorem step_read (s : State) (a : Nat) (rest : List HostEvent) (ha : a ≤ 0xFF ∧ a % 4 = 0)
    (hp : s.pending = .read a 4 :: rest) :
    step s = .next { s with pending := rest, replies := s.replies ++ [{ s with pending := rest }.csrRead a] } := by
  simp [step, State.serveNext, hp, State.serve, (accessRefusal_eq_none a 4).mpr ⟨rfl, ha⟩]

theorem step_write (s : State) (a : Nat) (v : Word) (rest : List HostEvent) (ha : a ≤ 0xFF ∧ a % 4 = 0)
    (hp : s.pending = .write a 4 v :: rest) : step s = { s with pending := rest }.csrWrite a v := by
  simp [step, State.serveNext, hp, State.serve, (accessRefusal_eq_none a 4).mpr ⟨rfl, ha⟩]

/-! ### The address map (rule R42) -/

theorem csrAddr_range (r : Csr) : csrAddr r < 0x50 ∧ csrAddr r % 4 = 0 := by cases r <;> decide

@[simp] theorem csrOf_csrAddr (r : Csr) : csrOf (csrAddr r) = some r := by cases r <;> rfl

theorem csrOf_eq_some (a : Nat) (r : Csr) (h : csrOf a = some r) : a = csrAddr r := by
  unfold csrOf at h
  split at h <;> cases h <;> rfl

/-- The offsets above the twenty registers are reserved. -/
theorem csrOf_reserved (a : Nat) (h : 0x50 ≤ a) : csrOf a = none := by
  rcases hr : csrOf a with _ | r
  · rfl
  · have haddr := csrOf_eq_some a r hr
    have := csrAddr_range r
    omega

theorem State.csrRead_csrAddr (s : State) (r : Csr) : s.csrRead (csrAddr r) = s.readCsr r := by
  rw [State.csrRead, csrOf_csrAddr]

theorem State.csrWrite_csrAddr (s : State) (r : Csr) (v : Word) (h : r ≠ .cmd) :
    s.csrWrite (csrAddr r) v = .next (s.storeCsr v r) := by
  unfold State.csrWrite
  rw [csrOf_csrAddr]
  cases r with
  | cmd => exact absurd rfl h
  | _ => rfl

/-- The register number in the low bits of a word written to `QSEL` (rule R37). -/
theorem regField_zero (v : Word) : regField v 0 = Fin.ofNat 8 v.toNat := by
  simp [regField, field, Fin.ofNat]

/-! ### A word of the window (rule R63) -/

/-- Bit j of a 32-bit word, counted from its most significant bit, is bit j of the sequence it is the value of. -/
theorem ofNat_val_getLsbD (b : Bits) (j : Nat) (hb : b.length = 32) (hj : j < 32) :
    (BitVec.ofNat 32 (val b)).getLsbD (31 - j) = b.getD j false := by
  have hbits := bitsOf_getD 32 (val b) j hj
  rw [← hb, bitsOf_val, hb] at hbits
  rw [BitVec.getLsbD_ofNat, hbits]
  simp; omega

theorem windowRead_getLsbD (b : Bits) (w j : Nat) (hj : j < 32) :
    (windowRead b w).getLsbD (31 - j) = b.getD (32 * w + j) false := by
  rw [windowRead, ofNat_val_getLsbD _ j (by simp) hj]
  simp [List.getD, hj]

@[simp] theorem windowWrite_length (b : Bits) (w : Nat) (v : Word) : (windowWrite b w v).length = b.length := by
  simp [windowWrite]

theorem windowWrite_getD (b : Bits) (w : Nat) (v : Word) (p : Nat) (hp : p < b.length) :
    (windowWrite b w v).getD p false =
      if 32 * w ≤ p ∧ p < 32 * w + 32 then v.getLsbD (31 - (p - 32 * w)) else b.getD p false := by
  simp [windowWrite, List.getD, hp]

end Sys2Proof.Machine
end

section
/-! PROOF. The step at a pending write of `CMD` (O5), reads (O7) and writes (O8) of every register, the reset state
(O12). -/

namespace Sys2Proof.Machine

/-! ### Commands -/

/-- Settles O5: the access is served, and its word decodes or not. -/
theorem stepRunsTheDecodedCommand : Obligations.StepRunsTheDecodedCommand := by
  intro s w rest hp
  have hstep : step s = { s with pending := rest }.commandWord w := step_write s 0x00 w rest (by decide) hp
  refine ⟨fun i hd => ?_, fun hd he => ?_, fun hd he => ?_⟩
  · rw [hstep, State.commandWord, hd]
  · rw [hstep, State.commandWord, hd]
    simp [State.unlessLatched, he, State.raise, errorCode]
  · rw [hstep, State.commandWord, hd]
    simp [State.unlessLatched, he]

/-! ### Reads -/

/-- The fields of `STATUS` (rule R25). -/
theorem State.statusWord_fields (s : State) :
    s.statusWord.getLsbD 0 = s.err ∧ s.statusWord.getLsbD 1 = s.pamb ∧ s.statusWord.extractLsb' 2 2 = s.fmt ∧
      s.statusWord.getLsbD 4 = s.rkv ∧ s.statusWord.extractLsb' 5 27 = 0 := by
  unfold State.statusWord
  generalize s.rkv = rkv, s.fmt = fmt, s.pamb = pamb, s.err = err
  revert rkv fmt pamb err
  decide

theorem entryAt_inside (t : Vector Entry Config.pwMax) (limit p : Nat) (h1 : 1 ≤ p) (h2 : p ≤ limit) :
    entryAt t limit p = t.toList.getD (p - 1) 0 := if_pos ⟨h1, h2⟩

theorem entryAt_outside (t : Vector Entry Config.pwMax) (limit p : Nat) (h : p = 0 ∨ limit < p) :
    entryAt t limit p = 0 := if_neg (by omega)

/-- A table entry read through a window is extended with zeros. -/
theorem entry_setWidth_toNat (e : Entry) : (e.setWidth 32).toNat = e.toNat := by
  simp; omega

theorem State.irq_eq (s : State) : s.irq = (s.statusWord.getLsbD 0 && (s.readCsr .ie).getLsbD 0) := by
  obtain ⟨herr, -⟩ := s.statusWord_fields
  rw [herr]
  simp [State.irq, State.readCsr]

/-- Settles O7, register by register. -/
theorem registerReads : Obligations.RegisterReads := by
  refine ⟨fun s a rest ha hm hp => step_read s a rest ⟨ha, hm⟩ hp, fun s => ?_⟩
  refine ⟨rfl, s.statusWord_fields, ?_, rfl, ?_, rfl, rfl, rfl, rfl, rfl, rfl, fun h1 h2 => ?_, fun h => ?_,
    fun h1 h2 => ?_, fun h => ?_, rfl, rfl, rfl, ?_, fun h => ?_, rfl, fun j hj => windowRead_getLsbD _ _ j hj,
    fun a ha => ?_, s.irq_eq⟩
  · show (s.errcode.setWidth 32).toNat = s.errcode.toNat
    simp; omega
  · show (BitVec.ofBool s.errie).setWidth 32 = _
    cases s.errie <;> rfl
  · show ((entryAt s.pstg Config.pwMax s.pidx.toNat).setWidth 32).toNat = _
    rw [entry_setWidth_toNat, entryAt_inside _ _ _ h1 h2]
  · show (entryAt s.pstg Config.pwMax s.pidx.toNat).setWidth 32 = _
    rw [entryAt_outside _ _ _ h]; rfl
  · show ((entryAt s.ptab s.pw.toNat s.pidx.toNat).setWidth 32).toNat = _
    rw [entry_setWidth_toNat, entryAt_inside _ _ _ h1 h2]
  · show (entryAt s.ptab s.pw.toNat s.pidx.toNat).setWidth 32 = _
    rw [entryAt_outside _ _ _ h]; rfl
  · show (BitVec.ofNat 32 s.qsel.val).toNat = s.qsel.val
    rw [BitVec.toNat_ofNat]; omega
  · show (BitVec.ofNat 32 (s.readQ s.qsel).length).toNat = _
    rw [BitVec.toNat_ofNat]; omega
  · rw [State.csrRead, csrOf_reserved a ha]

/-! ### Writes -/

/-- `PSTG[p] <- e` for a position inside the table. -/
theorem writeEntry_inside (t : Vector Entry Config.pwMax) (p : Nat) (e : Entry) (h1 : 1 ≤ p) :
    writeEntry t p e = t.setIfInBounds (p - 1) e := by
  refine Vector.ext fun k hk => ?_
  have hk' : k + 1 = p ↔ p - 1 = k := by omega
  simp [writeEntry, Vector.getElem_setIfInBounds, hk']

theorem writeEntry_outside (t : Vector Entry Config.pwMax) (p : Nat) (e : Entry) (h : p = 0 ∨ Config.pwMax < p) :
    writeEntry t p e = t := by
  refine Vector.ext fun k hk => ?_
  have hne : k + 1 ≠ p := by omega
  simp [writeEntry, hne]

/-- Settles O8, register by register. -/
theorem registerWrites : Obligations.RegisterWrites := by
  refine ⟨fun s a v rest ha hm hp => step_write s a v rest ⟨ha, hm⟩ hp, fun s v => ?_⟩
  refine ⟨rfl, rfl, rfl, rfl, rfl, rfl, fun h1 h2 => ?_, fun h => ?_, ?_, rfl, ?_, fun a ha => ?_⟩
  · show Host.Outcome.next { s with pstg := writeEntry s.pstg s.pidx.toNat (v.setWidth 16) } = _
    rw [writeEntry_inside _ _ _ h1, BitVec.setWidth_eq_extractLsb' (by decide)]
  · show Host.Outcome.next { s with pstg := writeEntry s.pstg s.pidx.toNat (v.setWidth 16) } = _
    rw [writeEntry_outside _ _ _ h]
  · show Host.Outcome.next { s with qsel := regField v 0 } = _
    rw [regField_zero]
  · simp only [List.forall_mem_cons, List.not_mem_nil, false_implies, implies_true, and_true]
    exact ⟨rfl, rfl, rfl, rfl, rfl, rfl, rfl, rfl⟩
  · rw [State.csrWrite, csrOf_reserved a ha]

/-! ### The reset state -/

theorem defaultTable_low (pbox16 : Vector Entry 16) (p : Fin 16) : (defaultTable pbox16)[p.val] = pbox16[p] :=
  Vector.getElem_append_left p.isLt

theorem defaultTable_high (pbox16 : Vector Entry 16) (p : Fin 256) (hp : 16 ≤ p.val) :
    (defaultTable pbox16)[p] = 0 := by
  have happ := Vector.getElem_append_right (xs := pbox16) (ys := (Vector.replicate 240 0 : Vector Entry 240))
    (i := p.val) p.isLt hp
  exact happ.trans (Vector.getElem_replicate _)

/-- Settles O12, register by register. -/
theorem resetLeavesTheResetState : Obligations.ResetLeavesTheResetState := by
  refine ⟨fun r => ?_, ?_, rfl, rfl, rfl, rfl, rfl, rfl, rfl, rfl, fun p => ?_, fun p hp => ?_, rfl, rfl, rfl,
    rfl, rfl, rfl, rfl, rfl⟩
  · simp [State.reset, State.resetWith, State.readQ]
  · decide
  · exact ⟨defaultTable_low _ p, defaultTable_low _ p⟩
  · exact defaultTable_high _ p hp

end Sys2Proof.Machine
end

section
/-! PROOF. The host procedures of rule R78: `HostWriteQ` loads a q register (O10), `HostReadQ` returns one (O11). -/

namespace Sys2Proof.Machine

open Sys2Proof.Claims

/-! ### Runs of accesses to named registers -/

theorem run_succ (M : Host.Core) (k : Nat) (s t : M.State) (h : M.step s = .next t) : M.run (k + 1) s = M.run k t := by
  rw [Host.Core.run, h]

theorem run_step (k : Nat) (s t : State) (h : step s = .next t) :
    Sys2Proof.core.run (k + 1) s = Sys2Proof.core.run k t :=
  run_succ Sys2Proof.core k s t h

/-- A run that begins with the write of a register other than `CMD`. -/
theorem run_writeReg (s : State) (r : Csr) (v k : Nat) (rest : List HostEvent) (hr : r ≠ .cmd)
    (hp : s.pending = writeReg r v :: rest) :
    Sys2Proof.core.run (k + 1) s =
      Sys2Proof.core.run k ({ s with pending := rest }.storeCsr (BitVec.ofNat 32 v) r) := by
  obtain ⟨hlt, hmod⟩ := csrAddr_range r
  refine run_step k s _ ?_
  rw [step_write s (csrAddr r) _ rest ⟨by omega, hmod⟩ hp, State.csrWrite_csrAddr _ r _ hr]

/-- A run that begins with the read of a register. -/
theorem run_readReg (s : State) (r : Csr) (k : Nat) (rest : List HostEvent) (hp : s.pending = readReg r :: rest) :
    Sys2Proof.core.run (k + 1) s =
      Sys2Proof.core.run k { s with pending := rest, replies := s.replies ++ [{ s with pending := rest }.readCsr r] } := by
  obtain ⟨hlt, hmod⟩ := csrAddr_range r
  refine run_step k s _ ?_
  rw [step_read s (csrAddr r) rest ⟨by omega, hmod⟩ hp, State.csrRead_csrAddr]

/-- The write of a register number to `QSEL` selects that register. -/
theorem regField_ofNat (i : QReg) : regField (BitVec.ofNat 32 i.val) 0 = i := by
  rw [regField_zero]
  apply Fin.ext
  simp [Fin.ofNat]

/-! ### `HostWriteQ` -/

/-- The register after the first w words of b are written: the bits of those words, and zeros up to b's length. -/
def loadedWords (b : Bits) (w : Nat) : Bits := resize (b.take (32 * w)) b.length

@[simp] theorem loadedWords_length (b : Bits) (w : Nat) : (loadedWords b w).length = b.length := resize_length _ _

theorem loadedWords_getD (b : Bits) (w p : Nat) (hp : p < b.length) :
    (loadedWords b w).getD p false = if p < 32 * w then b.getD p false else false := by
  rw [loadedWords, resize_getD _ _ p hp]
  split
  next h => exact take_getD b _ p h
  next h => exact List.getD_eq_default _ _ (by simp; omega)

/-- Before the first word the register holds zeros: what `QLEN` leaves after 0 and then b's length are written to it. -/
theorem loadedWords_zero (b old : Bits) : resize (resize old 0) b.length = loadedWords b 0 := by
  simp [loadedWords, resize, padR, zeros]

/-- Once the words cover b the register holds b. -/
theorem loadedWords_all (b : Bits) (w : Nat) (hw : b.length ≤ 32 * w) : loadedWords b w = b := by
  rw [loadedWords, List.take_of_length_le hw, resize, List.take_length, padR_self]

/-- Writing word w of b through the window loads it (rule R63). -/
theorem windowWrite_loadedWords (b : Bits) (w : Nat) :
    windowWrite (loadedWords b w) w (BitVec.ofNat 32 (val (padR (group b 32 w) 32))) = loadedWords b (w + 1) := by
  refine bits_ext _ _ (by simp) fun p hp => ?_
  have hp : p < b.length := by simpa using hp
  have hgroup : (padR (group b 32 w) 32).length = 32 := padR_length _ _ (by simp [slice])
  rw [windowWrite_getD _ _ _ _ (by simpa using hp), loadedWords_getD b w p hp, loadedWords_getD b (w + 1) p hp]
  split
  next hin =>
    rw [ofNat_val_getLsbD _ _ hgroup (by omega), padR_getD, group_getD b 32 w _ (by omega), if_pos (by omega)]
    congr 1; omega
  next hout =>
    have hsame : p < 32 * w ↔ p < 32 * (w + 1) := by omega
    simp only [hsame]

/-- The two accesses that write one word through the window (rule R78). -/
theorem run_writeWord (s : State) (w v k : Nat) (rest : List HostEvent) (hw : w < 2 ^ 32)
    (hp : s.pending = writeReg .qptr w :: writeReg .qdata v :: rest) :
    Sys2Proof.core.run (k + 2) s = Sys2Proof.core.run k ({ s with qptr := BitVec.ofNat 32 w, pending := rest }.writeQ s.qsel
      (windowWrite (s.readQ s.qsel) w (BitVec.ofNat 32 v))) := by
  have hptr : (BitVec.ofNat 32 w).toNat = w := by rw [BitVec.toNat_ofNat, Nat.mod_eq_of_lt hw]
  rw [run_writeReg s .qptr w (k + 1) _ (by decide) hp, run_writeReg _ .qdata v k rest (by decide) rfl]
  simp [State.storeCsr, State.writeQ, State.readQ, hptr]

/-- The accesses of `writeWords` load n more words into the selected register and change nothing but `QPTR` besides. -/
theorem run_writeWords (b : Bits) (n w : Nat) (s : State) (rest : List HostEvent) (hw : w + n ≤ 2 ^ 32)
    (hp : s.pending = writeWords b n w ++ rest) (hq : s.readQ s.qsel = loadedWords b w) :
    ∃ ptr, Sys2Proof.core.run (writeWords b n w).length s =
      .next { s with q := s.q.set s.qsel (loadedWords b (w + n)), qptr := ptr, pending := rest } := by
  induction n generalizing w s with
  | zero =>
    have hself : s.q.set s.qsel (loadedWords b w) = s.q := by
      rw [← hq]; exact Vector.set_getElem_self _
    have hrest : s.pending = rest := hp
    refine ⟨s.qptr, ?_⟩
    rw [Nat.add_zero, hself, ← hrest]
    rfl
  | succ n ih =>
    have hword := run_writeWord s w _ (writeWords b n (w + 1)).length _ (by omega) hp
    rw [hq, windowWrite_loadedWords b w] at hword
    obtain ⟨ptr, hrun⟩ := ih (w + 1)
      ({ s with qptr := BitVec.ofNat 32 w, pending := writeWords b n (w + 1) ++ rest }.writeQ s.qsel
        (loadedWords b (w + 1))) (by omega) rfl (State.readQ_writeQ_same _ _ _)
    refine ⟨ptr, hword.trans (hrun.trans ?_)⟩
    have hidx : w + 1 + n = w + (n + 1) := by omega
    simp [State.writeQ, hidx]

/-- The write of a length that fits resizes the selected register (rule R62). -/
theorem State.storeCsr_qlen (s : State) (n : Nat) (hn : n ≤ 65536) :
    s.storeCsr (BitVec.ofNat 32 n) .qlen = s.writeQ s.qsel (resize (s.readQ s.qsel) n) := by
  have hlen : (BitVec.ofNat 32 n).toNat = n := by rw [BitVec.toNat_ofNat]; omega
  simp [State.storeCsr, hlen, hn]

/-- The three accesses that begin `HostWriteQ`: the register is selected, emptied and resized (rules R62 and R78). -/
theorem run_selectAndResize (s : State) (i : QReg) (b : Bits) (rest : List HostEvent) (k : Nat)
    (hb : b.length ≤ 65536)
    (hp : s.pending = writeReg .qsel i.val :: writeReg .qlen 0 :: writeReg .qlen b.length :: rest) :
    Sys2Proof.core.run (k + 3) s =
      Sys2Proof.core.run k ({ s with qsel := i, pending := rest }.writeQ i (loadedWords b 0)) := by
  rw [run_writeReg s .qsel i.val (k + 2) _ (by decide) hp, run_writeReg _ .qlen 0 (k + 1) _ (by decide) rfl,
    State.storeCsr_qlen _ 0 (by omega), run_writeReg _ .qlen b.length k rest (by decide) rfl,
    State.storeCsr_qlen _ _ hb, ← loadedWords_zero b (s.readQ i)]
  simp [State.storeCsr, State.writeQ, State.readQ, regField_ofNat]

/-- Settles O10: the prefix leaves zeros of b's length, and the words that cover b load all of it. -/
theorem hostWriteQLoadsTheRegister : Obligations.HostWriteQLoadsTheRegister := by
  intro s i b rest hb hp
  obtain ⟨hcover, hless⟩ := ceilDiv_spec b.length 32 (by omega)
  have hprefix := run_selectAndResize s i b _ (writeWords b (ceilDiv b.length 32) 0).length hb hp
  obtain ⟨ptr, hrun⟩ := run_writeWords b (ceilDiv b.length 32) 0
    ({ s with qsel := i, pending := writeWords b (ceilDiv b.length 32) 0 ++ rest }.writeQ i (loadedWords b 0)) rest
    (by omega) rfl (State.readQ_writeQ_same _ _ _)
  rw [Nat.zero_add, loadedWords_all b _ hcover] at hrun
  refine ⟨_, hprefix.trans hrun, ?_⟩
  simp [State.writeQ]

/-! ### `HostReadQ` -/

/-- The two accesses that read one word through the window (rule R78). -/
theorem run_readWord (s : State) (w k : Nat) (rest : List HostEvent) (hw : w < 2 ^ 32)
    (hp : s.pending = writeReg .qptr w :: readReg .qdata :: rest) :
    Sys2Proof.core.run (k + 2) s = Sys2Proof.core.run k { s with
      qptr := BitVec.ofNat 32 w
      pending := rest
      replies := s.replies ++ [windowRead (s.readQ s.qsel) w] } := by
  have hptr : (BitVec.ofNat 32 w).toNat = w := by rw [BitVec.toNat_ofNat, Nat.mod_eq_of_lt hw]
  rw [run_writeReg s .qptr w (k + 1) _ (by decide) hp, run_readReg _ .qdata k rest rfl]
  simp [State.storeCsr, State.readCsr, State.readQ, hptr]

/-- The accesses of `readWords` hand the host n words of the selected register and change nothing but `QPTR`. -/
theorem run_readWords (n w : Nat) (s : State) (rest : List HostEvent) (hw : w + n ≤ 2 ^ 32)
    (hp : s.pending = readWords n w ++ rest) :
    ∃ ptr, Sys2Proof.core.run (readWords n w).length s = .next { s with
      qptr := ptr
      pending := rest
      replies := s.replies ++ (List.range' w n).map (windowRead (s.readQ s.qsel)) } := by
  induction n generalizing w s with
  | zero =>
    have hrest : s.pending = rest := hp
    refine ⟨s.qptr, ?_⟩
    rw [← hrest]
    simp [readWords, Host.Core.run]
  | succ n ih =>
    have hword := run_readWord s w (readWords n (w + 1)).length _ (by omega) hp
    obtain ⟨ptr, hrun⟩ := ih (w + 1) { s with
      qptr := BitVec.ofNat 32 w
      pending := readWords n (w + 1) ++ rest
      replies := s.replies ++ [windowRead (s.readQ s.qsel) w] } (by omega) rfl
    refine ⟨ptr, hword.trans (hrun.trans ?_)⟩
    simp [List.range'_succ, State.readQ]

/-- A word read through the window holds 32 bits of the register, the padding of its last word 0 (rule R63). -/
theorem bitsOf_windowRead (b : Bits) (m w : Nat) (h : 32 * w + 32 ≤ m) :
    bitsOf 32 (windowRead b w).toNat = group (padR b m) 32 w := by
  have hlen : (padR b m).length = max m b.length := by simp [padR]; omega
  have hg : (group (padR b m) 32 w).length = 32 := by rw [slice_length _ _ _ (by omega)]; omega
  refine bits_ext _ _ (by rw [bitsOf_length, hg]) fun j hj => ?_
  have hj : j < 32 := by simpa using hj
  rw [bitsOf_getD 32 _ j hj, group_getD _ 32 w j hj, padR_getD]
  exact windowRead_getLsbD b w j hj

theorem chunksN_eq_map_group (w n : Nat) (s : Bits) : chunksN w n s = (List.range n).map (group s w) := by
  refine List.ext_getElem? fun k => ?_
  rcases Nat.lt_or_ge k n with h | h
  · rw [chunksN_getElem? w n k s h]
    simp [h]
  · rw [List.getElem?_eq_none (by simpa using h), List.getElem?_eq_none (by simpa using h)]

/-- The words that cover a register put together are the register (rule R78). -/
theorem windowRead_words (b : Bits) (n : Nat) (hb : b.length ≤ 32 * n) :
    (((List.range' 0 n).map (windowRead b)).flatMap fun w => bitsOf 32 w.toNat).take b.length = b := by
  have hgroups : (List.range' 0 n).map (fun w => bitsOf 32 (windowRead b w).toNat) = chunksN 32 n (padR b (32 * n)) := by
    rw [chunksN_eq_map_group, List.range_eq_range']
    refine List.map_congr_left fun w hw => bitsOf_windowRead b (32 * n) w ?_
    have := List.mem_range'_1.mp hw
    omega
  rw [List.flatMap_map, List.flatMap_def, hgroups, chunksN_flatten 32 n _ (padR_length b _ hb), padR, List.take_left]

/-- The two accesses that begin `HostReadQ`: the register is selected and its length read (rules R62 and R78). -/
theorem run_selectAndReadLength (s : State) (i : QReg) (rest : List HostEvent) (k : Nat)
    (hp : s.pending = writeReg .qsel i.val :: readReg .qlen :: rest) :
    Sys2Proof.core.run (k + 2) s = Sys2Proof.core.run k { s with
      qsel := i
      pending := rest
      replies := s.replies ++ [BitVec.ofNat 32 (s.readQ i).length] } := by
  rw [run_writeReg s .qsel i.val (k + 1) _ (by decide) hp, run_readReg _ .qlen k rest rfl]
  simp [State.storeCsr, State.readCsr, State.readQ, regField_ofNat]

/-- Settles O11: the words read cover the register, and the length read cuts off their padding. -/
theorem hostReadQReturnsTheRegister : Obligations.HostReadQReturnsTheRegister := by
  intro s i rest hb hp
  obtain ⟨hcover, hless⟩ := ceilDiv_spec (s.readQ i).length 32 (by omega)
  have hprefix := run_selectAndReadLength s i _ (readWords (ceilDiv (s.readQ i).length 32) 0).length hp
  obtain ⟨ptr, hrun⟩ := run_readWords (ceilDiv (s.readQ i).length 32) 0 { s with
    qsel := i
    pending := readWords (ceilDiv (s.readQ i).length 32) 0 ++ rest
    replies := s.replies ++ [BitVec.ofNat 32 (s.readQ i).length] } rest (by omega) rfl
  have hlen : (BitVec.ofNat 32 (s.readQ i).length).toNat = (s.readQ i).length := by rw [BitVec.toNat_ofNat]; omega
  refine ⟨_, BitVec.ofNat 32 (s.readQ i).length ::
    (List.range' 0 (ceilDiv (s.readQ i).length 32)).map (windowRead (s.readQ i)), hprefix.trans hrun, ?_, ?_⟩
  · rw [assembleQ, hlen, windowRead_words _ _ hcover]
  · simp [State.readQ]

end Sys2Proof.Machine
end

section
/-! PROOF. The window onto the selected q register (O9), and which accesses a step refuses (O6). -/

namespace Sys2Proof.Machine

open Sys2Proof.Claims

/-! ### The window (rules R62 and R63) -/

/-- A length that fits a q register is read from `QLEN` as it is. -/
theorem State.csrRead_qlen_toNat (s : State) (h : (s.readQ s.qsel).length ≤ 65536) :
    (s.csrRead 0x44).toNat = (s.readQ s.qsel).length := by
  show (BitVec.ofNat 32 (s.readQ s.qsel).length).toNat = _
  rw [BitVec.toNat_ofNat, Nat.mod_eq_of_lt (by omega)]

theorem State.csrWrite_qdata (s : State) (v : Word) :
    s.csrWrite 0x4C v = .next (withQ s s.qsel (windowWrite (s.readQ s.qsel) s.qptr.toNat v)) :=
  s.csrWrite_csrAddr .qdata v (by decide)

/-- A length above `QMAX` written to `QLEN` is ignored. -/
theorem State.csrWrite_qlen (s : State) (v : Word) :
    s.csrWrite 0x44 v =
      .next (if v.toNat ≤ 65536 then withQ s s.qsel (resize (s.readQ s.qsel) v.toNat) else s) :=
  s.csrWrite_csrAddr .qlen v (by decide)

/-- Settles O9: the accesses are `windowRead`, `windowWrite` and `resize`, whose bits are known. -/
theorem windowReadsAndWritesBits : Obligations.WindowReadsAndWritesBits := by
  intro s v
  refine ⟨fun j hj => windowRead_getLsbD _ _ j hj, ⟨_, s.csrWrite_qdata v, windowWrite_length _ _ _, fun p hp => ?_⟩,
    s.csrRead_qlen_toNat, fun hv => ⟨resize (s.readQ s.qsel) v.toNat, ?_, resize_length _ _, resize_getD _ _⟩,
    fun hv => ?_⟩
  · exact windowWrite_getD _ _ v p (by rwa [windowWrite_length] at hp)
  · rw [s.csrWrite_qlen, if_pos hv]
  · rw [s.csrWrite_qlen, if_neg (Nat.not_le.mpr hv)]

/-! ### Which accesses are refused (rule R61) -/

theorem accessRefusal_eq_some (addr bytes : Nat) :
    (∃ r, accessRefusal addr bytes = some r) ↔ bytes ≠ 4 ∨ 0xFF < addr ∨ addr % 4 ≠ 0 := by
  rw [← Option.ne_none_iff_exists', Ne, accessRefusal_eq_none]
  omega

theorem State.serve_read_refused (s : State) (addr bytes : Nat) :
    (∃ r, s.serve (.read addr bytes) = .refused r) ↔ ∃ r, accessRefusal addr bytes = some r := by
  cases hr : accessRefusal addr bytes <;> simp [State.serve, hr]

/-- A write that reaches its register is not refused, whatever the register, `CMD` included. -/
theorem State.serve_write_refused (s : State) (addr bytes : Nat) (v : Word) :
    (∃ r, s.serve (.write addr bytes v) = .refused r) ↔ ∃ r, accessRefusal addr bytes = some r := by
  obtain ⟨t, ht⟩ := s.csrWrite_next addr v
  cases hr : accessRefusal addr bytes <;> simp [State.serve, hr, ht]

theorem State.serve_refused (s : State) (e : HostEvent) :
    (∃ r, s.serve e = .refused r) ↔
      ∃ a n, (n ≠ 4 ∨ 0xFF < a ∨ a % 4 ≠ 0) ∧ (e = .read a n ∨ ∃ v, e = .write a n v) := by
  cases e with
  | read addr bytes =>
    rw [s.serve_read_refused, accessRefusal_eq_some]
    refine ⟨fun h => ⟨addr, bytes, h, .inl rfl⟩, ?_⟩
    rintro ⟨a, n, h, he | ⟨v, he⟩⟩ <;> cases he
    exact h
  | write addr bytes v =>
    rw [s.serve_write_refused, accessRefusal_eq_some]
    refine ⟨fun h => ⟨addr, bytes, h, .inr ⟨v, rfl⟩⟩, ?_⟩
    rintro ⟨a, n, h, he | ⟨v', he⟩⟩ <;> cases he
    exact h
  | rst => simp [State.serve]

/-- No access ends in a fault: it answers a next state or is refused. -/
theorem State.serve_next_or_refused (s : State) (e : HostEvent) :
    (∃ t, s.serve e = .next t) ∨ ∃ r, s.serve e = .refused r := by
  cases hs : s.serve e with
  | next t => exact .inl ⟨t, rfl⟩
  | refused r => exact .inr ⟨r, rfl⟩
  | fault f => exact nomatch f

/-- Settles O6, by the access the step serves. -/
theorem onlyAccessesOutsideTheSpecAreRefused : Obligations.OnlyAccessesOutsideTheSpecAreRefused := by
  intro s e rest hp
  have hstep : step s = { s with pending := rest }.serve e := by rw [step, State.serveNext, hp]
  rw [hstep]
  refine ⟨State.serve_refused _ e, ?_, (State.serve_next_or_refused _ e).resolve_right⟩
  rintro ⟨t, ht⟩ ⟨r, hr⟩
  cases ht.symm.trans hr

end Sys2Proof.Machine
end

section
/-! SUPPORT. The fields of a command word (rules R13 and R91): the operands of a word put together from its fields, and
the fields under a mask of the opcode table (rule R94). -/

namespace Sys2Proof.Laws

/-! ### Fields and operands -/

theorem rdOf_val (w : Word) : (rdOf w).val = field w 23 21 := by
  simp [rdOf, regField, field]

theorem rs1Of_val (w : Word) : (rs1Of w).val = field w 20 18 := by
  simp [rs1Of, regField, field]

theorem rs2Of_val (w : Word) : (rs2Of w).val = field w 17 15 := by
  simp [rs2Of, regField, field]

theorem immOf_lt (w : Word) : immOf w < 2 ^ 15 := Nat.mod_lt _ (by decide)

@[simp] theorem rdOf_wordOf (opVar : Nat) (rd rs1 rs2 : QReg) (imm : Nat) :
    rdOf (wordOf opVar rd rs1 rs2 imm) = rd := by
  ext
  rw [rdOf_val]
  simp only [field, wordOf, BitVec.toNat_ofNat]
  omega

@[simp] theorem rs1Of_wordOf (opVar : Nat) (rd rs1 rs2 : QReg) (imm : Nat) :
    rs1Of (wordOf opVar rd rs1 rs2 imm) = rs1 := by
  ext
  rw [rs1Of_val]
  simp only [field, wordOf, BitVec.toNat_ofNat]
  omega

@[simp] theorem rs2Of_wordOf (opVar : Nat) (rd rs1 rs2 : QReg) (imm : Nat) :
    rs2Of (wordOf opVar rd rs1 rs2 imm) = rs2 := by
  ext
  rw [rs2Of_val]
  simp only [field, wordOf, BitVec.toNat_ofNat]
  omega

@[simp] theorem immOf_wordOf (opVar : Nat) (rd rs1 rs2 : QReg) (imm : Nat) :
    immOf (wordOf opVar rd rs1 rs2 imm) = imm % 2 ^ 15 := by
  simp only [immOf, field, wordOf, BitVec.toNat_ofNat]
  omega

/-- The five fields of rule R91 are the whole word. -/
theorem wordOf_fields (w : Word) : wordOf (field w 31 24) (rdOf w) (rs1Of w) (rs2Of w) (immOf w) = w := by
  apply BitVec.eq_of_toNat_eq
  rw [wordOf, BitVec.toNat_ofNat, rdOf_val, rs1Of_val, rs2Of_val]
  simp only [immOf, field]
  omega

theorem extractLsb'_eq_field (w : Word) (hi lo : Nat) :
    w.extractLsb' lo (hi + 1 - lo) = BitVec.ofNat (hi + 1 - lo) (field w hi lo) := by
  apply BitVec.eq_of_toNat_eq
  simp [field, Nat.shiftRight_eq_div_pow]

theorem ofNat_rdOf (w : Word) : BitVec.ofNat 3 (rdOf w).val = w.extractLsb' 21 3 := by
  rw [rdOf_val, ← extractLsb'_eq_field w 23 21]

theorem ofNat_rs1Of (w : Word) : BitVec.ofNat 3 (rs1Of w).val = w.extractLsb' 18 3 := by
  rw [rs1Of_val, ← extractLsb'_eq_field w 20 18]

theorem ofNat_rs2Of (w : Word) : BitVec.ofNat 3 (rs2Of w).val = w.extractLsb' 15 3 := by
  rw [rs2Of_val, ← extractLsb'_eq_field w 17 15]

theorem immOf_eq_extractLsb' (w : Word) : immOf w = (w.extractLsb' 0 15).toNat := by
  rw [extractLsb'_eq_field w 14 0, BitVec.toNat_ofNat]
  exact (Nat.mod_eq_of_lt (immOf_lt w)).symm

/-! ### Masks -/

/-- The word with ones in bits hi down to lo. -/
def fieldMask (hi lo : Nat) : Word := BitVec.ofNat 32 ((2 ^ (hi + 1 - lo) - 1) * 2 ^ lo)

theorem and_fieldMask_toNat (w : Word) (hi lo : Nat) (hmask : (2 ^ (hi + 1 - lo) - 1) * 2 ^ lo < 2 ^ 32) :
    (w &&& fieldMask hi lo).toNat = field w hi lo * 2 ^ lo := by
  rw [fieldMask, BitVec.toNat_and, BitVec.toNat_ofNat, Nat.mod_eq_of_lt hmask, field, ← Nat.and_two_pow_sub_one_eq_mod]
  apply Nat.eq_of_testBit_eq
  intro j
  by_cases hj : lo ≤ j
  · simp [Nat.testBit_mul_two_pow, Nat.testBit_div_two_pow, hj, Bool.and_comm]
  · simp [Nat.testBit_mul_two_pow, hj]

theorem and_fieldMask_eq_iff (w : Word) (hi lo v : Nat) (hmask : (2 ^ (hi + 1 - lo) - 1) * 2 ^ lo < 2 ^ 32)
    (hv : v * 2 ^ lo < 2 ^ 32) : w &&& fieldMask hi lo = BitVec.ofNat 32 (v * 2 ^ lo) ↔ field w hi lo = v := by
  rw [← BitVec.toNat_inj, and_fieldMask_toNat w hi lo hmask, BitVec.toNat_ofNat, Nat.mod_eq_of_lt hv]
  exact Nat.mul_left_inj (Nat.two_pow_pos lo).ne'

/-- A word agrees with p under two masks, of which p lies in the first, when it agrees with p there and is 0 under the
second. -/
theorem and_or_eq_iff (w a b p : Word) (ha : p &&& a = p) (hb : p &&& b = 0) :
    w &&& (a ||| b) = p ↔ w &&& a = p ∧ w &&& b = 0 := by
  constructor
  · intro h
    have hwa : w &&& a = (w &&& (a ||| b)) &&& a := by grind
    have hwb : w &&& b = (w &&& (a ||| b)) &&& b := by grind
    rw [hwa, hwb, h]
    exact ⟨ha, hb⟩
  · rintro ⟨h₁, h₂⟩
    rw [BitVec.and_or_distrib_left, h₁, h₂]
    exact BitVec.or_zero

end Sys2Proof.Laws
end

section
/-! SUPPORT. The commands of the opcode table as data: the fields each one's format uses and the command it makes of
them (rules R92 and R94), and what the decoder, the encoder and the table's words and masks are in these terms. -/

namespace Sys2Proof.Laws

/-! ### Formats -/

/-- Which operand fields a format uses; the others are 0 in its words (rule R92). -/
structure UsedFields where
  rd : Bool
  rs1 : Bool
  rs2 : Bool
  imm : Bool

namespace UsedFields

abbrev z : UsedFields := ⟨false, false, false, false⟩
abbrev s : UsedFields := ⟨false, true, false, false⟩
abbrev d : UsedFields := ⟨true, true, false, false⟩
abbrev t : UsedFields := ⟨true, true, true, false⟩
abbrev i : UsedFields := ⟨true, true, false, true⟩
abbrev k : UsedFields := ⟨true, false, false, true⟩

/-- The fields the format does not use are 0 in the word. -/
def Clear (u : UsedFields) (w : Word) : Prop :=
  (u.rd = false → field w 23 21 = 0) ∧ (u.rs1 = false → field w 20 18 = 0) ∧ (u.rs2 = false → field w 17 15 = 0) ∧
    (u.imm = false → field w 14 0 = 0)

/-- The operand fields the format does not use, as a mask. -/
def unusedMask (u : UsedFields) : Word :=
  (if u.rd then 0 else fieldMask 23 21) ||| (if u.rs1 then 0 else fieldMask 20 18) |||
    (if u.rs2 then 0 else fieldMask 17 15) ||| (if u.imm then 0 else fieldMask 14 0)

/-- A word with these operands in the fields the format uses, and 0 in the others. -/
def word (u : UsedFields) (opVar : Nat) (rd rs1 rs2 : QReg) (imm : Nat) : Word :=
  wordOf opVar (if u.rd then rd else 0) (if u.rs1 then rs1 else 0) (if u.rs2 then rs2 else 0) (if u.imm then imm else 0)

theorem and_unusedMask_eq_zero_iff (u : UsedFields) (w : Word) : w &&& u.unusedMask = 0#32 ↔ u.Clear w := by
  have hfield (hi lo : Nat) (h : (2 ^ (hi + 1 - lo) - 1) * 2 ^ lo < 2 ^ 32) (used : Bool) :
      w &&& (if used then 0 else fieldMask hi lo) = 0#32 ↔ (used = false → field w hi lo = 0) := by
    cases used with
    | false => simpa using and_fieldMask_eq_iff w hi lo 0 h (by simp)
    | true => simp
  simp only [unusedMask, Clear, BitVec.and_or_distrib_left, BitVec.or_eq_zero_iff, and_assoc,
    hfield 23 21 (by decide), hfield 20 18 (by decide), hfield 17 15 (by decide), hfield 14 0 (by decide)]

theorem clear_word (u : UsedFields) (opVar : Nat) (rd rs1 rs2 : QReg) (imm : Nat) :
    u.Clear (u.word opVar rd rs1 rs2 imm) := by
  refine ⟨fun h => ?_, fun h => ?_, fun h => ?_, fun h => ?_⟩
  · rw [← rdOf_val, word, rdOf_wordOf, h]; rfl
  · rw [← rs1Of_val, word, rs1Of_wordOf, h]; rfl
  · rw [← rs2Of_val, word, rs2Of_wordOf, h]; rfl
  · exact (immOf_wordOf ..).trans (by rw [h]; rfl)

theorem word_fields_of_clear (u : UsedFields) (w : Word) (h : u.Clear w) :
    u.word (field w 31 24) (rdOf w) (rs1Of w) (rs2Of w) (immOf w) = w := by
  obtain ⟨hrd, hrs1, hrs2, himm⟩ := h
  have keep {α : Type} [Zero α] (used : Bool) (x : α) (hx : used = false → x = 0) : (if used then x else 0) = x := by
    cases used with
    | false => exact (hx rfl).symm
    | true => rfl
  rw [word, keep u.rd _ fun hu => Fin.ext ((rdOf_val w).trans (hrd hu)),
    keep u.rs1 _ fun hu => Fin.ext ((rs1Of_val w).trans (hrs1 hu)),
    keep u.rs2 _ fun hu => Fin.ext ((rs2Of_val w).trans (hrs2 hu)), keep u.imm (immOf w) himm, wordOf_fields]

end UsedFields

/-! ### The model's six formats -/

theorem field_17_0_eq_zero_iff (w : Word) : field w 17 0 = 0 ↔ field w 17 15 = 0 ∧ field w 14 0 = 0 := by
  simp only [field, Nat.pow_zero, Nat.div_one]
  omega

theorem field_20_15_eq_zero_iff (w : Word) : field w 20 15 = 0 ↔ field w 20 18 = 0 ∧ field w 17 15 = 0 := by
  simp only [field]
  omega

theorem field_23_0_eq_zero_iff (w : Word) :
    field w 23 0 = 0 ↔ field w 23 21 = 0 ∧ field w 20 18 = 0 ∧ field w 17 15 = 0 ∧ field w 14 0 = 0 := by
  simp only [field, Nat.pow_zero, Nat.div_one]
  omega

theorem formatZ_eq_some_iff (w : Word) (mk : Instr) (i : Instr) :
    formatZ w mk = some i ↔ UsedFields.z.Clear w ∧ mk = i := by
  simp [formatZ, UsedFields.Clear, field_23_0_eq_zero_iff]

theorem formatS_eq_some_iff (w : Word) (mk : QReg → Instr) (i : Instr) :
    formatS w mk = some i ↔ UsedFields.s.Clear w ∧ mk (rs1Of w) = i := by
  simp [formatS, UsedFields.Clear, field_17_0_eq_zero_iff]

theorem formatD_eq_some_iff (w : Word) (mk : QReg → QReg → Instr) (i : Instr) :
    formatD w mk = some i ↔ UsedFields.d.Clear w ∧ mk (rdOf w) (rs1Of w) = i := by
  simp [formatD, UsedFields.Clear, field_17_0_eq_zero_iff]

theorem formatT_eq_some_iff (w : Word) (mk : QReg → QReg → QReg → Instr) (i : Instr) :
    formatT w mk = some i ↔ UsedFields.t.Clear w ∧ mk (rdOf w) (rs1Of w) (rs2Of w) = i := by
  simp [formatT, UsedFields.Clear]

theorem formatI_eq_some_iff (w : Word) (mk : QReg → QReg → Nat → Instr) (i : Instr) :
    formatI w mk = some i ↔ UsedFields.i.Clear w ∧ mk (rdOf w) (rs1Of w) (immOf w) = i := by
  simp [formatI, UsedFields.Clear]

theorem formatK_eq_some_iff (w : Word) (mk : QReg → Nat → Instr) (i : Instr) :
    formatK w mk = some i ↔ UsedFields.k.Clear w ∧ mk (rdOf w) (immOf w) = i := by
  simp [formatK, UsedFields.Clear, field_20_15_eq_zero_iff]

/-! ### The commands -/

/-- A row of the opcode table: its opcode byte, the fields its format uses, and the command it makes of the operands. -/
structure Shape where
  opVar : Nat
  uses : UsedFields
  make : QReg → QReg → QReg → Nat → Instr

/-- The 34 commands of rule R94, in the table's order. -/
def shapes : List Shape := [
  ⟨0x20, .d, fun rd rs1 _ _ => .tobits rd rs1⟩,
  ⟨0x24, .d, fun rd rs1 _ _ => .frombits rd rs1⟩,
  ⟨0x28, .d, fun rd rs1 _ _ => .tohex rd rs1⟩,
  ⟨0x2C, .d, fun rd rs1 _ _ => .fromhex rd rs1⟩,
  ⟨0x40, .t, fun rd rs1 rs2 _ => .xor rd rs1 rs2⟩,
  ⟨0x44, .d, fun rd rs1 _ _ => .sub4 rd rs1⟩,
  ⟨0x45, .d, fun rd rs1 _ _ => .sub4I rd rs1⟩,
  ⟨0x48, .d, fun rd rs1 _ _ => .perm rd rs1⟩,
  ⟨0x49, .d, fun rd rs1 _ _ => .permI rd rs1⟩,
  ⟨0x4C, .z, fun _ _ _ _ => .pdflt⟩,
  ⟨0x50, .z, fun _ _ _ _ => .pload⟩,
  ⟨0x60, .s, fun _ rs1 _ _ => .ksched rs1⟩,
  ⟨0x64, .k, fun rd _ _ imm => .rkget rd imm⟩,
  ⟨0x80, .i, fun rd rs1 _ imm => .frnd rd rs1 imm⟩,
  ⟨0x81, .i, fun rd rs1 _ imm => .frndI rd rs1 imm⟩,
  ⟨0x84, .d, fun rd rs1 _ _ => .feisE rd rs1⟩,
  ⟨0x85, .d, fun rd rs1 _ _ => .feisD rd rs1⟩,
  ⟨0xA0, .i, fun rd rs1 _ imm => .srnd rd rs1 imm⟩,
  ⟨0xA1, .i, fun rd rs1 _ imm => .srndI rd rs1 imm⟩,
  ⟨0xA4, .d, fun rd rs1 _ _ => .spnE rd rs1⟩,
  ⟨0xA5, .d, fun rd rs1 _ _ => .spnD rd rs1⟩,
  ⟨0xC0, .d, fun rd rs1 _ _ => .pad rd rs1⟩,
  ⟨0xC4, .d, fun rd rs1 _ _ => .unpad rd rs1⟩,
  ⟨0xC8, .d, fun rd rs1 _ _ => .ecbEF rd rs1⟩,
  ⟨0xC9, .d, fun rd rs1 _ _ => .ecbDF rd rs1⟩,
  ⟨0xCA, .d, fun rd rs1 _ _ => .ecbES rd rs1⟩,
  ⟨0xCB, .d, fun rd rs1 _ _ => .ecbDS rd rs1⟩,
  ⟨0xCC, .t, fun rd rs1 rs2 _ => .cbcEF rd rs1 rs2⟩,
  ⟨0xCD, .t, fun rd rs1 rs2 _ => .cbcDF rd rs1 rs2⟩,
  ⟨0xCE, .t, fun rd rs1 rs2 _ => .cbcES rd rs1 rs2⟩,
  ⟨0xCF, .t, fun rd rs1 rs2 _ => .cbcDS rd rs1 rs2⟩,
  ⟨0xE0, .z, fun _ _ _ _ => .nop⟩,
  ⟨0xE4, .z, fun _ _ _ _ => .clrerr⟩,
  ⟨0xE8, .d, fun rd rs1 _ _ => .mov rd rs1⟩]

/-- The command the row makes of a word's fields. -/
def Shape.command (f : Shape) (w : Word) : Instr := f.make (rdOf w) (rs1Of w) (rs2Of w) (immOf w)

/-- The word is one of the row's: it has the opcode byte, and 0 in the fields the format does not use. -/
def Shape.Covers (f : Shape) (w : Word) : Prop := field w 31 24 = f.opVar ∧ f.uses.Clear w

/-- The row as the opcode table writes it, with its name, its `match` word and its mask. -/
def Shape.row (f : Shape) : OpcodeRow :=
  ⟨(f.make 0 0 0 0).mnemonic, BitVec.ofNat 32 (f.opVar * 2 ^ 24), fieldMask 31 24 ||| f.uses.unusedMask⟩

theorem opcodeTable_eq_map_row : opcodeTable = shapes.map Shape.row := by decide

/-- What the model's definitions say of the commands a row makes. -/
structure Shape.Lawful (f : Shape) : Prop where
  opVar_lt : f.opVar < 256
  encode_make : ∀ rd rs1 rs2 imm, encode (f.make rd rs1 rs2 imm) = f.uses.word f.opVar rd rs1 rs2 imm
  make_used : ∀ rd rs1 rs2 imm, f.make (if f.uses.rd then rd else 0) (if f.uses.rs1 then rs1 else 0)
    (if f.uses.rs2 then rs2 else 0) (if f.uses.imm then imm else 0) = f.make rd rs1 rs2 imm
  mnemonic_make : ∀ rd rs1 rs2 imm, (f.make rd rs1 rs2 imm).mnemonic = f.row.mnemonic
  rd?_make : ∀ rd rs1 rs2 imm, (f.make rd rs1 rs2 imm).rd? = if f.uses.rd then some rd else none
  rs1?_make : ∀ rd rs1 rs2 imm, (f.make rd rs1 rs2 imm).rs1? = if f.uses.rs1 then some rs1 else none
  rs2?_make : ∀ rd rs1 rs2 imm, (f.make rd rs1 rs2 imm).rs2? = if f.uses.rs2 then some rs2 else none
  imm?_make : ∀ rd rs1 rs2 imm, (f.make rd rs1 rs2 imm).imm? = if f.uses.imm then some imm else none

theorem lawful_of_mem : ∀ f ∈ shapes, f.Lawful := by
  simp only [shapes, List.forall_mem_cons, List.not_mem_nil, false_implies, implies_true, and_true]
  and_intros
  all_goals exact ⟨by decide, fun _ _ _ _ => rfl, fun _ _ _ _ => rfl, fun _ _ _ _ => rfl, fun _ _ _ _ => rfl,
      fun _ _ _ _ => rfl, fun _ _ _ _ => rfl, fun _ _ _ _ => rfl⟩

/-- Every command is made by the table's row at its place among the constructors, from its own operands. -/
theorem exists_make_eq (i : Instr) : ∃ f ∈ shapes, ∃ rd rs1 rs2 imm, f.make rd rs1 rs2 imm = i := by
  have hrow : ∃ f, shapes[i.ctorIdx]? = some f ∧
      f.make (i.rd?.getD 0) (i.rs1?.getD 0) (i.rs2?.getD 0) (i.imm?.getD 0) = i := by
    cases i <;> exact ⟨_, rfl, rfl⟩
  obtain ⟨f, hf, hi⟩ := hrow
  exact ⟨f, List.mem_of_getElem? hf, _, _, _, _, hi⟩

/-! ### The decoder -/

theorem decode_eq_some_iff_of_opVar : ∀ f ∈ shapes, ∀ w i, field w 31 24 = f.opVar →
    (decode w = some i ↔ f.uses.Clear w ∧ f.command w = i) := by
  simp only [shapes, List.forall_mem_cons, List.not_mem_nil, false_implies, implies_true, and_true]
  and_intros
  all_goals
    intro w i h
    simp only [decode, h, formatZ_eq_some_iff, formatS_eq_some_iff, formatD_eq_some_iff, formatT_eq_some_iff,
      formatI_eq_some_iff, formatK_eq_some_iff]
    rfl

theorem decode_of_unknown_opVar (w : Word) (h : field w 31 24 ∉ shapes.map Shape.opVar) : decode w = none := by
  unfold decode
  split
  case h_35 => rfl
  all_goals next hop => exact absurd (hop ▸ by decide) h

/-- A word decodes to a command exactly when a row of the table covers it and makes that command of its fields. -/
theorem decode_eq_some_iff (w : Word) (i : Instr) :
    decode w = some i ↔ ∃ f ∈ shapes, f.Covers w ∧ f.command w = i := by
  constructor
  · intro h
    have hop : field w 31 24 ∈ shapes.map Shape.opVar := by
      by_contra hop
      simp [decode_of_unknown_opVar w hop] at h
    obtain ⟨f, hf, hop⟩ := List.mem_map.mp hop
    obtain ⟨hclear, hi⟩ := (decode_eq_some_iff_of_opVar f hf w i hop.symm).mp h
    exact ⟨f, hf, ⟨hop.symm, hclear⟩, hi⟩
  · rintro ⟨f, hf, ⟨hop, hclear⟩, hi⟩
    exact (decode_eq_some_iff_of_opVar f hf w i hop).mpr ⟨hclear, hi⟩

/-! ### Rows and words -/

theorem opVar_injective_on_shapes {f g : Shape} (hf : f ∈ shapes) (hg : g ∈ shapes) (h : f.opVar = g.opVar) : f = g :=
  List.inj_on_of_nodup_map (f := Shape.opVar) (by decide) hf hg h

namespace Shape

/-- The row's mask and `match` word select the words it covers (rule R95). -/
theorem and_mask_eq_pattern_iff {f : Shape} (hf : f ∈ shapes) (w : Word) :
    w &&& f.row.mask = f.row.pattern ↔ f.Covers w := by
  have hpattern : ∀ f ∈ shapes, f.row.pattern &&& fieldMask 31 24 = f.row.pattern ∧
      f.row.pattern &&& f.uses.unusedMask = 0#32 := by decide
  have hop := and_fieldMask_eq_iff w 31 24 f.opVar (by decide) (by have := (lawful_of_mem f hf).opVar_lt; omega)
  exact (and_or_eq_iff w _ _ _ (hpattern f hf).1 (hpattern f hf).2).trans
    (and_congr hop (f.uses.and_unusedMask_eq_zero_iff w))

theorem covers_word {f : Shape} (hf : f.Lawful) (rd rs1 rs2 : QReg) (imm : Nat) :
    f.Covers (f.uses.word f.opVar rd rs1 rs2 imm) :=
  ⟨field_wordOf _ _ _ _ _ hf.opVar_lt, f.uses.clear_word _ _ _ _ _⟩

theorem command_word {f : Shape} (hf : f.Lawful) (rd rs1 rs2 : QReg) (imm : Nat)
    (himm : f.uses.imm = true → imm < 2 ^ 15) :
    f.command (f.uses.word f.opVar rd rs1 rs2 imm) = f.make rd rs1 rs2 imm := by
  have hmod : (if f.uses.imm then imm else 0) % 2 ^ 15 = if f.uses.imm then imm else 0 := by
    split
    · next hu => exact Nat.mod_eq_of_lt (himm hu)
    · rfl
  rw [command, UsedFields.word, rdOf_wordOf, rs1Of_wordOf, rs2Of_wordOf, immOf_wordOf, hmod, hf.make_used]

theorem make_wellFormed_iff {f : Shape} (hf : f.Lawful) (rd rs1 rs2 : QReg) (imm : Nat) :
    (f.make rd rs1 rs2 imm).WellFormed = true ↔ (f.uses.imm = true → imm < 2 ^ 15) := by
  rw [Instr.WellFormed, hf.imm?_make]
  cases f.uses.imm <;> simp [immFits]

theorem encode_command {f : Shape} (hf : f.Lawful) (w : Word) (h : f.Covers w) : encode (f.command w) = w := by
  obtain ⟨hop, hclear⟩ := h
  rw [command, hf.encode_make, ← hop, f.uses.word_fields_of_clear w hclear]

end Shape

end Sys2Proof.Laws
end

section
/-! PROOF. The decoder and the encoder undo each other (O1, O2), the decoder follows the opcode table (O3), and the
worked encodings (O4). -/

namespace Sys2Proof.Laws

/-- Settles O1: the command's row covers the word and makes the command of its fields. -/
theorem decodeOfEncodeIsIdentity : Obligations.DecodeOfEncodeIsIdentity := by
  intro i hi
  obtain ⟨f, hf, rd, rs1, rs2, imm, rfl⟩ := exists_make_eq i
  have hlaws := lawful_of_mem f hf
  have himm := (Shape.make_wellFormed_iff hlaws rd rs1 rs2 imm).mp hi
  rw [hlaws.encode_make, decode_eq_some_iff]
  exact ⟨f, hf, Shape.covers_word hlaws rd rs1 rs2 imm, Shape.command_word hlaws rd rs1 rs2 imm himm⟩

/-- Settles O2, by the row that covers the word. -/
theorem encodeOfDecodeIsIdentity : Obligations.EncodeOfDecodeIsIdentity := by
  intro w i h
  obtain ⟨f, hf, hcovers, rfl⟩ := (decode_eq_some_iff w i).mp h
  have hlaws := lawful_of_mem f hf
  exact ⟨(Shape.make_wellFormed_iff hlaws _ _ _ _).mpr fun _ => immOf_lt w, Shape.encode_command hlaws w hcovers⟩

/-- Settles O3: a row's mask and `match` word say that its shape covers the word, and opcode bytes tell the
rows apart. -/
theorem decodeFollowsOpcodeTable : Obligations.DecodeFollowsOpcodeTable := by
  intro w
  simp only [opcodeTable_eq_map_row, List.forall_mem_map]
  refine ⟨fun f hf g hg hfw hgw => ?_, fun f hf hfw => ?_, fun hnone => ?_⟩
  · obtain ⟨hfop, -⟩ := (Shape.and_mask_eq_pattern_iff hf w).mp hfw
    obtain ⟨hgop, -⟩ := (Shape.and_mask_eq_pattern_iff hg w).mp hgw
    rw [opVar_injective_on_shapes hf hg (hfop.symm.trans hgop)]
  · have hcovers := (Shape.and_mask_eq_pattern_iff hf w).mp hfw
    have hlaws := lawful_of_mem f hf
    refine ⟨f.command w, (decode_eq_some_iff w _).mpr ⟨f, hf, hcovers, rfl⟩, hlaws.mnemonic_make _ _ _ _, ?_⟩
    simp only [Shape.command, hlaws.rd?_make, hlaws.rs1?_make, hlaws.rs2?_make, hlaws.imm?_make,
      Option.ite_none_right_eq_some, Option.some_inj]
    exact ⟨fun d ⟨_, hd⟩ => hd ▸ ofNat_rdOf w, fun d ⟨_, hd⟩ => hd ▸ ofNat_rs1Of w, fun d ⟨_, hd⟩ => hd ▸ ofNat_rs2Of w,
      fun n ⟨_, hn⟩ => hn ▸ immOf_eq_extractLsb' w⟩
  · rw [Option.eq_none_iff_forall_ne_some]
    intro i hi
    obtain ⟨f, hf, hcovers, -⟩ := (decode_eq_some_iff w i).mp hi
    exact hnone f hf ((Shape.and_mask_eq_pattern_iff hf w).mpr hcovers)

/-- Settles O4: closed facts, by evaluation. -/
theorem workedEncodings : Obligations.WorkedEncodings := by
  unfold Obligations.WorkedEncodings
  decide

end Sys2Proof.Laws
end

section
/-! SUPPORT. Characters, text and the four formats (rules R120, R121 and R126): what the codec's functions give, digit
by digit, and the mask and `match` word of a command's row. -/

namespace Sys2Proof.Machine

open Sys2Proof.Claims

/-! ### Characters -/

theorem isBin_iff (c : Nat) : isBin c = true ↔ c = 0x30 ∨ c = 0x31 := by simp [isBin]

theorem isDec_iff (c : Nat) : isDec c = true ↔ 0x30 ≤ c ∧ c ≤ 0x39 := by simp [isDec]

theorem isLetter_iff (c : Nat) : isLetter c = true ↔ (0x61 ≤ c ∧ c ≤ 0x66) ∨ (0x41 ≤ c ∧ c ≤ 0x46) := by
  simp [isLetter]

theorem isHex_iff (c : Nat) :
    isHex c = true ↔ (0x30 ≤ c ∧ c ≤ 0x39) ∨ (0x61 ≤ c ∧ c ≤ 0x66) ∨ (0x41 ≤ c ∧ c ≤ 0x46) := by
  rw [isHex, Bool.or_eq_true, isDec_iff, isLetter_iff]

theorem hexVal_digit (c : Nat) (h : 0x30 ≤ c ∧ c ≤ 0x39) : hexVal c = c - 0x30 := if_pos ((isDec_iff c).mpr h)

theorem hexVal_lower (c : Nat) (h : 0x61 ≤ c) : hexVal c = c - 0x61 + 10 := by
  have hdec : ¬ isDec c = true := by rw [isDec_iff]; omega
  rw [hexVal, if_neg hdec, if_pos h]

theorem hexVal_upper (c : Nat) (h : 0x41 ≤ c ∧ c ≤ 0x46) : hexVal c = c - 0x41 + 10 := by
  have hdec : ¬ isDec c = true := by rw [isDec_iff]; omega
  rw [hexVal, if_neg hdec, if_neg (by omega)]

theorem hexVal_lt (c : Nat) (h : isHex c = true) : hexVal c < 16 := by
  rcases (isHex_iff c).mp h with hd | hl | hu
  · rw [hexVal_digit c hd]; omega
  · rw [hexVal_lower c hl.1]; omega
  · rw [hexVal_upper c hu]; omega

theorem hexChar_digit (v : Nat) (h : v ≤ 9) : hexChar v = 0x30 + v := if_pos h

theorem hexChar_letter (v : Nat) (h : 9 < v) : hexChar v = 0x61 + v - 10 := if_neg (Nat.not_le.mpr h)

theorem hexChar_lt (v : Nat) (h : v < 16) : hexChar v < 2 ^ 8 := by
  rcases Nat.lt_or_ge 9 v with hv | hv
  · rw [hexChar_letter v hv]; omega
  · rw [hexChar_digit v hv]; omega

theorem isHex_hexChar (v : Nat) (h : v < 16) : isHex (hexChar v) = true := by
  rw [isHex_iff]
  rcases Nat.lt_or_ge 9 v with hv | hv
  · rw [hexChar_letter v hv]; omega
  · rw [hexChar_digit v hv]; omega

/-- A value written as a digit and read again is the value. -/
theorem hexVal_hexChar (v : Nat) : hexVal (hexChar v) = v := by
  rcases Nat.lt_or_ge 9 v with hv | hv
  · rw [hexChar_letter v hv, hexVal_lower _ (by omega)]; omega
  · rw [hexChar_digit v hv, hexVal_digit _ (by omega)]; omega

/-- A digit read and written again is the digit, its letter in lower case. -/
theorem hexChar_hexVal (c : Nat) (h : isHex c = true) :
    hexChar (hexVal c) = if 0x41 ≤ c ∧ c ≤ 0x46 then c + 0x20 else c := by
  rcases (isHex_iff c).mp h with hd | hl | hu
  · rw [hexVal_digit c hd, hexChar_digit _ (by omega), if_neg (by omega)]; omega
  · rw [hexVal_lower c hl.1, hexChar_letter _ (by omega), if_neg (by omega)]; omega
  · rw [hexVal_upper c hu, hexChar_letter _ (by omega), if_pos hu]; omega

/-! ### Text -/

@[simp] theorem isText_iff (t : Bits) : isText t = true ↔ t.length % 8 = 0 := by simp [isText]

theorem mem_map_bitsOf_length (w : Nat) (c : List Nat) (f : Nat → Nat) :
    ∀ p ∈ c.map (fun x => bitsOf w (f x)), p.length = w := by
  intro p hp
  obtain ⟨x, -, rfl⟩ := List.mem_map.mp hp
  exact bitsOf_length w _

/-- Values written w bits each and cut into chunks of w bits are the pieces again. -/
theorem chunks_flatMap_bitsOf (w : Nat) (c : List Nat) (f : Nat → Nat) (hw : 1 ≤ w) :
    chunks (c.flatMap fun x => bitsOf w (f x)) w = c.map fun x => bitsOf w (f x) :=
  chunks_of_flatten w _ hw (mem_map_bitsOf_length w c f)

/-- Chunks each written as they are give the sequence back. -/
theorem flatMap_chunks_self (w n : Nat) (s : Bits) (f : Bits → Bits) (hw : 1 ≤ w) (hs : s.length = w * n)
    (hf : ∀ p, p.length = w → f p = p) : (chunks s w).flatMap f = s := by
  have hpiece : ∀ p ∈ chunks s w, f p = p := fun p hp => hf p (mem_chunks_length s n w hw hs p hp)
  rw [List.flatMap_def, List.map_congr_left hpiece, List.map_id', chunks_flatten s n w hw hs]

/-- Group k of values written w bits each reads value k. -/
theorem val_group_flatMap_bitsOf (w : Nat) (c : List Nat) (f : Nat → Nat) (k : Nat) (hf : ∀ x ∈ c, f x < 2 ^ w)
    (hk : k < c.length) : val (group (c.flatMap fun x => bitsOf w (f x)) w k) = f (c.getD k 0) := by
  have hgroup := group_flatten w k _ (mem_map_bitsOf_length w c f) (by simpa using hk)
  rw [List.getElem?_map, List.getElem?_eq_getElem hk, Option.map_some, Option.some_inj, ← List.flatMap_def] at hgroup
  rw [← hgroup, List.getD_eq_getElem _ _ hk]
  exact val_bitsOf w _ (hf _ (List.getElem_mem hk))

theorem bytesOf_ofBytes (c : List Nat) (h : ∀ x ∈ c, x < 2 ^ 8) : bytesOf (ofBytes c) = c := by
  have hval : ∀ x ∈ c, (val ∘ bitsOf 8) x = x := fun x hx => val_bitsOf 8 x (h x hx)
  rw [bytesOf, ofBytes, chunks_flatMap_bitsOf 8 c (fun x => x) (by omega), List.map_map, List.map_congr_left hval,
    List.map_id']

theorem ofBytes_bytesOf (t : Bits) (h : t.length % 8 = 0) : ofBytes (bytesOf t) = t := by
  obtain ⟨n, hn⟩ := Nat.dvd_of_mod_eq_zero h
  rw [ofBytes, bytesOf, List.flatMap_map]
  exact flatMap_chunks_self 8 n t _ (by omega) hn fun p hp => hp ▸ bitsOf_val p

/-! ### Hexadecimal text -/

/-- Group k of the bits of a hexadecimal string is the value of digit k (rule R128). -/
theorem val_group_hexBits (c : List Nat) (k : Nat) (h : ∀ x ∈ c, isHex x = true) (hk : k < c.length) :
    val (group (hexBits c) 4 k) = hexVal (c.getD k 0) :=
  val_group_flatMap_bitsOf 4 c hexVal k (fun x hx => hexVal_lt x (h x hx)) hk

theorem chunks_hexBits (c : List Nat) : chunks (hexBits c) 4 = c.map fun x => bitsOf 4 (hexVal x) :=
  chunks_flatMap_bitsOf 4 c hexVal (by omega)

/-- The digits of a sequence of whole nibbles, as byte values. -/
def hexDigits (b : Bits) : List Nat := (chunks b 4).map fun nib => hexChar (val nib)

theorem hexText_eq_ofBytes (b : Bits) (n : Nat) (hn : CeilOf n b.length 4) :
    hexText b = ofBytes (hexDigits (padL b (4 * n))) := by
  rw [hexText, ceilDiv_eq n _ 4 hn.1 hn.2, hexDigits]

theorem hexDigits_length (b : Bits) (n : Nat) (hb : b.length = 4 * n) : (hexDigits b).length = n := by
  rw [hexDigits, List.length_map, chunks_length b n 4 (by omega) hb]

theorem val_nibble_lt (b : Bits) (n : Nat) (hb : b.length = 4 * n) : ∀ nib ∈ chunks b 4, val nib < 16 := by
  intro nib hnib
  have hv := val_lt nib
  rwa [mem_chunks_length b n 4 (by omega) hb nib hnib] at hv

/-- Every digit of a sequence of whole nibbles is a hexadecimal digit and fits a byte. -/
theorem mem_hexDigits (b : Bits) (n : Nat) (hb : b.length = 4 * n) :
    ∀ x ∈ hexDigits b, isHex x = true ∧ x < 2 ^ 8 := by
  intro x hx
  obtain ⟨nib, hnib, rfl⟩ := List.mem_map.mp hx
  have hv := val_nibble_lt b n hb nib hnib
  exact ⟨isHex_hexChar _ hv, hexChar_lt _ hv⟩

theorem hexDigits_getD (b : Bits) (n k : Nat) (hb : b.length = 4 * n) (hk : k < n) :
    (hexDigits b).getD k 0 = hexChar (val (group b 4 k)) := by
  rw [hexDigits, chunks_eq b n 4 (by omega) hb, List.getD, List.getElem?_map, chunksN_getElem? 4 n k b hk]
  rfl

/-- Group k of the text of a sequence is the digit of nibble k of the padded sequence (rule R126). -/
theorem val_group_hexText (b : Bits) (n k : Nat) (hn : CeilOf n b.length 4) (hk : k < n) :
    val (group (hexText b) 8 k) = hexChar (val (group (padL b (4 * n)) 4 k)) := by
  have hpad := padL_length b _ hn.1
  rw [hexText_eq_ofBytes b n hn, ← hexDigits_getD _ n k hpad hk]
  exact val_group_flatMap_bitsOf 8 _ (fun x => x) k (fun x hx => (mem_hexDigits _ n hpad x hx).2)
    (by rwa [hexDigits_length _ n hpad])

theorem bytesOf_hexText (b : Bits) (n : Nat) (hn : CeilOf n b.length 4) :
    bytesOf (hexText b) = hexDigits (padL b (4 * n)) := by
  rw [hexText_eq_ofBytes b n hn]
  exact bytesOf_ofBytes _ fun x hx => (mem_hexDigits _ n (padL_length b _ hn.1) x hx).2

/-- Reading the digits of a sequence of whole nibbles gives the sequence back (rule R127). -/
theorem hexBits_hexDigits (b : Bits) (n : Nat) (hb : b.length = 4 * n) : hexBits (hexDigits b) = b := by
  simp only [hexBits, hexDigits, List.flatMap_map, hexVal_hexChar]
  exact flatMap_chunks_self 4 n b _ (by omega) hb fun nib hnib => hnib ▸ bitsOf_val nib

/-- Writing the bits of a hexadecimal string gives the string back, its letters in lower case (rule R127). -/
theorem hexDigits_hexBits (c : List Nat) (h : ∀ x ∈ c, isHex x = true) :
    hexDigits (hexBits c) = c.map fun x => if 0x41 ≤ x ∧ x ≤ 0x46 then x + 0x20 else x := by
  rw [hexDigits, chunks_hexBits, List.map_map]
  refine List.map_congr_left fun x hx => ?_
  rw [Function.comp_apply, val_bitsOf 4 _ (hexVal_lt x (h x hx)), hexChar_hexVal x (h x hx)]

/-! ### Decimal text -/

theorem decimalValue_eq_ofDigits (c : List Nat) :
    decimalValue c = Nat.ofDigits 10 (c.reverse.map fun x => x - 0x30) := by
  induction c using List.reverseRecOn with
  | nil => rfl
  | append_singleton c d ih =>
    have hv : decimalValue (c ++ [d]) = 10 * decimalValue c + (d - 0x30) := by simp [decimalValue]
    rw [hv, ih, List.reverse_append, List.reverse_singleton, List.singleton_append, List.map_cons, Nat.ofDigits_cons,
      Nat.add_comm]

theorem decimalValue_ne_zero (c : List Nat) (h : ∃ x ∈ c, 0x30 < x) : decimalValue c ≠ 0 := by
  obtain ⟨x, hx, hpos⟩ := h
  intro hzero
  rw [decimalValue_eq_ofDigits] at hzero
  have := Nat.digits_zero_of_eq_zero (by omega) hzero (x - 0x30) (List.mem_map_of_mem (List.mem_reverse.mpr hx))
  omega

@[simp] theorem val_minBits (v : Nat) : val (minBits v) = v := val_bitsOf _ v Nat.lt_log2_self

/-- The shortest sequence of a positive value begins with a 1. -/
theorem minBits_head? (v : Nat) (h : v ≠ 0) : (minBits v).head? = some true := by
  rw [minBits, bitsOf, List.head?_cons, Nat.testBit_log2 h]

/-! ### The four format rules (rule R121) -/

theorem detect_binary (c : List Nat) (h : ∀ x ∈ c, x = 0x30 ∨ x = 0x31) :
    detect c = .ok (1, c.map fun d => d == 0x31) := by
  have hbin : c.all isBin = true := List.all_eq_true.mpr fun x hx => (isBin_iff x).mpr (h x hx)
  rw [detect, if_pos hbin]

/-- `0x` holds a character that is no binary digit, so what follows it decides (rule 2). -/
theorem detect_hexPrefix (d : List Nat) :
    detect (0x30 :: 0x78 :: d) = if d.all isHex then .ok (2, hexBits d) else .error .invalidFormat := rfl

theorem detect_hexPrefix_hex (d : List Nat) (h : ∀ x ∈ d, isHex x = true) :
    detect (0x30 :: 0x78 :: d) = .ok (2, hexBits d) := by
  rw [detect_hexPrefix, if_pos (List.all_eq_true.mpr h)]

theorem detect_hexPrefix_invalid (d : List Nat) (h : ∃ x ∈ d, isHex x = false) :
    detect (0x30 :: 0x78 :: d) = .error .invalidFormat := by
  have hall : ¬ d.all isHex = true := fun hall => by
    obtain ⟨x, hx, hx0⟩ := h
    exact Bool.eq_false_iff.mp hx0 (List.all_eq_true.mp hall x hx)
  rw [detect_hexPrefix, if_neg hall]

/-- A string that does not consist of binary digits and does not begin with `0x`: rule 2 by letters, then rules 3
and 4. -/
theorem detect_no_hexPrefix (c : List Nat) (hbin : ∃ x ∈ c, x ≠ 0x30 ∧ x ≠ 0x31) (hpre : ∀ d, c ≠ 0x30 :: 0x78 :: d) :
    detect c = if c.all isHex && c.any isLetter then .ok (2, hexBits c)
      else if c.all isDec then .ok (3, minBits (decimalValue c))
      else .ok (4, ofBytes c) := by
  have h1 : ¬ c.all isBin = true := fun hall => by
    obtain ⟨x, hx, h0, h1⟩ := hbin
    exact ((isBin_iff x).mp (List.all_eq_true.mp hall x hx)).elim h0 h1
  have h2 : ¬ Config.hexPrefix.isPrefixOf c = true := fun hp => by
    obtain ⟨d, rfl⟩ := List.isPrefixOf_iff_prefix.mp hp
    exact hpre d rfl
  rw [detect, if_neg h1, if_neg h2]

/-- `0x` holds a character that is no hexadecimal digit. -/
theorem ne_hexPrefix_of_isHex (c d : List Nat) (h : ∀ x ∈ c, isHex x = true) : c ≠ 0x30 :: 0x78 :: d := by
  rintro rfl
  exact absurd (h 0x78 (by simp)) (by decide)

theorem detect_letters (c : List Nat) (hhex : ∀ x ∈ c, isHex x = true) (hletter : ∃ x ∈ c, isLetter x = true) :
    detect c = .ok (2, hexBits c) := by
  obtain ⟨x, hx, hl⟩ := hletter
  have hbin : ∃ x ∈ c, x ≠ 0x30 ∧ x ≠ 0x31 := ⟨x, hx, by have := (isLetter_iff x).mp hl; omega⟩
  have hcond : (c.all isHex && c.any isLetter) = true :=
    (Bool.and_eq_true _ _).mpr ⟨List.all_eq_true.mpr hhex, List.any_eq_true.mpr ⟨x, hx, hl⟩⟩
  rw [detect_no_hexPrefix c hbin fun d => ne_hexPrefix_of_isHex c d hhex, if_pos hcond]

theorem detect_decimal (c : List Nat) (hdec : ∀ x ∈ c, isDec x = true) (hbin : ∃ x ∈ c, x ≠ 0x30 ∧ x ≠ 0x31) :
    detect c = .ok (3, minBits (decimalValue c)) := by
  have hhex : ∀ x ∈ c, isHex x = true := fun x hx => (isHex_iff x).mpr (.inl ((isDec_iff x).mp (hdec x hx)))
  have hcond : ¬ (c.all isHex && c.any isLetter) = true := fun h => by
    obtain ⟨x, hx, hl⟩ := List.any_eq_true.mp ((Bool.and_eq_true _ _).mp h).2
    have := (isLetter_iff x).mp hl
    have := (isDec_iff x).mp (hdec x hx)
    omega
  rw [detect_no_hexPrefix c hbin fun d => ne_hexPrefix_of_isHex c d hhex, if_neg hcond,
    if_pos (List.all_eq_true.mpr hdec)]

theorem detect_text (c : List Nat) (hhex : ∃ x ∈ c, isHex x = false) (hpre : ∀ d, c ≠ 0x30 :: 0x78 :: d) :
    detect c = .ok (4, ofBytes c) := by
  obtain ⟨x, hx, hx0⟩ := hhex
  have hno : ¬ isHex x = true := Bool.eq_false_iff.mp hx0
  have hclass := (isHex_iff x).not.mp hno
  have hcond : ¬ (c.all isHex && c.any isLetter) = true := fun h =>
    hno (List.all_eq_true.mp ((Bool.and_eq_true _ _).mp h).1 x hx)
  have hdec : ¬ c.all isDec = true := fun h => hclass (.inl ((isDec_iff x).mp (List.all_eq_true.mp h x hx)))
  rw [detect_no_hexPrefix c ⟨x, hx, by omega⟩ hpre, if_neg hcond, if_neg hdec]

end Sys2Proof.Machine

namespace Sys2Proof.Laws

/-- Under the mask of its row a command's word is the row's `match` word (rules R92 and R94). -/
theorem Shape.encode_and_mask {f : Shape} (hf : f ∈ shapes) (r : OpcodeRow) (hr : f.row = r) (rd rs1 rs2 : QReg)
    (imm : Nat) : encode (f.make rd rs1 rs2 imm) &&& r.mask = r.pattern := by
  have hlaws := lawful_of_mem f hf
  rw [hlaws.encode_make, ← hr]
  exact (and_mask_eq_pattern_iff hf _).mpr (covers_word hlaws rd rs1 rs2 imm)

end Sys2Proof.Laws
end

section
/-! PROOF. The commands of the codec: `tobits` follows the four format rules (O21), `frombits` copies whole bytes (O22),
`tohex` writes one digit for each nibble (O23), `fromhex` decodes every digit (O24), and the two are inverse (O25). -/

namespace Sys2Proof.Machine

open Sys2Proof.Claims Sys2Proof.Laws

/-! ### `tobits` -/

theorem exec_tobits_ok (rd rs1 : QReg) (s : State) (rule : Nat) (b : Bits) (herr : s.err = false)
    (ht : (s.readQ rs1).length % 8 = 0) (hdet : detect (bytesOf (s.readQ rs1)) = .ok (rule, b)) :
    exec (.tobits rd rs1) s = .next ((s.writeQ rd b).setFmt rule) :=
  s.command_ok _ _ _ herr (by simp [ht, hdet])

theorem exec_tobits_invalid (rd rs1 : QReg) (s : State) (herr : s.err = false)
    (h : (s.readQ rs1).length % 8 ≠ 0 ∨ detect (bytesOf (s.readQ rs1)) = .error .invalidFormat) :
    exec (.tobits rd rs1) s = .next (failed s 1 (.tobits rd rs1)) := by
  refine s.command_error _ .invalidFormat _ herr ?_
  rcases h with ht | hdet
  · simp [isText, ht]
  · simp [hdet]

/-- Settles O21: each clause is the rule of `detect` that is the first to match. -/
theorem tobitsFollowsFirstMatchingFormat : Obligations.TobitsFollowsFirstMatchingFormat := by
  refine ⟨fun rd rs1 s herr ht => exec_tobits_invalid rd rs1 s herr (.inl ht), ?_⟩
  intro rd rs1 s c herr ht hc
  have hrun (rule : Nat) (b : Bits) (h : detect c = .ok (rule, b)) :=
    exec_tobits_ok rd rs1 s rule b herr ht (hc ▸ h)
  refine ⟨fun hbin => ?_, fun d hd hhex => ?_, fun d hd hbad => ?_, fun hhex hletter => ?_, fun hdec hbin => ?_,
    fun hbad hpre => ?_⟩
  · refine ⟨_, hrun 1 _ (detect_binary c hbin), List.length_map _, fun k hk => ?_⟩
    simp [List.getD, hk, beq_eq_decide]
  · exact ⟨_, hrun 2 _ (hd ▸ detect_hexPrefix_hex d hhex), hexBits_length d, fun k hk => val_group_hexBits d k hhex hk⟩
  · exact exec_tobits_invalid rd rs1 s herr (.inr (hc ▸ hd ▸ detect_hexPrefix_invalid d hbad))
  · exact ⟨_, hrun 2 _ (detect_letters c hhex hletter), hexBits_length c, fun k hk => val_group_hexBits c k hhex hk⟩
  · have hpos : ∃ x ∈ c, 0x30 < x := by
      obtain ⟨x, hx, h0, -⟩ := hbin
      have := (isDec_iff x).mp (hdec x hx)
      exact ⟨x, hx, by omega⟩
    refine ⟨_, hrun 3 _ (detect_decimal c hdec hbin), minBits_head? _ (decimalValue_ne_zero c hpos), ?_⟩
    rw [val_minBits, decimalValue_eq_ofDigits]
  · have hdet := detect_text c hbad hpre
    rw [hc, ofBytes_bytesOf _ ht, ← hc] at hdet
    exact hrun 4 _ hdet

/-! ### `frombits` -/

theorem encode_frombits_and_mask (rd rs1 : QReg) : encode (.frombits rd rs1) &&& 0xFF03FFFF = 0x24000000 :=
  Shape.encode_and_mask (f := shapes[1]) (List.getElem_mem _) ⟨"frombits", 0x24000000, 0xFF03FFFF⟩ (by decide)
    rd rs1 0 0

theorem exec_frombits_ok (rd rs1 : QReg) (s : State) (herr : s.err = false) (ht : (s.readQ rs1).length % 8 = 0) :
    exec (.frombits rd rs1) s = .next (s.writeQ rd (s.readQ rs1)) :=
  s.command_ok _ _ _ herr (by simp [ht])

theorem exec_frombits_invalid (rd rs1 : QReg) (s : State) (herr : s.err = false) (ht : (s.readQ rs1).length % 8 ≠ 0) :
    exec (.frombits rd rs1) s = .next (failed s 1 (.frombits rd rs1)) :=
  s.command_error _ .invalidFormat _ herr (by simp [isText, ht])

/-- Settles O22: the check of whole characters decides between the copy and the error. -/
theorem frombitsCopiesWholeBytes : Obligations.FrombitsCopiesWholeBytes := fun rd rs1 s herr =>
  ⟨exec_frombits_ok rd rs1 s herr, exec_frombits_invalid rd rs1 s herr, encode_frombits_and_mask rd rs1⟩

/-! ### `tohex` -/

theorem encode_tohex_and_mask (rd rs1 : QReg) : encode (.tohex rd rs1) &&& 0xFF03FFFF = 0x28000000 :=
  Shape.encode_and_mask (f := shapes[2]) (List.getElem_mem _) ⟨"tohex", 0x28000000, 0xFF03FFFF⟩ (by decide)
    rd rs1 0 0

theorem exec_tohex_ok (rd rs1 : QReg) (s : State) (n : Nat) (herr : s.err = false)
    (hn : CeilOf n (s.readQ rs1).length 4) (hfit : 8 * n ≤ 65536) :
    exec (.tohex rd rs1) s = .next (s.writeQ rd (hexText (s.readQ rs1))) := by
  have hq := (fitsQ_iff _).mpr hfit
  rw [← ceilDiv_eq n _ 4 hn.1 hn.2] at hq
  exact s.command_ok _ _ _ herr (by simp [hq])

theorem exec_tohex_overflow (rd rs1 : QReg) (s : State) (n : Nat) (herr : s.err = false)
    (hn : CeilOf n (s.readQ rs1).length 4) (hfit : 65536 < 8 * n) :
    exec (.tohex rd rs1) s = .next (failed s 7 (.tohex rd rs1)) := by
  have hq : fitsQ (8 * ceilDiv (s.readQ rs1).length 4) = false := by
    rw [ceilDiv_eq n _ 4 hn.1 hn.2, ← Bool.not_eq_true, fitsQ_iff]
    omega
  exact s.command_error _ .overflow _ herr (by simp [hq])

/-- Settles O23: the text's characters are the digits of the padded operand's nibbles. -/
theorem tohexWritesOneDigitPerNibble : Obligations.TohexWritesOneDigitPerNibble := by
  intro rd rs1 s n herr hn
  refine ⟨fun hfit => ⟨_, exec_tohex_ok rd rs1 s n herr hn hfit, ?_, fun k hk => val_group_hexText _ n k hn hk⟩,
    exec_tohex_overflow rd rs1 s n herr hn, encode_tohex_and_mask rd rs1⟩
  rw [hexText_length, ceilDiv_eq n _ 4 hn.1 hn.2]

/-! ### `fromhex` -/

theorem encode_fromhex_and_mask (rd rs1 : QReg) : encode (.fromhex rd rs1) &&& 0xFF03FFFF = 0x2C000000 :=
  Shape.encode_and_mask (f := shapes[3]) (List.getElem_mem _) ⟨"fromhex", 0x2C000000, 0xFF03FFFF⟩ (by decide)
    rd rs1 0 0

theorem exec_fromhex_ok (rd rs1 : QReg) (s : State) (herr : s.err = false) (ht : (s.readQ rs1).length % 8 = 0)
    (hhex : ∀ x ∈ bytesOf (s.readQ rs1), isHex x = true) :
    exec (.fromhex rd rs1) s = .next (s.writeQ rd (hexBits (bytesOf (s.readQ rs1)))) :=
  s.command_ok _ _ _ herr (by simp [ht, List.all_eq_true.mpr hhex])

theorem exec_fromhex_invalid (rd rs1 : QReg) (s : State) (herr : s.err = false)
    (h : (s.readQ rs1).length % 8 ≠ 0 ∨ ∃ x ∈ bytesOf (s.readQ rs1), isHex x = false) :
    exec (.fromhex rd rs1) s = .next (failed s 1 (.fromhex rd rs1)) := by
  refine s.command_error _ .invalidFormat _ herr ?_
  rcases h with ht | hbad
  · simp [isText, ht]
  · have hall : (bytesOf (s.readQ rs1)).all isHex = false := by simpa using hbad
    simp [hall]

/-- Settles O24: each digit gives the four bits of its value. -/
theorem fromhexDecodesEveryDigit : Obligations.FromhexDecodesEveryDigit := by
  rintro rd rs1 s _ herr rfl
  exact ⟨fun ht hhex => ⟨_, exec_fromhex_ok rd rs1 s herr ht hhex, hexBits_length _,
      fun k hk => val_group_hexBits _ k hhex hk⟩,
    exec_fromhex_invalid rd rs1 s herr, encode_fromhex_and_mask rd rs1⟩

/-! ### `tohex` and `fromhex` together -/

/-- Settles O25: the text of a sequence is the bytes of its digits, and digits and nibbles determine each other. -/
theorem hexConversionsAreInverse : Obligations.HexConversionsAreInverse := by
  intro r₁ r₂ r₃ s herr
  refine ⟨fun n hn hfit => ?_, ?_⟩
  · have hpad := padL_length (s.readQ r₁) _ hn.1
    have hbytes := bytesOf_hexText (s.readQ r₁) n hn
    have hfrom := exec_fromhex_ok r₃ r₂ (s.writeQ r₂ (hexText (s.readQ r₁))) herr
    rw [State.readQ_writeQ_same, hbytes, hexText_length] at hfrom
    refine ⟨_, _, exec_tohex_ok r₂ r₁ s n herr hn hfit,
      hfrom (Nat.mul_mod_right 8 _) fun x hx => (mem_hexDigits _ n hpad x hx).1, ?_⟩
    rw [State.readQ_writeQ_same, hexBits_hexDigits _ n hpad]
  · intro c hc ht hfit hhex
    have hn : CeilOf c.length (hexBits c).length 4 := by rw [hexBits_length]; omega
    have hsize : 8 * c.length ≤ 65536 := by rw [hc, bytesOf_length]; omega
    have hto := exec_tohex_ok r₃ r₂ (s.writeQ r₂ (hexBits c)) c.length herr
    rw [State.readQ_writeQ_same] at hto
    refine ⟨_, _, hc ▸ exec_fromhex_ok r₂ r₁ s herr ht (hc ▸ hhex), hto hn hsize, ?_⟩
    rw [State.readQ_writeQ_same, bytesOf_hexText _ _ hn, ← hexBits_length c, padL_self, hexDigits_hexBits c hhex]

end Sys2Proof.Machine
end

section
/-! PROOF. The table primitives: `sub4` and `sub4.i` undo each other (O28), `perm` and `perm.i` do (O30), `pload`
installs bijections and nothing else (O32), `xor` is bitwise (O26), `pdflt` installs the default table (O31). -/

namespace Sys2Proof.Machine

open Sys2Proof.Claims Sys2Proof.Laws

/-! ### The substitution undone (rule R142) -/

theorem sboxAt_injective (sbox : Vector (BitVec 4) 16) (h : sbox.toList.Nodup) (x y : Nat) (hx : x < 16) (hy : y < 16)
    (hxy : sboxAt sbox x = sboxAt sbox y) : x = y := by
  have hx' : x < sbox.toList.length := by simpa using hx
  have hy' : y < sbox.toList.length := by simpa using hy
  rw [sboxAt, sboxAt, List.getD_eq_getElem _ _ hx', List.getD_eq_getElem _ _ hy'] at hxy
  exact h.getElem_inj_iff.mp (BitVec.eq_of_toNat_eq hxy)

/-- The inverse of a table without repeated entries takes an entry back to its index. -/
theorem invSboxAt_sboxAt (sbox : Vector (BitVec 4) 16) (h : sbox.toList.Nodup) (x : Nat) (hx : x < 16) :
    invSboxAt sbox (sboxAt sbox x) = x := by
  obtain ⟨hlt, heq⟩ := sboxAt_invSboxAt sbox h (sboxAt sbox x) (sboxAt_lt sbox x)
  exact sboxAt_injective sbox h _ x hlt hx heq

/-- What `substitute` does to one group of 4 bits (rule R143). -/
def substituteNibble (sbox : Vector (BitVec 4) 16) (inverse : Bool) (nib : Bits) : Bits :=
  bitsOf 4 (if inverse then invSboxAt sbox (val nib) else sboxAt sbox (val nib))

theorem substituteNibble_length (sbox : Vector (BitVec 4) 16) (inverse : Bool) (nib : Bits) :
    (substituteNibble sbox inverse nib).length = 4 := bitsOf_length 4 _

/-- A result of `substitute` on whole nibbles, said with `substituteNibble`. -/
theorem substitute_eq_flatMap (sbox : Vector (BitVec 4) 16) (inverse : Bool) (b : Bits) (n : Nat)
    (hb : b.length = 4 * n) : substitute sbox inverse b = (chunks b 4).flatMap (substituteNibble sbox inverse) :=
  substitute_of_dvd sbox inverse b n hb

/-- Looking a nibble up one way and the result up the other way gives the nibble back. -/
theorem substituteNibble_undo (sbox : Vector (BitVec 4) 16) (inverse : Bool) (h : sbox.toList.Nodup) (nib : Bits)
    (hlen : nib.length = 4) : substituteNibble sbox (!inverse) (substituteNibble sbox inverse nib) = nib := by
  have hv : val nib < 16 := by simpa [hlen] using val_lt nib
  have hback : bitsOf 4 (val nib) = nib := by rw [← hlen, bitsOf_val]
  cases inverse with
  | false =>
    simp [substituteNibble, val_bitsOf 4 _ (sboxAt_lt sbox _), invSboxAt_sboxAt sbox h _ hv, hback]
  | true =>
    obtain ⟨hlt, heq⟩ := sboxAt_invSboxAt sbox h _ hv
    simp [substituteNibble, val_bitsOf 4 _ hlt, heq, hback]

/-- On whole nibbles the two directions of `substitute` undo each other (rules R142 and R143). -/
theorem substitute_undo (sbox : Vector (BitVec 4) 16) (inverse : Bool) (h : sbox.toList.Nodup) (b : Bits)
    (hb : b.length % 4 = 0) : substitute sbox (!inverse) (substitute sbox inverse b) = b := by
  have hn : b.length = 4 * (b.length / 4) := by omega
  have hlen : (substitute sbox inverse b).length = 4 * (b.length / 4) :=
    substitute_length_of_ceilOf sbox inverse b _ (by omega)
  rw [substitute_eq_flatMap _ _ _ _ hlen, substitute_eq_flatMap _ _ _ _ hn]
  exact flatMap_chunks_undo 4 _ b _ _ (by omega) hn (fun c _ => substituteNibble_length sbox inverse c)
    (substituteNibble_undo sbox inverse h)

/-- The one entry of `SBOX` the spec gives: `SBOX[0] = 8` (rule R7). -/
theorem substitute_zeroNibble (sbox : Vector (BitVec 4) 16) (h0 : sbox[0] = 8) :
    substitute sbox false [false, false, false, false] = [true, false, false, false] := by
  have h8 : sboxAt sbox 0 = 8 := by simp [sboxAt, List.getD, h0]
  rw [substitute_eq_flatMap _ _ _ 1 rfl]
  show bitsOf 4 (sboxAt sbox 0) ++ [] = _
  rw [h8]
  rfl

/-! ### `sub4` and `sub4.i` -/

theorem exec_sub4_ok (rd rs1 : QReg) (s : State) (herr : s.err = false) (h : (s.readQ rs1).length ≤ 65536) :
    exec (.sub4 rd rs1) s = .next (s.writeQ rd (substitute s.sbox false (s.readQ rs1))) :=
  s.command_ok _ _ _ herr (s.sub4_ok false rd rs1 h)

theorem exec_sub4I_ok (rd rs1 : QReg) (s : State) (herr : s.err = false) (h : (s.readQ rs1).length ≤ 65536) :
    exec (.sub4I rd rs1) s = .next (s.writeQ rd (substitute s.sbox true (s.readQ rs1))) :=
  s.command_ok _ _ _ herr (s.sub4_ok true rd rs1 h)

/-- Settles O28: the second command reads the first one's result, whose nibbles the other direction takes back. -/
theorem sub4RoundTrips : Obligations.Sub4RoundTrips := by
  intro r₁ r₂ r₃ s herr hc hlen
  obtain ⟨hnodup, hzero, -⟩ := hc
  refine ⟨fun hmod => ?_, fun hb => ?_, fun hb => ?_⟩
  · have hfit (inverse : Bool) :
        ((s.writeQ r₂ (substitute s.sbox inverse (s.readQ r₁))).readQ r₂).length ≤ 65536 := by
      rw [State.readQ_writeQ_same, substitute_length_of_ceilOf _ _ _ ((s.readQ r₁).length / 4) (by omega)]
      omega
    refine ⟨⟨_, _, exec_sub4_ok r₂ r₁ s herr hlen, exec_sub4I_ok r₃ r₂ _ herr (hfit false), ?_⟩,
      ⟨_, _, exec_sub4I_ok r₂ r₁ s herr hlen, exec_sub4_ok r₃ r₂ _ herr (hfit true), ?_⟩⟩
    · rw [State.readQ_writeQ_same, State.readQ_writeQ_same]
      exact substitute_undo s.sbox false hnodup _ hmod
    · rw [State.readQ_writeQ_same, State.readQ_writeQ_same]
      exact substitute_undo s.sbox true hnodup _ hmod
  · rw [exec_sub4_ok r₂ r₁ s herr hlen, hb, substitute_zeroNibble s.sbox hzero]
    rfl
  · have hback := substitute_undo s.sbox false hnodup [false, false, false, false] rfl
    rw [substitute_zeroNibble s.sbox hzero, Bool.not_false] at hback
    rw [exec_sub4I_ok r₂ r₁ s herr hlen, hb, hback]
    rfl

/-! ### The permutation undone (rule R145) -/

theorem permuteChunk_getD (pairs : List (Nat × Nat)) (w p : Nat) (c : Bits) (h1 : 1 ≤ p) (h2 : p ≤ w) :
    (permuteChunk pairs w c).getD (p - 1) false = permutedBit pairs c p := by
  have hk : p - 1 < w := by omega
  simp [permuteChunk, List.getD, hk, Nat.sub_add_cancel h1]

/-- Every position of an active table that is a bijection is the destination of a position: on the finite set {1..PW} an
injective map is surjective. -/
theorem State.exists_ptabAt_eq (s : State) (d : Nat) (ht : s.TableOk) (h1 : 1 ≤ d) (h2 : d ≤ s.pw.toNat) :
    ∃ p, (1 ≤ p ∧ p ≤ s.pw.toNat) ∧ ptabAt s p = d := by
  have hmaps : Set.MapsTo (ptabAt s) (Finset.Icc 1 s.pw.toNat) (Finset.Icc 1 s.pw.toNat) := by
    intro p hp
    obtain ⟨hp1, hp2⟩ := Finset.mem_Icc.mp hp
    obtain ⟨hrange, -⟩ := s.activeTable_bijective p ht hp1 hp2
    exact Finset.mem_coe.mpr (Finset.mem_Icc.mpr hrange)
  have hinj : Set.InjOn (ptabAt s) (Finset.Icc 1 s.pw.toNat) := by
    intro p hp p' hp' heq
    obtain ⟨hp1, hp2⟩ := Finset.mem_Icc.mp hp
    obtain ⟨hp1', hp2'⟩ := Finset.mem_Icc.mp hp'
    obtain ⟨-, hmem, -, -⟩ := s.activeTable_bijective p ht hp1 hp2
    obtain ⟨-, -, hsrc, -⟩ := s.activeTable_bijective p' ht hp1' hp2'
    exact hsrc p (heq ▸ hmem)
  obtain ⟨p, hp, heq⟩ := Finset.surjOn_of_injOn_of_card_le (ptabAt s) hmaps hinj (le_refl _)
    (Finset.mem_coe.mpr (Finset.mem_Icc.mpr ⟨h1, h2⟩))
  exact ⟨p, Finset.mem_Icc.mp hp, heq⟩

/-- On one chunk the two directions of a bijective active table undo each other. -/
theorem State.permuteChunk_undo (s : State) (inverse : Bool) (ht : s.TableOk) (c : Bits)
    (hc : c.length = s.pw.toNat) :
    permuteChunk (direction (!inverse) s.activeTable) s.pw.toNat
      (permuteChunk (direction inverse s.activeTable) s.pw.toNat c) = c := by
  refine bits_ext _ _ (by rw [permuteChunk_length, hc]) fun k hk => ?_
  rw [permuteChunk_length] at hk
  have hd : 1 ≤ k + 1 ∧ k + 1 ≤ s.pw.toNat := by omega
  rw [← Nat.add_sub_cancel (n := k) (m := 1), permuteChunk_getD _ _ _ _ hd.1 hd.2]
  cases inverse with
  | false =>
    obtain ⟨⟨hp1, hp2⟩, -⟩ := s.activeTable_bijective (k + 1) ht hd.1 hd.2
    rw [Bool.not_false, s.permutedBit_inverse _ _ ht hd.1 hd.2, permuteChunk_getD _ _ _ _ hp1 hp2,
      s.permutedBit_forward _ _ ht hd.1 hd.2]
  | true =>
    obtain ⟨p, ⟨hp1, hp2⟩, hp⟩ := s.exists_ptabAt_eq (k + 1) ht hd.1 hd.2
    rw [← hp, Bool.not_true, s.permutedBit_forward _ _ ht hp1 hp2, permuteChunk_getD _ _ _ _ hp1 hp2,
      s.permutedBit_inverse _ _ ht hp1 hp2]

/-- On whole chunks the two directions of `permute` undo each other for a bijective active table (rule R145). -/
theorem State.permute_undo (s : State) (inverse : Bool) (ht : s.TableOk) (b : Bits) (n : Nat)
    (hb : b.length = s.pw.toNat * n) :
    permute s.activeTable s.pw.toNat (!inverse) (permute s.activeTable s.pw.toNat inverse b) = b := by
  have ⟨hw, _⟩ := ht
  have hlen := permute_length_of_ceilOf s.activeTable _ inverse b n hw (by omega)
  rw [permute_of_dvd _ _ _ _ n hw hlen, permute_of_dvd _ _ _ _ n hw hb]
  exact flatMap_chunks_undo _ n b _ _ hw hb (fun c _ => permuteChunk_length _ _ c) (s.permuteChunk_undo inverse ht)

/-! ### `perm` and `perm.i` -/

theorem exec_perm_ok (rd rs1 : QReg) (s : State) (n : Nat) (herr : s.err = false)
    (hn : CeilOf n (s.readQ rs1).length s.pw.toNat) (hfit : s.pw.toNat * n ≤ 65536) :
    exec (.perm rd rs1) s = .next (s.writeQ rd (permute s.activeTable s.pw.toNat false (s.readQ rs1))) :=
  s.command_ok _ _ _ herr (s.perm_ok false rd rs1 n hn hfit)

theorem exec_permI_ok (rd rs1 : QReg) (s : State) (n : Nat) (herr : s.err = false)
    (hn : CeilOf n (s.readQ rs1).length s.pw.toNat) (hfit : s.pw.toNat * n ≤ 65536) :
    exec (.permI rd rs1) s = .next (s.writeQ rd (permute s.activeTable s.pw.toNat true (s.readQ rs1))) :=
  s.command_ok _ _ _ herr (s.perm_ok true rd rs1 n hn hfit)

/-- Settles O30: the second command reads the first one's result, whose chunks the other direction takes back. -/
theorem permRoundTrips : Obligations.PermRoundTrips := by
  intro r₁ r₂ r₃ s herr ht hlen hmod
  have ⟨hw, _⟩ := ht
  obtain ⟨n, hb⟩ := Nat.dvd_of_mod_eq_zero hmod
  have hn : CeilOf n (s.readQ r₁).length s.pw.toNat := by omega
  have hfit : s.pw.toNat * n ≤ 65536 := hb ▸ hlen
  have hn₂ (inverse : Bool) : CeilOf n
      ((s.writeQ r₂ (permute s.activeTable s.pw.toNat inverse (s.readQ r₁))).readQ r₂).length s.pw.toNat := by
    rw [State.readQ_writeQ_same, permute_length_of_ceilOf _ _ _ _ n hw hn]
    omega
  refine ⟨⟨_, _, exec_perm_ok r₂ r₁ s n herr hn hfit, exec_permI_ok r₃ r₂ _ n herr (hn₂ false) hfit, ?_⟩,
    ⟨_, _, exec_permI_ok r₂ r₁ s n herr hn hfit, exec_perm_ok r₃ r₂ _ n herr (hn₂ true) hfit, ?_⟩⟩
  · rw [State.readQ_writeQ_same, State.readQ_writeQ_same]
    exact s.permute_undo false ht _ n hb
  · rw [State.readQ_writeQ_same, State.readQ_writeQ_same]
    exact s.permute_undo true ht _ n hb

/-! ### Tables filled up to a width -/

theorem fillTable_getElem_low (t : Vector Entry Config.pwMax) (w : Nat) (f : Nat → Entry) (k : Fin 256)
    (hk : k.val < w) : (fillTable t w f)[k] = f (k.val + 1) := by
  simp [fillTable, hk]

theorem fillTable_getElem_high (t : Vector Entry Config.pwMax) (w : Nat) (f : Nat → Entry) (k : Fin 256)
    (hk : w ≤ k.val) : (fillTable t w f)[k] = t[k] := by
  simp [fillTable, Nat.not_lt.mpr hk]

theorem entryAt_succ (t : Vector Entry Config.pwMax) (w : Nat) (k : Fin 256) (hk : k.val < w) :
    entryAt t w (k.val + 1) = t[k] := by
  rw [entryAt_inside t w _ (by omega) (by omega)]
  simp [List.getD]

theorem tableEntries_length (t : Vector Entry Config.pwMax) (w : Nat) (hw : w ≤ 256) :
    (tableEntries t w).length = w := by
  simpa [tableEntries] using hw

theorem tableEntries_getElem (t : Vector Entry Config.pwMax) (w : Nat) (k : Fin 256)
    (hk : k.val < (tableEntries t w).length) : (tableEntries t w)[k.val] = t[k].toNat := by
  simp [tableEntries]

/-- `isbij` on the first w entries of a table, said of the entries themselves (rule R148). -/
theorem isBijection_tableEntries_iff (t : Vector Entry Config.pwMax) (w : Nat) (hw : w ≤ 256) :
    isBijection (tableEntries t w) w = true ↔
      (∀ k : Fin 256, k.val < w → 1 ≤ t[k].toNat ∧ t[k].toNat ≤ w) ∧
      (∀ k l : Fin 256, k.val < w → l.val < w → k ≠ l → t[k] ≠ t[l]) := by
  have hlen := tableEntries_length t w hw
  have hget := tableEntries_getElem t w
  rw [isBijection_iff]
  refine and_congr ⟨fun h k hk => ?_, fun h d hd => ?_⟩ ⟨fun h k l hk hl hkl heq => ?_, fun h => ?_⟩
  · have hk' := hk.trans_eq hlen.symm
    exact hget k hk' ▸ h _ (List.getElem_mem hk')
  · obtain ⟨i, hi, rfl⟩ := List.getElem_of_mem hd
    have hiw := hi.trans_eq hlen
    exact hget ⟨i, by omega⟩ hi ▸ h ⟨i, by omega⟩ hiw
  · have hk' := hk.trans_eq hlen.symm
    have hl' := hl.trans_eq hlen.symm
    have hsame : (tableEntries t w)[k.val] = (tableEntries t w)[l.val] := by rw [hget k hk', hget l hl', heq]
    exact hkl (Fin.ext (h.getElem_inj_iff.mp hsame))
  · refine List.pairwise_iff_getElem.mpr fun i j hi hj hij heq => ?_
    have hiw := hi.trans_eq hlen
    have hjw := hj.trans_eq hlen
    rw [hget ⟨i, by omega⟩ hi, hget ⟨j, by omega⟩ hj] at heq
    exact h ⟨i, by omega⟩ ⟨j, by omega⟩ hiw hjw (fun e => hij.ne (Fin.mk.inj e)) (BitVec.eq_of_toNat_eq heq)

theorem State.widthOk_eq_false (s : State) (h : s.pws.toNat = 0 ∨ 256 < s.pws.toNat) : s.widthOk = false := by
  rw [← Bool.not_eq_true, State.widthOk_iff, Config.pwMax]
  omega

/-! ### `pload` -/

theorem exec_pload_ok (s : State) (herr : s.err = false) (hw : s.widthOk = true)
    (hbij : isBijection (tableEntries s.pstg s.pws.toNat) s.pws.toNat = true) :
    exec .pload s = .next { s with
      ptab := fillTable s.ptab s.pws.toNat (entryAt s.pstg s.pws.toNat)
      pw := s.pws } :=
  s.command_ok _ _ _ herr (by simp [hw, hbij])

theorem exec_pload_nonInvertible (s : State) (herr : s.err = false) (hw : s.widthOk = true)
    (hbij : isBijection (tableEntries s.pstg s.pws.toNat) s.pws.toNat ≠ true) :
    exec .pload s = .next (failed s 3 .pload) :=
  s.command_error _ .nonInvertibleTable _ herr (by simp [hw, hbij])

theorem exec_pload_badConfig (s : State) (herr : s.err = false) (hw : s.widthOk = false) :
    exec .pload s = .next (failed s 5 .pload) :=
  s.command_error _ .badConfig _ herr (by simp [hw])

/-- Settles O32: `isbij` on the entries is the statement's condition, and the check of the width comes before it. -/
theorem ploadInstallsOnlyBijections : Obligations.PloadInstallsOnlyBijections := by
  intro s herr
  refine ⟨fun h1 h2 => ⟨fun hbij => ?_, fun hbij => ?_⟩,
    fun hw => exec_pload_badConfig s herr (s.widthOk_eq_false hw), by decide⟩
  · have hrun := exec_pload_ok s herr (s.widthOk_iff.mpr ⟨h1, h2⟩) ((isBijection_tableEntries_iff _ _ h2).mpr hbij)
    refine ⟨_, hrun, rfl, fun k hk => ?_, fun k hk => fillTable_getElem_high _ _ _ k hk⟩
    rw [fillTable_getElem_low _ _ _ k hk, entryAt_succ _ _ k hk]
  · rw [← isBijection_tableEntries_iff _ _ h2] at hbij
    exact exec_pload_nonInvertible s herr (s.widthOk_iff.mpr ⟨h1, h2⟩) hbij

/-! ### `xor` -/

theorem xorBits_getD (a b : Bits) (k : Nat) (h : a.length = b.length) :
    (xorBits a b).getD k false = (a.getD k false ^^ b.getD k false) := by
  rcases Nat.lt_or_ge k a.length with hk | hk
  · have hk' : k < b.length := h ▸ hk
    simp [xorBits, List.getD, hk, hk']
  · have hx : (xorBits a b).length ≤ k := by rw [xorBits_length]; omega
    rw [List.getD_eq_default _ _ hx, List.getD_eq_default _ _ hk, List.getD_eq_default _ _ (h ▸ hk), Bool.xor_false]

theorem encode_xor_and_mask (rd rs1 rs2 : QReg) : encode (.xor rd rs1 rs2) &&& 0xFF007FFF = 0x40000000 :=
  Shape.encode_and_mask (f := shapes[4]) (List.getElem_mem _) ⟨"xor", 0x40000000, 0xFF007FFF⟩ (by decide)
    rd rs1 rs2 0

theorem exec_xor_ok (rd rs1 rs2 : QReg) (s : State) (herr : s.err = false)
    (h : (s.readQ rs1).length = (s.readQ rs2).length) :
    exec (.xor rd rs1 rs2) s = .next (s.writeQ rd (xorBits (s.readQ rs1) (s.readQ rs2))) :=
  s.command_ok _ _ _ herr (by simp [h])

theorem exec_xor_lengthMismatch (rd rs1 rs2 : QReg) (s : State) (herr : s.err = false)
    (h : (s.readQ rs1).length ≠ (s.readQ rs2).length) :
    exec (.xor rd rs1 rs2) s = .next (failed s 2 (.xor rd rs1 rs2)) :=
  s.command_error _ .lengthMismatch _ herr (by simp [h])

/-- Settles O26: the check of the lengths decides between the exclusive-or and the error. -/
theorem xorIsBitwise : Obligations.XorIsBitwise := by
  intro rd rs1 rs2 s herr
  refine ⟨fun h => ⟨_, exec_xor_ok rd rs1 rs2 s herr h, ?_, fun k _ => xorBits_getD _ _ k h⟩,
    exec_xor_lengthMismatch rd rs1 rs2 s herr, encode_xor_and_mask rd rs1 rs2⟩
  rw [xorBits_length, h, Nat.min_self]

/-! ### `pdflt` -/

theorem State.defaultEntry_identity (s : State) (w : Nat) (k : Fin 256) (hw : w ≠ 16) :
    (s.defaultEntry w (k.val + 1)).toNat = k.val + 1 := by
  rw [State.defaultEntry, if_neg hw, BitVec.toNat_ofNat]
  omega

theorem State.defaultEntry_pbox16 (s : State) (k : Nat) (hk : k < 16) : s.defaultEntry 16 (k + 1) = s.pbox16[k] := by
  simp [State.defaultEntry, List.getD, hk]

theorem exec_pdflt_ok (s : State) (herr : s.err = false) (hw : s.widthOk = true) :
    exec .pdflt s = .next { s with
      pstg := fillTable s.pstg s.pws.toNat (s.defaultEntry s.pws.toNat)
      ptab := fillTable s.ptab s.pws.toNat (s.defaultEntry s.pws.toNat)
      pw := s.pws } :=
  s.command_ok _ _ _ herr (by simp [hw])

theorem exec_pdflt_badConfig (s : State) (herr : s.err = false) (hw : s.widthOk = false) :
    exec .pdflt s = .next (failed s 5 .pdflt) :=
  s.command_error _ .badConfig _ herr (by simp [hw])

/-- Settles O31: below the width both tables hold the default table's entries, above it their own. -/
theorem pdfltInstallsTheDefaultTable : Obligations.PdfltInstallsTheDefaultTable := by
  intro s herr
  refine ⟨fun h1 h2 => ⟨_, exec_pdflt_ok s herr (s.widthOk_iff.mpr ⟨h1, h2⟩), rfl, fun k hk => ?_, fun k hk => ?_⟩,
    fun hw => exec_pdflt_badConfig s herr (s.widthOk_eq_false hw), by decide⟩
  · rw [fillTable_getElem_low _ _ _ k hk, fillTable_getElem_low _ _ _ k hk]
    refine ⟨rfl, s.defaultEntry_identity _ k, fun h16 hk16 => ?_⟩
    rw [h16, s.defaultEntry_pbox16 k.val hk16]
  · exact ⟨fillTable_getElem_high _ _ _ k hk, fillTable_getElem_high _ _ _ k hk⟩

end Sys2Proof.Machine
end

section
/-! PROOF. The round-key scheduler: schedules of fewer rounds and of smaller keys are prefixes (O35), `ksched` reports its
errors in order (O34), and `rkget` copies a round key (O36). -/

namespace Sys2Proof.Machine

open Sys2Proof.Claims Sys2Proof.Laws

/-! ### Prefixes of a schedule -/

/-- A round key of a smaller size is the first bits of the key of a larger one: bit b of a key does not see the size
(rule R162). -/
theorem roundKeyFrom_take (seed i size extra : Nat) :
    (roundKeyFrom seed i (size + extra)).take size = roundKeyFrom seed i size := by
  have hlen : ((roundKeyFrom seed i (size + extra)).take size).length = size := by
    rw [List.length_take, roundKeyFrom_length, Nat.min_eq_left (Nat.le_add_right size extra)]
  refine bits_ext _ _ (by rw [hlen, roundKeyFrom_length]) fun b hb => ?_
  have hb : b < size := hlen ▸ hb
  rw [take_getD _ _ _ hb, roundKeyFrom_getD _ _ _ _ (by omega), roundKeyFrom_getD _ _ _ _ hb]

/-- The key and the seed of a round come from the rounds before it alone. -/
theorem scheduleFrom_take (size n m i seed : Nat) :
    (scheduleFrom size (n + m) i seed).1.take n = (scheduleFrom size n i seed).1 := by
  induction n generalizing i seed with
  | zero => rfl
  | succ n ih => rw [Nat.add_right_comm, scheduleFrom, scheduleFrom, List.take_succ_cons, ih]

/-- The seeds do not depend on the key size, so each key is cut on its own. -/
theorem scheduleFrom_map_take (size extra n i seed : Nat) :
    (scheduleFrom (size + extra) n i seed).1.map (fun key => key.take size) = (scheduleFrom size n i seed).1 := by
  induction n generalizing i seed with
  | zero => rfl
  | succ n ih => rw [scheduleFrom, scheduleFrom, List.map_cons, ih, roundKeyFrom_take]

/-- Settles O35, from the recurrence in any round. -/
theorem schedulePrefixes : Obligations.SchedulePrefixes := by
  intro k n m size extra _
  exact ⟨scheduleFrom_take size n m 0 (seed0 k), (scheduleFrom_map_take size extra n 0 (seed0 k)).symm⟩

/-! ### `ksched` -/

theorem exec_ksched_badConfig (rs1 : QReg) (s : State) (herr : s.err = false)
    (h : 64 < s.nr.toNat ∨ s.rks.toNat = 0 ∨ 1024 < s.rks.toNat) :
    exec (.ksched rs1) s = .next (failed s 5 (.ksched rs1)) := by
  refine s.command_error _ .badConfig _ herr (if_pos ?_)
  simp only [Config.nrMax, Config.rksMax]
  omega

theorem exec_ksched_lengthMismatch (rs1 : QReg) (s : State) (herr : s.err = false) (hn : s.nr.toNat ≤ 64)
    (hw : 1 ≤ s.rks.toNat ∧ s.rks.toNat ≤ 1024) (hlen : (s.readQ rs1).length < 2 ∨ (s.readQ rs1).length % 2 = 1) :
    exec (.ksched rs1) s = .next (failed s 2 (.ksched rs1)) := by
  refine s.command_error _ .lengthMismatch _ herr ?_
  rw [if_neg (by simp only [Config.nrMax, Config.rksMax]; omega), if_pos (by omega)]

/-- Settles O34: the check of the configuration comes before the check of the master key. -/
theorem kschedErrorsInOrder : Obligations.KschedErrorsInOrder := by
  intro rs1 s herr
  exact ⟨exec_ksched_badConfig rs1 s herr,
    fun hn hw1 hw => exec_ksched_lengthMismatch rs1 s herr hn ⟨hw1, hw⟩⟩

/-! ### `rkget` -/

theorem State.keyMissing_eq_true (s : State) (imm : Nat) :
    s.keyMissing imm = true ↔ s.rkv = false ∨ s.rkn.toNat ≤ imm := by
  simp [State.keyMissing]

theorem State.roundKey_of_getElem? (s : State) (imm : Nat) (k : Bits) (h : s.rk[imm]? = some k) :
    s.roundKey imm = k := by
  rw [State.roundKey, List.getD_eq_getElem?_getD, h, Option.getD_some]

theorem encode_rkget_and_mask (rd : QReg) (imm : Nat) : encode (.rkget rd imm) &&& 0xFF1F8000 = 0x64000000 :=
  Shape.encode_and_mask (f := shapes[12]) (List.getElem_mem _) ⟨"rkget", 0x64000000, 0xFF1F8000⟩ (by decide)
    rd 0 0 imm

theorem exec_rkget_ok (rd : QReg) (imm : Nat) (s : State) (herr : s.err = false) (h : s.keyMissing imm = false) :
    exec (.rkget rd imm) s = .next (s.writeQ rd (s.roundKey imm)) :=
  s.command_ok _ _ _ herr (by simp [h])

theorem exec_rkget_noRoundKey (rd : QReg) (imm : Nat) (s : State) (herr : s.err = false)
    (h : s.keyMissing imm = true) : exec (.rkget rd imm) s = .next (failed s 6 (.rkget rd imm)) :=
  s.command_error _ .noRoundKey _ herr (by simp [h])

/-- Settles O36: `keyMissing` decides between the copy of entry `imm` and the error. -/
theorem rkgetCopiesARoundKey : Obligations.RkgetCopiesARoundKey := by
  intro rd imm s herr
  refine ⟨fun k hv hi hk => ?_, fun h => ?_, encode_rkget_and_mask rd imm⟩
  · rw [exec_rkget_ok rd imm s herr ((s.keyMissing_eq_false imm).mpr ⟨hv, hi⟩), s.roundKey_of_getElem? imm k hk]
    rfl
  · exact exec_rkget_noRoundKey rd imm s herr ((s.keyMissing_eq_true imm).mpr h)

end Sys2Proof.Machine
end

section
/-! PROOF. The Feistel engine: `frnd` and `frnd.i` are one round (O37) and undo each other (O38), `feis.e` and `feis.d` are
the rounds in their order (O39) and undo each other (O40), the errors come in order (O41); and the block functions of
`ecb` and `cbc` are the cipher commands (O51). -/

namespace Sys2Proof.Machine

open Sys2Proof.Claims

/-! ### A fold and its inverse -/

/-- A fold over keys keeps what every step keeps, and a fold of the inverse steps over the keys in reverse undoes it. -/
theorem foldl_keeps_and_undo {β κ : Type} (P : β → Prop) (f g : β → κ → β) (keys : List κ)
    (hstep : ∀ k ∈ keys, ∀ b, P b → P (f b k) ∧ g (f b k) k = b) (b : β) (hb : P b) :
    P (keys.foldl f b) ∧ keys.reverse.foldl g (keys.foldl f b) = b := by
  induction keys generalizing b with
  | nil => exact ⟨hb, rfl⟩
  | cons k keys ih =>
    obtain ⟨hP, hback⟩ := hstep k (by simp) b hb
    obtain ⟨hfold, hundo⟩ := ih (fun k' hk' => hstep k' (by simp [hk'])) (f b k) hP
    exact ⟨hfold, by rw [List.foldl_cons, List.reverse_cons, List.foldl_append, hundo]; exact hback⟩

/-- One more key after the first i is one more step after theirs. -/
theorem foldl_take_succ {β κ : Type} (f : β → κ → β) (b : β) (keys : List κ) (d : κ) (i : Nat) (hi : i < keys.length) :
    (keys.take (i + 1)).foldl f b = f ((keys.take i).foldl f b) (keys.getD i d) := by
  rw [List.take_succ_eq_append_getElem hi, List.foldl_append, List.getD_eq_getElem _ _ hi]
  rfl

/-- In reverse order, the first key of those from i on is the last step. -/
theorem foldl_reverse_drop {β κ : Type} (f : β → κ → β) (b : β) (keys : List κ) (d : κ) (i : Nat)
    (hi : i < keys.length) :
    (keys.drop i).reverse.foldl f b = f ((keys.drop (i + 1)).reverse.foldl f b) (keys.getD i d) := by
  rw [List.drop_eq_getElem_cons hi, List.reverse_cons, List.foldl_append, List.getD_eq_getElem _ _ hi]
  rfl

/-! ### One round on the two halves of a block (rules R170, R172 and R173) -/

theorem State.feistelRound_append (s : State) (l r k : Bits) (h : l.length = r.length) :
    s.feistelRound (l ++ r) k = r ++ xorBits l (roundF s r k) := by
  have hhalf : (l ++ r).length / 2 = l.length := by simp; omega
  rw [State.feistelRound, hhalf, List.drop_left, List.take_left]
  rfl

theorem State.feistelRoundInv_append (s : State) (l r k : Bits) (h : l.length = r.length) :
    s.feistelRoundInv (l ++ r) k = xorBits r (roundF s l k) ++ l := by
  have hhalf : (l ++ r).length / 2 = l.length := by simp; omega
  rw [State.feistelRoundInv, hhalf, List.drop_left, List.take_left]
  rfl

/-- A sequence of two half-blocks of `BS/2` bits. -/
def State.IsBlock (s : State) (b : Bits) : Prop := b.length = 2 * s.halfBlock

/-- With key k the round function takes a half-block to a half-block. -/
def State.KeepsHalf (s : State) (k : Bits) : Prop :=
  ∀ r : Bits, r.length = s.halfBlock → (roundF s r k).length = s.halfBlock

theorem State.isBlock_of_length (s : State) (b : Bits) (hb : FeistelBlockOk s) (hlen : b.length = s.bs.toNat) :
    s.IsBlock b := by
  rw [State.IsBlock, State.halfBlock]
  omega

/-- A block written to a register is an operand the next Feistel command accepts. -/
theorem State.readQ_writeQ_length_of_isBlock (s : State) (r : QReg) (b : Bits) (hb : FeistelBlockOk s)
    (h : s.IsBlock b) : ((s.writeQ r b).readQ r).length = s.bs.toNat := by
  rw [State.IsBlock, State.halfBlock] at h
  rw [State.readQ_writeQ_same]
  omega

/-- The checks of rule R171 make a half-block a whole number of nibbles and of chunks of `PW` bits, so that substitution
and permutation pad nothing. -/
theorem State.keepsHalf_of_widths (s : State) (k : Bits) (hpw : 1 ≤ s.pw.toNat) (hw : FeistelWidthsOk s)
    (hk : k.length = s.rkw.toNat) : s.KeepsHalf k := by
  obtain ⟨hrkw, h4, hp⟩ := hw
  intro r hr
  obtain ⟨n, hn⟩ := Nat.dvd_of_mod_eq_zero h4
  obtain ⟨m, hm⟩ := Nat.dvd_of_mod_eq_zero hp
  rw [State.halfBlock] at hr ⊢
  have hmix : (xorBits r k).length = 4 * n := by rw [xorBits_length]; omega
  have hsub : (substitute s.sbox false (xorBits r k)).length = s.pw.toNat * m := by
    rw [substitute_length, hmix, ceilDiv_mul n 4 (by omega), ← hn, hm]
  rw [roundF, permute_length _ _ _ _ hpw, hsub, ceilDiv_mul m _ hpw, hm]

theorem State.exists_halves (s : State) (b : Bits) (hb : s.IsBlock b) :
    ∃ l r, b = l ++ r ∧ l.length = s.halfBlock ∧ r.length = s.halfBlock := by
  rw [State.IsBlock] at hb
  exact ⟨_, _, (List.take_append_drop s.halfBlock b).symm, by simp; omega, by simp; omega⟩

/-- A forward round keeps the block's length, and the inverse round recomputes F on the half it kept. -/
theorem State.feistelRound_undo (s : State) (k : Bits) (hk : s.KeepsHalf k) (b : Bits) (hb : s.IsBlock b) :
    s.IsBlock (s.feistelRound b k) ∧ s.feistelRoundInv (s.feistelRound b k) k = b := by
  obtain ⟨l, r, rfl, hl, hr⟩ := s.exists_halves b hb
  have hF := hk r hr
  have hx : (xorBits l (roundF s r k)).length = s.halfBlock := by rw [xorBits_length, hl, hF, Nat.min_self]
  rw [s.feistelRound_append l r k (hl.trans hr.symm), s.feistelRoundInv_append _ _ _ (hr.trans hx.symm),
    xorBits_cancel _ _ (hl.trans hF.symm)]
  exact ⟨by rw [State.IsBlock, List.length_append]; omega, rfl⟩

/-- An inverse round keeps the block's length, and the forward round recomputes F on the half it kept. -/
theorem State.feistelRoundInv_undo (s : State) (k : Bits) (hk : s.KeepsHalf k) (b : Bits) (hb : s.IsBlock b) :
    s.IsBlock (s.feistelRoundInv b k) ∧ s.feistelRound (s.feistelRoundInv b k) k = b := by
  obtain ⟨l, r, rfl, hl, hr⟩ := s.exists_halves b hb
  have hF := hk l hl
  have hx : (xorBits r (roundF s l k)).length = s.halfBlock := by rw [xorBits_length, hr, hF, Nat.min_self]
  rw [s.feistelRoundInv_append l r k (hl.trans hr.symm), s.feistelRound_append _ _ _ (hx.trans hl.symm),
    xorBits_cancel _ _ (hr.trans hF.symm)]
  exact ⟨by rw [State.IsBlock, List.length_append]; omega, rfl⟩

/-- A round on a block, said with `BS/2` as rule R175's statement cuts it. -/
theorem State.feistelRound_of_isBlock (s : State) (b k : Bits) (hb : s.IsBlock b) :
    s.feistelRound b k = b.drop (s.bs.toNat / 2) ++
      xorBits (b.take (s.bs.toNat / 2)) (roundF s (b.drop (s.bs.toNat / 2)) k) := by
  rw [State.IsBlock, State.halfBlock] at hb
  have h := s.feistelRound_append (b.take (s.bs.toNat / 2)) (b.drop (s.bs.toNat / 2)) k (by simp; omega)
  rwa [List.take_append_drop] at h

theorem State.feistelRoundInv_of_isBlock (s : State) (b k : Bits) (hb : s.IsBlock b) :
    s.feistelRoundInv b k = xorBits (b.drop (s.bs.toNat / 2)) (roundF s (b.take (s.bs.toNat / 2)) k) ++
      b.take (s.bs.toNat / 2) := by
  rw [State.IsBlock, State.halfBlock] at hb
  have h := s.feistelRoundInv_append (b.take (s.bs.toNat / 2)) (b.drop (s.bs.toNat / 2)) k (by simp; omega)
  rwa [List.take_append_drop] at h

/-! ### The bodies of the commands -/

theorem State.badFeistelBlock_eq_true (s : State) (h : ¬ FeistelBlockOk s) : s.badFeistelBlock = true := by
  rwa [← Bool.not_eq_false, s.badFeistelBlock_eq_false]

theorem State.feistelWidthsFit_eq_false (s : State) (h : ¬ FeistelWidthsOk s) : s.feistelWidthsFit = false := by
  rwa [← Bool.not_eq_true, s.feistelWidthsFit_iff]

theorem State.feistelChecks_of_ready (s : State) (h : FeistelReady s) : s.feistelChecks s.rkn.toNat = none := by
  obtain ⟨hb, hv, hw⟩ := h
  exact (s.feistelChecks_eq_none _).mpr
    ⟨s.badFeistelBlock_eq_false.mpr hb, hv, fun hn => s.feistelWidthsFit_iff.mpr (hw hn)⟩

theorem State.oneFeistelRound_ok (s : State) (inverse : Bool) (rd rs1 : QReg) (imm : Nat) (hb : FeistelBlockOk s)
    (hkey : s.keyMissing imm = false) (hw : FeistelWidthsOk s) (hlen : (s.readQ rs1).length = s.bs.toNat) :
    s.oneFeistelRound inverse rd rs1 imm = .ok (s.writeQ rd
      (if inverse then s.feistelRoundInv (s.readQ rs1) (s.roundKey imm)
        else s.feistelRound (s.readQ rs1) (s.roundKey imm))) := by
  simp [State.oneFeistelRound, s.badFeistelBlock_eq_false.mpr hb, hkey, s.feistelWidthsFit_iff.mpr hw, hlen]

theorem State.oneFeistelRound_badConfig (s : State) (inverse : Bool) (rd rs1 : QReg) (imm : Nat)
    (hb : ¬ FeistelBlockOk s) : s.oneFeistelRound inverse rd rs1 imm = .error .badConfig := by
  rw [State.oneFeistelRound, if_pos (s.badFeistelBlock_eq_true hb)]

theorem State.oneFeistelRound_noRoundKey (s : State) (inverse : Bool) (rd rs1 : QReg) (imm : Nat)
    (hb : FeistelBlockOk s) (hkey : s.keyMissing imm = true) :
    s.oneFeistelRound inverse rd rs1 imm = .error .noRoundKey := by
  simp [State.oneFeistelRound, s.badFeistelBlock_eq_false.mpr hb, hkey]

theorem State.oneFeistelRound_lengthMismatch (s : State) (inverse : Bool) (rd rs1 : QReg) (imm : Nat)
    (hb : FeistelBlockOk s) (hkey : s.keyMissing imm = false)
    (h : ¬ FeistelWidthsOk s ∨ (s.readQ rs1).length ≠ s.bs.toNat) :
    s.oneFeistelRound inverse rd rs1 imm = .error .lengthMismatch := by
  rcases h with hw | hlen
  · simp [State.oneFeistelRound, s.badFeistelBlock_eq_false.mpr hb, hkey, s.feistelWidthsFit_eq_false hw]
  · simp [State.oneFeistelRound, s.badFeistelBlock_eq_false.mpr hb, hkey, hlen]

theorem State.feistelBlock_ok (s : State) (inverse : Bool) (rd rs1 : QReg) (hr : FeistelReady s)
    (hlen : (s.readQ rs1).length = s.bs.toNat) :
    s.feistelBlock inverse rd rs1 = .ok (s.writeQ rd
      (if inverse then s.feistelDec (s.readQ rs1) else s.feistelEnc (s.readQ rs1))) := by
  simp [State.feistelBlock, s.feistelChecks_of_ready hr, hlen]

theorem State.feistelBlock_of_checks (s : State) (inverse : Bool) (rd rs1 : QReg) (e : CmdError)
    (h : s.feistelChecks s.rkn.toNat = some e) : s.feistelBlock inverse rd rs1 = .error e := by
  rw [State.feistelBlock, h]

theorem State.feistelChecks_badConfig (s : State) (nk : Nat) (hb : ¬ FeistelBlockOk s) :
    s.feistelChecks nk = some .badConfig := by
  rw [State.feistelChecks, if_pos (s.badFeistelBlock_eq_true hb)]

theorem State.feistelChecks_noRoundKey (s : State) (nk : Nat) (hb : FeistelBlockOk s) (hv : s.rkv = false) :
    s.feistelChecks nk = some .noRoundKey := by
  simp [State.feistelChecks, s.badFeistelBlock_eq_false.mpr hb, hv]

theorem State.feistelChecks_lengthMismatch (s : State) (nk : Nat) (hb : FeistelBlockOk s) (hv : s.rkv = true)
    (hn : 0 < nk) (hw : ¬ FeistelWidthsOk s) : s.feistelChecks nk = some .lengthMismatch := by
  simp [State.feistelChecks, s.badFeistelBlock_eq_false.mpr hb, hv, hn, s.feistelWidthsFit_eq_false hw]

/-- The check of the operand comes after `feistel_checks` and reports the same error as its last one. -/
theorem State.feistelBlock_lengthMismatch (s : State) (inverse : Bool) (rd rs1 : QReg) (hb : FeistelBlockOk s)
    (hv : s.rkv = true)
    (h : (0 < s.rkn.toNat ∧ ¬ FeistelWidthsOk s) ∨ (s.readQ rs1).length ≠ s.bs.toNat) :
    s.feistelBlock inverse rd rs1 = .error .lengthMismatch := by
  by_cases hw : 0 < s.rkn.toNat ∧ ¬ FeistelWidthsOk s
  · obtain ⟨hn, hw⟩ := hw
    exact s.feistelBlock_of_checks _ _ _ _ (s.feistelChecks_lengthMismatch _ hb hv hn hw)
  · have hlen := h.resolve_left hw
    have hr : FeistelReady s := ⟨hb, hv, fun hn => by_contra fun hw' => hw ⟨hn, hw'⟩⟩
    simp [State.feistelBlock, s.feistelChecks_of_ready hr, hlen]

/-! ### `frnd` and `frnd.i` -/

theorem exec_frnd_ok (rd rs1 : QReg) (imm : Nat) (s : State) (herr : s.err = false) (hb : FeistelBlockOk s)
    (hkey : s.keyMissing imm = false) (hw : FeistelWidthsOk s) (hlen : (s.readQ rs1).length = s.bs.toNat) :
    exec (.frnd rd rs1 imm) s = .next (s.writeQ rd (s.feistelRound (s.readQ rs1) (s.roundKey imm))) :=
  s.command_ok _ _ _ herr (s.oneFeistelRound_ok false rd rs1 imm hb hkey hw hlen)

theorem exec_frndI_ok (rd rs1 : QReg) (imm : Nat) (s : State) (herr : s.err = false) (hb : FeistelBlockOk s)
    (hkey : s.keyMissing imm = false) (hw : FeistelWidthsOk s) (hlen : (s.readQ rs1).length = s.bs.toNat) :
    exec (.frndI rd rs1 imm) s = .next (s.writeQ rd (s.feistelRoundInv (s.readQ rs1) (s.roundKey imm))) :=
  s.command_ok _ _ _ herr (s.oneFeistelRound_ok true rd rs1 imm hb hkey hw hlen)

/-- Settles O37: a block of `BS` bits, which is even, is its two halves. -/
theorem frndIsOneRound : Obligations.FrndIsOneRound := by
  intro rd rs1 imm s l r k herr hb hv hi hw hk hq hl hr
  have hkey := (s.keyMissing_eq_false imm).mpr ⟨hv, hi⟩
  have hlen : (s.readQ rs1).length = s.bs.toNat := by rw [hq, List.length_append]; omega
  rw [exec_frnd_ok rd rs1 imm s herr hb hkey hw hlen, exec_frndI_ok rd rs1 imm s herr hb hkey hw hlen,
    s.roundKey_of_getElem? imm k hk, hq, s.feistelRound_append l r k (hl.trans hr.symm),
    s.feistelRoundInv_append l r k (hl.trans hr.symm)]
  exact ⟨rfl, rfl⟩

/-- Settles O38: the second command reads a block of the same length, made with the same key, and takes it back. -/
theorem feistelRoundsUndoEachOther : Obligations.FeistelRoundsUndoEachOther := by
  intro r₁ r₂ r₃ imm s hs herr hb hv hi hw hlen
  obtain ⟨-, hkf, ⟨hpw, -⟩, -, -⟩ := hs
  have hkey := (s.keyMissing_eq_false imm).mpr ⟨hv, hi⟩
  have hkeeps := s.keepsHalf_of_widths _ hpw hw (s.roundKey_length imm hkf hkey)
  have hblock := s.isBlock_of_length _ hb hlen
  obtain ⟨hE, hDE⟩ := s.feistelRound_undo _ hkeeps _ hblock
  obtain ⟨hD, hED⟩ := s.feistelRoundInv_undo _ hkeeps _ hblock
  have hlen₂ (b : Bits) := s.readQ_writeQ_length_of_isBlock r₂ b hb
  refine ⟨⟨_, _, exec_frnd_ok r₂ r₁ imm s herr hb hkey hw hlen,
      exec_frndI_ok r₃ r₂ imm _ herr hb hkey hw (hlen₂ _ hE), ?_⟩,
    ⟨_, _, exec_frndI_ok r₂ r₁ imm s herr hb hkey hw hlen,
      exec_frnd_ok r₃ r₂ imm _ herr hb hkey hw (hlen₂ _ hD), ?_⟩⟩
  · rw [State.readQ_writeQ_same, State.readQ_writeQ_same]
    exact hDE
  · rw [State.readQ_writeQ_same, State.readQ_writeQ_same]
    exact hED

/-! ### `feis.e` and `feis.d` -/

theorem exec_feisE_ok (rd rs1 : QReg) (s : State) (herr : s.err = false) (hr : FeistelReady s)
    (hlen : (s.readQ rs1).length = s.bs.toNat) :
    exec (.feisE rd rs1) s = .next (s.writeQ rd (s.feistelEnc (s.readQ rs1))) :=
  s.command_ok _ _ _ herr (s.feistelBlock_ok false rd rs1 hr hlen)

theorem exec_feisD_ok (rd rs1 : QReg) (s : State) (herr : s.err = false) (hr : FeistelReady s)
    (hlen : (s.readQ rs1).length = s.bs.toNat) :
    exec (.feisD rd rs1) s = .next (s.writeQ rd (s.feistelDec (s.readQ rs1))) :=
  s.command_ok _ _ _ herr (s.feistelBlock_ok true rd rs1 hr hlen)

/-- In the states that meet the invariant the file holds exactly the `RKN` keys of the cipher. -/
theorem State.roundKeys_eq_rk (s : State) (hs : s.KeyFileOk) : s.roundKeys = s.rk := by
  obtain ⟨hlen, -⟩ := hs
  rw [State.roundKeys, ← hlen, List.take_length]

/-- Where there is a round, `feistel_checks` has compared the widths (rule R171). -/
theorem State.mem_rk_keepsHalf (s : State) (hs : s.Inv) (hr : FeistelReady s) : ∀ k ∈ s.rk, s.KeepsHalf k := by
  obtain ⟨-, ⟨hlen, -, -, hk, -⟩, ⟨hpw, -⟩, -, -⟩ := hs
  obtain ⟨-, -, hw⟩ := hr
  exact fun k hmem => s.keepsHalf_of_widths k hpw (hw (hlen ▸ List.length_pos_of_mem hmem)) (hk k hmem)

/-- The forward rounds of any keys that keep half-blocks, undone by the inverse rounds in reverse key order. -/
theorem State.feistelRounds_undo (s : State) (keys : List Bits) (hk : ∀ k ∈ keys, s.KeepsHalf k) (b : Bits)
    (hb : s.IsBlock b) :
    s.IsBlock (keys.foldl s.feistelRound b) ∧
      keys.reverse.foldl s.feistelRoundInv (keys.foldl s.feistelRound b) = b :=
  foldl_keeps_and_undo s.IsBlock _ _ keys (fun k hmem => s.feistelRound_undo k (hk k hmem)) b hb

/-- The inverse rounds in reverse key order, undone by the forward rounds. -/
theorem State.feistelRoundsInv_undo (s : State) (keys : List Bits) (hk : ∀ k ∈ keys, s.KeepsHalf k) (b : Bits)
    (hb : s.IsBlock b) :
    s.IsBlock (keys.reverse.foldl s.feistelRoundInv b) ∧
      keys.foldl s.feistelRound (keys.reverse.foldl s.feistelRoundInv b) = b := by
  have h := foldl_keeps_and_undo s.IsBlock s.feistelRoundInv s.feistelRound keys.reverse
    (fun k hmem => s.feistelRoundInv_undo k (hk k (List.mem_reverse.mp hmem))) b hb
  rwa [List.reverse_reverse] at h

/-- Settles O39: block i of encryption is what the first i keys make of the operand, block i of decryption what the
keys from i on make of it in reverse. -/
theorem feistelCipherIsItsRounds : Obligations.FeistelCipherIsItsRounds := by
  intro rd rs1 s hs herr hr hlen
  have hk := s.mem_rk_keepsHalf hs hr
  have ⟨_, hkf, _⟩ := hs
  have ⟨hn, _⟩ := hkf
  have ⟨hbs, _⟩ := hr
  have hblock := s.isBlock_of_length _ hbs hlen
  refine ⟨⟨fun i => (s.rk.take i).foldl s.feistelRound (s.readQ rs1), exec_feisE_ok rd rs1 s herr hr hlen, rfl,
      fun i hi => ?_⟩,
    ⟨fun i => (s.rk.drop i).reverse.foldl s.feistelRoundInv (s.readQ rs1), ?_, ?_, fun i hi => ?_⟩⟩
  · obtain ⟨hb, -⟩ := s.feistelRounds_undo (s.rk.take i) (fun k h => hk k (List.mem_of_mem_take h)) _ hblock
    dsimp only
    rw [foldl_take_succ _ _ _ [] i (hn ▸ hi), s.feistelRound_of_isBlock _ _ hb]
  · rw [exec_feisD_ok rd rs1 s herr hr hlen, State.feistelDec, s.roundKeys_eq_rk hkf]
    rfl
  · dsimp only
    rw [← hn, List.drop_length]
    rfl
  · obtain ⟨hb, -⟩ := s.feistelRoundsInv_undo (s.rk.drop (i + 1)) (fun k h => hk k (List.mem_of_mem_drop h)) _ hblock
    dsimp only
    rw [foldl_reverse_drop _ _ _ [] i (hn ▸ hi), s.feistelRoundInv_of_isBlock _ _ hb]

/-- Settles O40: the second command reads a block of the same length and runs the rounds back with the same keys; with no
rounds both folds are empty. -/
theorem feistelDecryptUndoesEncrypt : Obligations.FeistelDecryptUndoesEncrypt := by
  intro r₁ r₂ r₃ s hs herr hr hlen
  have ⟨_, hkf, _⟩ := hs
  have ⟨hbs, _⟩ := hr
  have hk : ∀ k ∈ s.roundKeys, s.KeepsHalf k := s.roundKeys_eq_rk hkf ▸ s.mem_rk_keepsHalf hs hr
  have hblock := s.isBlock_of_length _ hbs hlen
  obtain ⟨hE, hDE⟩ := s.feistelRounds_undo _ hk _ hblock
  obtain ⟨hD, hED⟩ := s.feistelRoundsInv_undo _ hk _ hblock
  have hlen₂ (b : Bits) := s.readQ_writeQ_length_of_isBlock r₂ b hbs
  refine ⟨⟨_, _, exec_feisE_ok r₂ r₁ s herr hr hlen, exec_feisD_ok r₃ r₂ _ herr hr (hlen₂ _ hE), ?_⟩,
    ⟨_, _, exec_feisD_ok r₂ r₁ s herr hr hlen, exec_feisE_ok r₃ r₂ _ herr hr (hlen₂ _ hD), ?_⟩, fun h0 => ?_⟩
  · rw [State.readQ_writeQ_same, State.readQ_writeQ_same]
    exact hDE
  · rw [State.readQ_writeQ_same, State.readQ_writeQ_same]
    exact hED
  · have hnone : s.roundKeys = [] := by rw [State.roundKeys, h0]; rfl
    rw [exec_feisE_ok r₂ r₁ s herr hr hlen, exec_feisD_ok r₂ r₁ s herr hr hlen, State.feistelEnc, State.feistelDec,
      hnone]
    exact ⟨rfl, rfl⟩

/-! ### The errors of the Feistel commands -/

theorem exec_feistelRound_eq (rd rs1 : QReg) (imm : Nat) (s : State) (i : Instr)
    (hi : i ∈ [Instr.frnd rd rs1 imm, .frndI rd rs1 imm]) :
    ∃ inverse, exec i s = s.command i (s.oneFeistelRound inverse rd rs1 imm) := by
  rcases List.mem_pair.mp hi with rfl | rfl
  · exact ⟨false, rfl⟩
  · exact ⟨true, rfl⟩

theorem exec_feistelCipher_eq (rd rs1 : QReg) (s : State) (i : Instr)
    (hi : i ∈ [Instr.feisE rd rs1, .feisD rd rs1]) :
    ∃ inverse, exec i s = s.command i (s.feistelBlock inverse rd rs1) := by
  rcases List.mem_pair.mp hi with rfl | rfl
  · exact ⟨false, rfl⟩
  · exact ⟨true, rfl⟩

/-- Settles O41: both directions of a command run one body, whose checks come in the order of rule R224. -/
theorem feistelErrorsInOrder : Obligations.FeistelErrorsInOrder := by
  intro rd rs1 imm s herr
  refine ⟨fun i hi => ?_, fun i hi => ?_⟩
  · obtain ⟨inverse, hexec⟩ := exec_feistelRound_eq rd rs1 imm s i hi
    rw [hexec]
    refine ⟨fun hb => ?_, fun hb hmissing => ?_, fun hb hv hlt h => ?_⟩
    · exact s.command_error _ .badConfig _ herr (s.oneFeistelRound_badConfig _ _ _ _ hb)
    · exact s.command_error _ .noRoundKey _ herr
        (s.oneFeistelRound_noRoundKey _ _ _ _ hb ((s.keyMissing_eq_true imm).mpr hmissing))
    · exact s.command_error _ .lengthMismatch _ herr
        (s.oneFeistelRound_lengthMismatch _ _ _ _ hb ((s.keyMissing_eq_false imm).mpr ⟨hv, hlt⟩) h)
  · obtain ⟨inverse, hexec⟩ := exec_feistelCipher_eq rd rs1 s i hi
    rw [hexec]
    refine ⟨fun hb => ?_, fun hb hv => ?_, fun hb hv h => ?_⟩
    · exact s.command_error _ .badConfig _ herr (s.feistelBlock_of_checks _ _ _ _ (s.feistelChecks_badConfig _ hb))
    · exact s.command_error _ .noRoundKey _ herr
        (s.feistelBlock_of_checks _ _ _ _ (s.feistelChecks_noRoundKey _ hb hv))
    · exact s.command_error _ .lengthMismatch _ herr (s.feistelBlock_lengthMismatch _ _ _ hb hv h)

/-! ### The block functions of the chaining modes (rule R196) -/

theorem State.spnChecks_of_ready (s : State) (h : SpnReady s) : s.spnChecks s.rkn.toNat = none := by
  obtain ⟨hv, hw⟩ := h
  exact (s.spnChecks_eq_none _).mpr ⟨hv, fun hn => s.spnWidthsBad_eq_false.mpr (hw hn)⟩

theorem State.spnSequence_ok (s : State) (inverse : Bool) (rd rs1 : QReg) (hr : SpnReady s)
    (hfit : s.rkw.toNat * ceilDiv (s.readQ rs1).length s.rkw.toNat ≤ 65536) :
    s.spnSequence inverse rd rs1 = .ok (s.writeQ rd
      (if inverse then s.spnDec (s.readQ rs1) else s.spnEnc (s.readQ rs1))) := by
  simp [State.spnSequence, s.spnChecks_of_ready hr, hfit]

theorem exec_spnE_ok (rd rs1 : QReg) (s : State) (herr : s.err = false) (hr : SpnReady s)
    (hfit : s.rkw.toNat * ceilDiv (s.readQ rs1).length s.rkw.toNat ≤ 65536) :
    exec (.spnE rd rs1) s = .next (s.writeQ rd (s.spnEnc (s.readQ rs1))) :=
  s.command_ok _ _ _ herr (s.spnSequence_ok false rd rs1 hr hfit)

theorem exec_spnD_ok (rd rs1 : QReg) (s : State) (herr : s.err = false) (hr : SpnReady s)
    (hfit : s.rkw.toNat * ceilDiv (s.readQ rs1).length s.rkw.toNat ≤ 65536) :
    exec (.spnD rd rs1) s = .next (s.writeQ rd (s.spnDec (s.readQ rs1))) :=
  s.command_ok _ _ _ herr (s.spnSequence_ok true rd rs1 hr hfit)

/-- Settles O51: the checks of the modes include those of the commands, and a block that is a whole number of key widths
is not padded, so it fits. -/
theorem blockFunctionsAreTheCipherCommands : Obligations.BlockFunctionsAreTheCipherCommands := by
  intro rd rs1 s herr hlen
  refine ⟨fun hr => ⟨exec_feisE_ok rd rs1 s herr hr hlen, exec_feisD_ok rd rs1 s herr hr hlen⟩, ?_⟩
  rintro ⟨-, hbs, hr, hmod⟩
  have hfit : s.rkw.toNat * ceilDiv (s.readQ rs1).length s.rkw.toNat ≤ 65536 :=
    (mul_ceilDiv_le_of_mod _ _ _ hlen.le hmod).trans hbs
  exact ⟨exec_spnE_ok rd rs1 s herr hr hfit, exec_spnD_ok rd rs1 s herr hr hfit⟩

end Sys2Proof.Machine
end

section
/-! PROOF. The SPN engine: `srnd` and `srnd.i` are three stages on every chunk (O42), the forward stages are other
commands in sequence (O43), the two undo each other (O44); `spn.e` and `spn.d` are the rounds in their order (O45) and
undo each other up to padding (O46); the errors come in order (O47). -/

namespace Sys2Proof.Machine

open Sys2Proof.Claims

/-! ### Operands of whole groups -/

theorem mul_ceilDiv_of_mod (len w : Nat) (hw : 1 ≤ w) (h : len % w = 0) : w * ceilDiv len w = len := by
  obtain ⟨n, rfl⟩ := Nat.dvd_of_mod_eq_zero h
  rw [ceilDiv_mul n w hw]

theorem substitute_length_of_mod (sbox : Vector (BitVec 4) 16) (inverse : Bool) (b : Bits) (h : b.length % 4 = 0) :
    (substitute sbox inverse b).length = b.length := by
  rw [substitute_length, mul_ceilDiv_of_mod _ 4 (by omega) h]

theorem permute_length_of_mod (table : List (Nat × Nat)) (w : Nat) (inverse : Bool) (b : Bits) (hw : 1 ≤ w)
    (h : b.length % w = 0) : (permute table w inverse b).length = b.length := by
  rw [permute_length _ _ _ _ hw, mul_ceilDiv_of_mod _ w hw h]

theorem padRMult_of_ceilOf (b : Bits) (n w : Nat) (hn : CeilOf n b.length w) : padRMult b w = padR b (w * n) := by
  rw [padRMult, ceilDiv_eq n _ w hn.1 hn.2]

theorem ceilOf_of_length (b : Bits) (n w : Nat) (hw : 1 ≤ w) (hb : b.length = w * n) : CeilOf n b.length w := by
  omega

/-! ### One round of one chunk (rule R180) -/

/-- What a round asks of its key and the widths (rule R182): a chunk of `RKW` bits is then whole nibbles and whole
chunks of `PW` bits, so that no stage pads it. -/
structure State.SpnKeyOk (s : State) (k : Bits) : Prop where
  rkw_pos : 1 ≤ s.rkw.toNat
  pw_pos : 1 ≤ s.pw.toNat
  nibbles : s.rkw.toNat % 4 = 0
  chunks : s.rkw.toNat % s.pw.toNat = 0
  length : k.length = s.rkw.toNat

theorem State.spnKeyOk_roundKey (s : State) (imm : Nat) (hs : s.Inv) (hkey : s.keyMissing imm = false)
    (hw : SpnWidthsOk s) : s.SpnKeyOk (s.roundKey imm) := by
  obtain ⟨-, hkf, ⟨hpw, -⟩, -, -⟩ := hs
  obtain ⟨hv, -⟩ := (s.keyMissing_eq_false imm).mp hkey
  obtain ⟨h4, hp⟩ := hw
  exact ⟨s.rkw_pos hkf hv, hpw, h4, hp, s.roundKey_length imm hkf hkey⟩

/-- One round of one chunk in either direction; `State.spnRound` applies it to every chunk. -/
def State.spnStages (s : State) (inverse : Bool) (c k : Bits) : Bits :=
  if inverse then s.spnChunkInv c k else s.spnChunk c k

@[simp] theorem State.spnStages_false (s : State) (c k : Bits) : s.spnStages false c k = roundF s c k := rfl

@[simp] theorem State.spnStages_true (s : State) (c k : Bits) : s.spnStages true c k = roundInv s c k := rfl

/-- The key mix of a chunk and the substitution after it keep the chunk's length. -/
theorem State.substituted_length (s : State) (c k : Bits) (hk : s.SpnKeyOk k) (hc : c.length = s.rkw.toNat) :
    (xorBits c k).length = s.rkw.toNat ∧ (substitute s.sbox false (xorBits c k)).length = s.rkw.toNat := by
  have hmix : (xorBits c k).length = s.rkw.toNat := by rw [xorBits_length, hc, hk.length, Nat.min_self]
  exact ⟨hmix, by rw [substitute_length_of_mod _ _ _ (by rw [hmix, hk.nibbles]), hmix]⟩

/-- The inverse permutation of a chunk and the inverse substitution after it keep the chunk's length. -/
theorem State.unpermuted_length (s : State) (c k : Bits) (hk : s.SpnKeyOk k) (hc : c.length = s.rkw.toNat) :
    (permute s.activeTable s.pw.toNat true c).length = s.rkw.toNat ∧
    (substitute s.sbox true (permute s.activeTable s.pw.toNat true c)).length = s.rkw.toNat := by
  have hperm : (permute s.activeTable s.pw.toNat true c).length = s.rkw.toNat := by
    rw [permute_length_of_mod _ _ _ _ hk.pw_pos (by rw [hc, hk.chunks]), hc]
  exact ⟨hperm, by rw [substitute_length_of_mod _ _ _ (by rw [hperm, hk.nibbles]), hperm]⟩

theorem State.spnStages_length (s : State) (inverse : Bool) (c k : Bits) (hk : s.SpnKeyOk k)
    (hc : c.length = s.rkw.toNat) : (s.spnStages inverse c k).length = s.rkw.toNat := by
  cases inverse with
  | false =>
    obtain ⟨-, hsub⟩ := s.substituted_length c k hk hc
    rw [State.spnStages_false, permute_length_of_mod _ _ _ _ hk.pw_pos (by rw [hsub, hk.chunks]), hsub]
  | true =>
    obtain ⟨-, hsub⟩ := s.unpermuted_length c k hk hc
    rw [State.spnStages_true, xorBits_length, hsub, hk.length, Nat.min_self]

/-- Rule R183 on one chunk: the three stages of one direction, undone in reverse order by those of the other. -/
theorem State.spnStages_undo (s : State) (inverse : Bool) (hs : s.Inv) (c k : Bits) (hk : s.SpnKeyOk k)
    (hc : c.length = s.rkw.toNat) : s.spnStages (!inverse) (s.spnStages inverse c k) k = c := by
  obtain ⟨-, -, ht, -, ⟨hnodup, -⟩⟩ := hs
  obtain ⟨n, hn⟩ := Nat.dvd_of_mod_eq_zero hk.chunks
  cases inverse with
  | false =>
    obtain ⟨hmix, hsub⟩ := s.substituted_length c k hk hc
    have hperm := s.permute_undo false ht _ n (hsub.trans hn)
    have hundo := substitute_undo s.sbox false hnodup (xorBits c k) (by rw [hmix, hk.nibbles])
    rw [Bool.not_false] at hperm hundo
    rw [Bool.not_false, State.spnStages_false, State.spnStages_true, roundInv, hperm, hundo,
      xorBits_cancel c k (hc.trans hk.length.symm)]
  | true =>
    obtain ⟨hperm, hsub⟩ := s.unpermuted_length c k hk hc
    have hundo := substitute_undo s.sbox true hnodup (permute s.activeTable s.pw.toNat true c)
      (by rw [hperm, hk.nibbles])
    have hback := s.permute_undo true ht c n (hc.trans hn)
    rw [Bool.not_true] at hundo hback
    rw [Bool.not_true, State.spnStages_true, State.spnStages_false, roundF,
      xorBits_cancel _ k (hsub.trans hk.length.symm), hundo, hback]

/-! ### One round of every chunk (rule R181) -/

theorem State.spnRound_of_ceilOf (s : State) (inverse : Bool) (x k : Bits) (n : Nat)
    (hn : CeilOf n x.length s.rkw.toNat) :
    s.spnRound inverse x k = (chunks (padR x (s.rkw.toNat * n)) s.rkw.toNat).flatMap (s.spnStages inverse · k) := by
  rw [← padRMult_of_ceilOf x n _ hn]
  rfl

theorem State.spnRound_length (s : State) (inverse : Bool) (x k : Bits) (n : Nat) (hk : s.SpnKeyOk k)
    (hn : CeilOf n x.length s.rkw.toNat) : (s.spnRound inverse x k).length = s.rkw.toNat * n := by
  rw [s.spnRound_of_ceilOf _ _ _ n hn]
  exact flatMap_chunks_length _ n _ _ hk.rkw_pos (padR_length x _ hn.1) fun c hc => s.spnStages_length _ c k hk hc

/-- Chunk j of a round's result is the round of chunk j of the padded operand. -/
theorem State.spnRound_group (s : State) (inverse : Bool) (x k : Bits) (n j : Nat) (hk : s.SpnKeyOk k)
    (hn : CeilOf n x.length s.rkw.toNat) (hj : j < n) :
    group (s.spnRound inverse x k) s.rkw.toNat j =
      s.spnStages inverse (group (padR x (s.rkw.toNat * n)) s.rkw.toNat j) k := by
  rw [s.spnRound_of_ceilOf _ _ _ n hn]
  exact group_flatMap_chunks _ n j _ (s.spnStages inverse · k) hk.rkw_pos (padR_length x _ hn.1)
    (fun c hc => s.spnStages_length _ c k hk hc) hj

/-- On whole chunks a round pads nothing. -/
theorem State.spnRound_of_length (s : State) (inverse : Bool) (x k : Bits) (n : Nat) (hk : s.SpnKeyOk k)
    (hx : x.length = s.rkw.toNat * n) :
    s.spnRound inverse x k = (chunks x s.rkw.toNat).flatMap (s.spnStages inverse · k) := by
  rw [s.spnRound_of_ceilOf _ _ _ n (ceilOf_of_length x n _ hk.rkw_pos hx), ← hx, padR_self]

theorem State.spnRound_group_of_length (s : State) (inverse : Bool) (x k : Bits) (n j : Nat) (hk : s.SpnKeyOk k)
    (hx : x.length = s.rkw.toNat * n) (hj : j < n) :
    group (s.spnRound inverse x k) s.rkw.toNat j = s.spnStages inverse (group x s.rkw.toNat j) k := by
  rw [s.spnRound_group _ _ _ n j hk (ceilOf_of_length x n _ hk.rkw_pos hx) hj, ← hx, padR_self]

/-- Rule R183: on whole chunks a round keeps the length, and the round in the other direction takes it back. -/
theorem State.spnRound_undo (s : State) (inverse : Bool) (hs : s.Inv) (n : Nat) (k : Bits) (hk : s.SpnKeyOk k)
    (x : Bits) (hx : x.length = s.rkw.toNat * n) :
    (s.spnRound inverse x k).length = s.rkw.toNat * n ∧ s.spnRound (!inverse) (s.spnRound inverse x k) k = x := by
  have hlen := s.spnRound_length inverse x k n hk (ceilOf_of_length x n _ hk.rkw_pos hx)
  refine ⟨hlen, ?_⟩
  rw [s.spnRound_of_length _ _ _ n hk hlen, s.spnRound_of_length _ _ _ n hk hx]
  exact flatMap_chunks_undo _ n x _ _ hk.rkw_pos hx (fun c hc => s.spnStages_length _ c k hk hc)
    fun c hc => s.spnStages_undo inverse hs c k hk hc

/-! ### The bodies of `srnd` and `srnd.i` -/

theorem State.spnWidthsBad_eq_true (s : State) (h : ¬ SpnWidthsOk s) : s.spnWidthsBad = true := by
  rwa [← Bool.not_eq_false, s.spnWidthsBad_eq_false]

/-- The check against `QMAX` passes or fails with the length of the operand in whole chunks (rules R184 and R185). -/
theorem fitsQ_ceilDiv (len w n : Nat) (hn : CeilOf n len w) : fitsQ (w * ceilDiv len w) = decide (w * n ≤ 65536) := by
  rw [ceilDiv_eq n _ w hn.1 hn.2, fitsQ]

theorem State.oneSpnRound_ok (s : State) (inverse : Bool) (rd rs1 : QReg) (imm n : Nat)
    (hkey : s.keyMissing imm = false) (hw : SpnWidthsOk s) (hn : CeilOf n (s.readQ rs1).length s.rkw.toNat)
    (hfit : s.rkw.toNat * n ≤ 65536) :
    s.oneSpnRound inverse rd rs1 imm = .ok (s.writeQ rd (s.spnRound inverse (s.readQ rs1) (s.roundKey imm))) := by
  simp [State.oneSpnRound, hkey, s.spnWidthsBad_eq_false.mpr hw, fitsQ_ceilDiv _ _ n hn, hfit]

theorem State.oneSpnRound_noRoundKey (s : State) (inverse : Bool) (rd rs1 : QReg) (imm : Nat)
    (hkey : s.keyMissing imm = true) : s.oneSpnRound inverse rd rs1 imm = .error .noRoundKey := by
  rw [State.oneSpnRound, if_pos hkey]

theorem State.oneSpnRound_lengthMismatch (s : State) (inverse : Bool) (rd rs1 : QReg) (imm : Nat)
    (hkey : s.keyMissing imm = false) (hw : ¬ SpnWidthsOk s) :
    s.oneSpnRound inverse rd rs1 imm = .error .lengthMismatch := by
  simp [State.oneSpnRound, hkey, s.spnWidthsBad_eq_true hw]

theorem State.oneSpnRound_overflow (s : State) (inverse : Bool) (rd rs1 : QReg) (imm n : Nat)
    (hkey : s.keyMissing imm = false) (hw : SpnWidthsOk s) (hn : CeilOf n (s.readQ rs1).length s.rkw.toNat)
    (hfit : 65536 < s.rkw.toNat * n) : s.oneSpnRound inverse rd rs1 imm = .error .overflow := by
  simp [State.oneSpnRound, hkey, s.spnWidthsBad_eq_false.mpr hw, fitsQ_ceilDiv _ _ n hn, hfit]

/-! ### `srnd` and `srnd.i` -/

theorem exec_srnd_ok (rd rs1 : QReg) (imm n : Nat) (s : State) (herr : s.err = false)
    (hkey : s.keyMissing imm = false) (hw : SpnWidthsOk s) (hn : CeilOf n (s.readQ rs1).length s.rkw.toNat)
    (hfit : s.rkw.toNat * n ≤ 65536) :
    exec (.srnd rd rs1 imm) s = .next (s.writeQ rd (s.spnRound false (s.readQ rs1) (s.roundKey imm))) :=
  s.command_ok _ _ _ herr (s.oneSpnRound_ok false rd rs1 imm n hkey hw hn hfit)

theorem exec_srndI_ok (rd rs1 : QReg) (imm n : Nat) (s : State) (herr : s.err = false)
    (hkey : s.keyMissing imm = false) (hw : SpnWidthsOk s) (hn : CeilOf n (s.readQ rs1).length s.rkw.toNat)
    (hfit : s.rkw.toNat * n ≤ 65536) :
    exec (.srndI rd rs1 imm) s = .next (s.writeQ rd (s.spnRound true (s.readQ rs1) (s.roundKey imm))) :=
  s.command_ok _ _ _ herr (s.oneSpnRound_ok true rd rs1 imm n hkey hw hn hfit)

/-- Settles O42: chunk j of a round's result is the three stages on chunk j of the padded operand. -/
theorem srndIsThreeStagesPerChunk : Obligations.SrndIsThreeStagesPerChunk := by
  intro rd rs1 imm n s k hs herr hv hi hw hget hn hfit
  have hkey := (s.keyMissing_eq_false imm).mpr ⟨hv, hi⟩
  have hk := s.spnKeyOk_roundKey imm hs hkey hw
  rw [exec_srnd_ok rd rs1 imm n s herr hkey hw hn hfit, exec_srndI_ok rd rs1 imm n s herr hkey hw hn hfit]
  rw [s.roundKey_of_getElem? imm k hget] at hk ⊢
  exact ⟨⟨_, rfl, s.spnRound_length false _ k n hk hn, fun j hj => s.spnRound_group false _ k n j hk hn hj⟩,
    ⟨_, rfl, s.spnRound_length true _ k n hk hn, fun j hj => s.spnRound_group true _ k n j hk hn hj⟩⟩

/-- A round of a single chunk is that chunk's three stages. -/
theorem State.spnRound_of_chunk (s : State) (inverse : Bool) (c k : Bits) (hk : s.SpnKeyOk k)
    (hc : c.length = s.rkw.toNat) : s.spnRound inverse c k = s.spnStages inverse c k := by
  have hone : c.length = s.rkw.toNat * 1 := by omega
  rw [s.spnRound_of_length _ _ _ 1 hk hone, chunks_eq c 1 _ hk.rkw_pos hone, chunksN, ← hc, List.take_length]
  exact List.append_nil _

/-- Settles O43: each command finds in `tmp` the result of the one before it, at the length of the chunk. -/
theorem srndIsXorThenSub4ThenPerm : Obligations.SrndIsXorThenSub4ThenPerm := by
  intro rd rs1 tmp imm s hs herr hv hi hw hlen htmp
  have ⟨_, hkf, _⟩ := hs
  have hkey := (s.keyMissing_eq_false imm).mpr ⟨hv, hi⟩
  have hk := s.spnKeyOk_roundKey imm hs hkey hw
  have hmax : s.rkw.toNat ≤ 65536 := s.rkw_le hkf
  obtain ⟨n, hn⟩ := Nat.dvd_of_mod_eq_zero hk.chunks
  obtain ⟨hmix, hsub⟩ := s.substituted_length (s.readQ rs1) _ hk hlen
  have hget := exec_rkget_ok tmp imm s herr hkey
  have hother := s.readQ_writeQ_other tmp rs1 (s.roundKey imm) htmp.symm
  have hxor := exec_xor_ok tmp rs1 tmp (s.writeQ tmp (s.roundKey imm)) herr
    (by rw [hother, State.readQ_writeQ_same, hlen, hk.length])
  rw [hother, State.readQ_writeQ_same] at hxor
  refine ⟨_, _, _, _, _, hget, hxor, exec_sub4_ok tmp tmp _ herr (by rw [State.readQ_writeQ_same]; omega),
    exec_perm_ok rd tmp _ n herr ?_ (hn ▸ hmax),
    exec_srnd_ok rd rs1 imm 1 s herr hkey hw (ceilOf_of_length _ 1 _ hk.rkw_pos (by omega)) (by omega), ?_⟩
  · simp only [State.readQ_writeQ_same]
    exact ceilOf_of_length _ n _ hk.pw_pos (hsub.trans hn)
  · simp only [State.readQ_writeQ_same]
    rw [s.spnRound_of_chunk false _ _ hk hlen]
    rfl

/-- Settles O44: the second command reads whole chunks of the same number and takes them back with the same key. -/
theorem spnRoundsUndoEachOther : Obligations.SpnRoundsUndoEachOther := by
  intro r₁ r₂ r₃ imm s hs herr hv hi hw hmod
  have ⟨hq, _⟩ := hs
  have hkey := (s.keyMissing_eq_false imm).mpr ⟨hv, hi⟩
  have hk := s.spnKeyOk_roundKey imm hs hkey hw
  obtain ⟨n, hlen⟩ := Nat.dvd_of_mod_eq_zero hmod
  have hfit : s.rkw.toNat * n ≤ 65536 := hlen ▸ hq r₁
  have hn := ceilOf_of_length _ n _ hk.rkw_pos hlen
  obtain ⟨hE, hDE⟩ := s.spnRound_undo false hs n _ hk _ hlen
  obtain ⟨hD, hED⟩ := s.spnRound_undo true hs n _ hk _ hlen
  have hn₂ (b : Bits) (hb : b.length = s.rkw.toNat * n) :
      CeilOf n ((s.writeQ r₂ b).readQ r₂).length s.rkw.toNat := by
    rw [State.readQ_writeQ_same]
    exact ceilOf_of_length b n _ hk.rkw_pos hb
  refine ⟨⟨_, _, exec_srnd_ok r₂ r₁ imm n s herr hkey hw hn hfit,
      exec_srndI_ok r₃ r₂ imm n _ herr hkey hw (hn₂ _ hE) hfit, ?_⟩,
    ⟨_, _, exec_srndI_ok r₂ r₁ imm n s herr hkey hw hn hfit,
      exec_srnd_ok r₃ r₂ imm n _ herr hkey hw (hn₂ _ hD) hfit, ?_⟩⟩
  · rw [State.readQ_writeQ_same, State.readQ_writeQ_same]
    exact hDE
  · rw [State.readQ_writeQ_same, State.readQ_writeQ_same]
    exact hED

/-! ### The rounds of a whole cipher (rule R185) -/

theorem State.rkw_pos_of_ready (s : State) (hs : s.Inv) (hr : SpnReady s) : 1 ≤ s.rkw.toNat := by
  obtain ⟨-, hkf, -⟩ := hs
  obtain ⟨hv, -⟩ := hr
  exact s.rkw_pos hkf hv

/-- Where there is a round, `spn_checks` has compared the widths (rule R182). -/
theorem State.mem_roundKeys_spnKeyOk (s : State) (hs : s.Inv) (hr : SpnReady s) :
    ∀ k ∈ s.roundKeys, s.SpnKeyOk k := by
  obtain ⟨hrkw, hpw, hlen, hbad⟩ := s.spnUsable_of_checks hs (s.spnChecks_of_ready hr)
  intro k hmem
  obtain ⟨h4, hp⟩ := s.spnWidthsBad_eq_false.mp (hbad (List.ne_nil_of_mem hmem))
  exact ⟨hrkw, hpw, h4, hp, hlen k hmem⟩

/-- The rounds of one direction with any keys, undone by the rounds of the other with the keys in reverse order. -/
theorem State.spnRounds_undo (s : State) (inverse : Bool) (hs : s.Inv) (n : Nat) (keys : List Bits)
    (hk : ∀ k ∈ keys, s.SpnKeyOk k) (x : Bits) (hx : x.length = s.rkw.toNat * n) :
    (keys.foldl (s.spnRound inverse) x).length = s.rkw.toNat * n ∧
      keys.reverse.foldl (s.spnRound (!inverse)) (keys.foldl (s.spnRound inverse) x) = x :=
  foldl_keeps_and_undo (fun b : Bits => b.length = s.rkw.toNat * n) _ _ keys
    (fun k hmem => s.spnRound_undo inverse hs n k (hk k hmem)) x hx

/-- Rounds over an operand padded to whole chunks make whole chunks, and the rounds back, which pad nothing then, give
the padded operand (rule R186). -/
theorem State.spnRounds_padRMult_undo (s : State) (inverse : Bool) (hs : s.Inv) (hrkw : 1 ≤ s.rkw.toNat)
    (keys : List Bits) (hk : ∀ k ∈ keys, s.SpnKeyOk k) (x y : Bits) (n : Nat) (hn : CeilOf n x.length s.rkw.toNat)
    (hy : keys.foldl (s.spnRound inverse) (padRMult x s.rkw.toNat) = y) :
    y.length = s.rkw.toNat * n ∧
      keys.reverse.foldl (s.spnRound (!inverse)) (padRMult y s.rkw.toNat) = padR x (s.rkw.toNat * n) := by
  rw [padRMult_of_ceilOf x n _ hn] at hy
  have h := s.spnRounds_undo inverse hs n keys hk _ (padR_length x _ hn.1)
  rw [hy] at h
  rwa [padRMult_of_dvd y n _ hrkw h.1]

theorem State.spnEnc_undo (s : State) (hs : s.Inv) (hr : SpnReady s) (x : Bits) (n : Nat)
    (hn : CeilOf n x.length s.rkw.toNat) :
    (s.spnEnc x).length = s.rkw.toNat * n ∧ s.spnDec (s.spnEnc x) = padR x (s.rkw.toNat * n) :=
  s.spnRounds_padRMult_undo false hs (s.rkw_pos_of_ready hs hr) s.roundKeys (s.mem_roundKeys_spnKeyOk hs hr)
    x _ n hn rfl

theorem State.spnDec_undo (s : State) (hs : s.Inv) (hr : SpnReady s) (x : Bits) (n : Nat)
    (hn : CeilOf n x.length s.rkw.toNat) :
    (s.spnDec x).length = s.rkw.toNat * n ∧ s.spnEnc (s.spnDec x) = padR x (s.rkw.toNat * n) := by
  have h := s.spnRounds_padRMult_undo true hs (s.rkw_pos_of_ready hs hr) s.roundKeys.reverse
    (fun k hmem => s.mem_roundKeys_spnKeyOk hs hr k (List.mem_reverse.mp hmem)) x _ n hn rfl
  rwa [List.reverse_reverse] at h

/-! ### `spn.e` and `spn.d` -/

/-- What the rounds of the first i keys make of x. -/
def State.spnAfter (s : State) (x : Bits) (i : Nat) : Bits := (s.rk.take i).foldl (s.spnRound false) x

/-- What the inverse rounds make of x, from the last key down to key i. -/
def State.spnBackTo (s : State) (x : Bits) (i : Nat) : Bits := (s.rk.drop i).reverse.foldl (s.spnRound true) x

theorem State.spnEnc_eq_spnAfter (s : State) (x : Bits) (n : Nat)
    (hn : CeilOf n x.length s.rkw.toNat) : s.spnEnc x = s.spnAfter (padR x (s.rkw.toNat * n)) s.rkn.toNat := by
  rw [State.spnEnc, padRMult_of_ceilOf x n _ hn]
  rfl

theorem State.spnDec_eq_spnBackTo (s : State) (hs : s.KeyFileOk) (x : Bits) (n : Nat)
    (hn : CeilOf n x.length s.rkw.toNat) : s.spnDec x = s.spnBackTo (padR x (s.rkw.toNat * n)) 0 := by
  rw [State.spnDec, s.roundKeys_eq_rk hs, padRMult_of_ceilOf x n _ hn]
  rfl

theorem State.spnBackTo_rkn (s : State) (hs : s.KeyFileOk) (x : Bits) : s.spnBackTo x s.rkn.toNat = x := by
  obtain ⟨hrkn, -⟩ := hs
  rw [State.spnBackTo, ← hrkn, List.drop_length]
  rfl

theorem State.spnAfter_length (s : State) (hs : s.Inv) (hk : ∀ k ∈ s.rk, s.SpnKeyOk k) (x : Bits) (n i : Nat)
    (hx : x.length = s.rkw.toNat * n) : (s.spnAfter x i).length = s.rkw.toNat * n := by
  obtain ⟨hlen, -⟩ := s.spnRounds_undo false hs n (s.rk.take i) (fun k h => hk k (List.mem_of_mem_take h)) x hx
  exact hlen

theorem State.spnBackTo_length (s : State) (hs : s.Inv) (hk : ∀ k ∈ s.rk, s.SpnKeyOk k) (x : Bits) (n i : Nat)
    (hx : x.length = s.rkw.toNat * n) : (s.spnBackTo x i).length = s.rkw.toNat * n := by
  obtain ⟨hlen, -⟩ := s.spnRounds_undo true hs n (s.rk.drop i).reverse
    (fun k h => hk k (List.mem_of_mem_drop (List.mem_reverse.mp h))) x hx
  exact hlen

/-- Settles O45: sequence i of encryption is what the first i keys make of the padded operand, sequence i of decryption
what the keys from i on make of it in reverse; one key more is one round more of every chunk. -/
theorem spnCipherIsItsRounds : Obligations.SpnCipherIsItsRounds := by
  intro rd rs1 s n hs herr hr hn hfit
  have ⟨_, hkf, _⟩ := hs
  have ⟨hrkn, _⟩ := hkf
  have hk : ∀ k ∈ s.rk, s.SpnKeyOk k := s.roundKeys_eq_rk hkf ▸ s.mem_roundKeys_spnKeyOk hs hr
  have hki (i : Nat) (hi : i < s.rk.length) : s.SpnKeyOk (s.rk.getD i []) := by
    rw [List.getD_eq_getElem _ _ hi]
    exact hk _ (List.getElem_mem hi)
  have hpad := padR_length (s.readQ rs1) _ hn.1
  have hE (i : Nat) := s.spnAfter_length hs hk _ n i hpad
  have hD (i : Nat) := s.spnBackTo_length hs hk _ n i hpad
  have hq : s.rkw.toNat * ceilDiv (s.readQ rs1).length s.rkw.toNat ≤ 65536 := by rwa [ceilDiv_eq n _ _ hn.1 hn.2]
  refine ⟨⟨s.spnAfter (padR (s.readQ rs1) (s.rkw.toNat * n)), ?_, rfl, fun i _ => hE i, fun i hi j hj => ?_⟩,
    ⟨s.spnBackTo (padR (s.readQ rs1) (s.rkw.toNat * n)), ?_, s.spnBackTo_rkn hkf _, fun i _ => hD i,
      fun i hi j hj => ?_⟩⟩
  · rw [exec_spnE_ok rd rs1 s herr hr hq, s.spnEnc_eq_spnAfter _ n hn]
    rfl
  · rw [State.spnAfter, foldl_take_succ _ _ _ [] i (hrkn ▸ hi)]
    exact s.spnRound_group_of_length false _ _ n j (hki i (hrkn ▸ hi)) (hE i) hj
  · rw [exec_spnD_ok rd rs1 s herr hr hq, s.spnDec_eq_spnBackTo hkf _ n hn]
    rfl
  · rw [State.spnBackTo, foldl_reverse_drop _ _ _ [] i (hrkn ▸ hi)]
    exact s.spnRound_group_of_length true _ _ n j (hki i (hrkn ▸ hi)) (hD (i + 1)) hj

/-- Settles O46: the second command reads as many whole chunks as the first one made and runs the rounds back. -/
theorem spnDecryptUndoesEncrypt : Obligations.SpnDecryptUndoesEncrypt := by
  intro r₁ r₂ r₃ s n hs herr hr hn hfit
  have hrkw := s.rkw_pos_of_ready hs hr
  obtain ⟨hE, hDE⟩ := s.spnEnc_undo hs hr (s.readQ r₁) n hn
  obtain ⟨hD, hED⟩ := s.spnDec_undo hs hr (s.readQ r₁) n hn
  have hq : s.rkw.toNat * ceilDiv (s.readQ r₁).length s.rkw.toNat ≤ 65536 := by rwa [ceilDiv_eq n _ _ hn.1 hn.2]
  have hq₂ (b : Bits) (hb : b.length = s.rkw.toNat * n) :
      s.rkw.toNat * ceilDiv ((s.writeQ r₂ b).readQ r₂).length s.rkw.toNat ≤ 65536 := by
    rwa [State.readQ_writeQ_same, hb, ceilDiv_mul n _ hrkw]
  refine ⟨⟨_, _, exec_spnE_ok r₂ r₁ s herr hr hq, exec_spnD_ok r₃ r₂ _ herr hr (hq₂ _ hE), ?_⟩,
    ⟨_, _, exec_spnD_ok r₂ r₁ s herr hr hq, exec_spnE_ok r₃ r₂ _ herr hr (hq₂ _ hD), ?_⟩⟩
  · rw [State.readQ_writeQ_same, State.readQ_writeQ_same]
    exact hDE
  · rw [State.readQ_writeQ_same, State.readQ_writeQ_same]
    exact hED

/-! ### The errors of the SPN commands -/

theorem State.spnSequence_of_checks (s : State) (inverse : Bool) (rd rs1 : QReg) (e : CmdError)
    (h : s.spnChecks s.rkn.toNat = some e) : s.spnSequence inverse rd rs1 = .error e := by
  rw [State.spnSequence, h]

theorem State.spnChecks_noRoundKey (s : State) (nk : Nat) (hv : s.rkv = false) :
    s.spnChecks nk = some .noRoundKey := by
  simp [State.spnChecks, hv]

theorem State.spnChecks_lengthMismatch (s : State) (nk : Nat) (hv : s.rkv = true) (hn : 0 < nk)
    (hw : ¬ SpnWidthsOk s) : s.spnChecks nk = some .lengthMismatch := by
  simp [State.spnChecks, hv, hn, s.spnWidthsBad_eq_true hw]

theorem State.spnSequence_overflow (s : State) (inverse : Bool) (rd rs1 : QReg) (n : Nat) (hr : SpnReady s)
    (hn : CeilOf n (s.readQ rs1).length s.rkw.toNat) (hfit : 65536 < s.rkw.toNat * n) :
    s.spnSequence inverse rd rs1 = .error .overflow := by
  simp [State.spnSequence, s.spnChecks_of_ready hr, fitsQ_ceilDiv _ _ n hn, hfit]

theorem exec_spnRound_eq (rd rs1 : QReg) (imm : Nat) (s : State) (i : Instr)
    (hi : i ∈ [Instr.srnd rd rs1 imm, .srndI rd rs1 imm]) :
    ∃ inverse, exec i s = s.command i (s.oneSpnRound inverse rd rs1 imm) := by
  rcases List.mem_pair.mp hi with rfl | rfl
  · exact ⟨false, rfl⟩
  · exact ⟨true, rfl⟩

theorem exec_spnCipher_eq (rd rs1 : QReg) (s : State) (i : Instr) (hi : i ∈ [Instr.spnE rd rs1, .spnD rd rs1]) :
    ∃ inverse, exec i s = s.command i (s.spnSequence inverse rd rs1) := by
  rcases List.mem_pair.mp hi with rfl | rfl
  · exact ⟨false, rfl⟩
  · exact ⟨true, rfl⟩

/-- Settles O47: both directions of a command run one body, whose checks come in the order of rule R224. -/
theorem spnErrorsInOrder : Obligations.SpnErrorsInOrder := by
  intro rd rs1 imm n s herr
  refine ⟨fun i hi => ?_, fun i hi => ?_⟩
  · obtain ⟨inverse, hexec⟩ := exec_spnRound_eq rd rs1 imm s i hi
    rw [hexec]
    refine ⟨fun hmissing => ?_, fun hv hlt hw => ?_, fun hv hlt hw hn hfit => ?_⟩
    · exact s.command_error _ .noRoundKey _ herr
        (s.oneSpnRound_noRoundKey _ _ _ _ ((s.keyMissing_eq_true imm).mpr hmissing))
    · exact s.command_error _ .lengthMismatch _ herr
        (s.oneSpnRound_lengthMismatch _ _ _ _ ((s.keyMissing_eq_false imm).mpr ⟨hv, hlt⟩) hw)
    · exact s.command_error _ .overflow _ herr
        (s.oneSpnRound_overflow _ _ _ _ n ((s.keyMissing_eq_false imm).mpr ⟨hv, hlt⟩) hw hn hfit)
  · obtain ⟨inverse, hexec⟩ := exec_spnCipher_eq rd rs1 s i hi
    rw [hexec]
    refine ⟨fun hv => ?_, fun hv hlt hw => ?_, fun hr hn hfit => ?_⟩
    · exact s.command_error _ .noRoundKey _ herr (s.spnSequence_of_checks _ _ _ _ (s.spnChecks_noRoundKey _ hv))
    · exact s.command_error _ .lengthMismatch _ herr
        (s.spnSequence_of_checks _ _ _ _ (s.spnChecks_lengthMismatch _ hv hlt hw))
    · exact s.command_error _ .overflow _ herr (s.spnSequence_overflow _ _ _ n hr hn hfit)

end Sys2Proof.Machine
end

section
/-! PROOF. Padding: `pad` appends the pad length (O48), `unpad` removes the declared one (O49). -/

namespace Sys2Proof.Machine

open Sys2Proof.Claims Sys2Proof.Laws

/-! ### The pad length (rule R191) -/

/-- A block size `pad` works with (rule R191). -/
def PadBlockOk (bs : Nat) : Prop := bs % 8 = 0 ∧ 8 ≤ bs ∧ bs ≤ 2040

/-- p bytes, at least one and at most a block of them, take `len` bits to a block boundary (rule R191). -/
def IsPadLength (bs len p : Nat) : Prop := 1 ≤ p ∧ p ≤ bs / 8 ∧ (len + 8 * p) % bs = 0

/-- In 1..b one number only takes n to a multiple of b. -/
theorem padLength_eq (b n p : Nat) (h1 : 1 ≤ p) (h2 : p ≤ b) (h : (n + p) % b = 0) : padLength b n = p := by
  have hn : n % b < b := Nat.mod_lt _ (by omega)
  have hsum : b ∣ n % b + p := by
    rw [Nat.dvd_iff_mod_eq_zero, Nat.mod_add_mod, h]
  have heq : n % b + p = b := by
    obtain ⟨k, hk⟩ := hsum
    have hk1 : k = 1 := by
      rcases k with _ | _ | k
      · omega
      · rfl
      · rw [Nat.mul_add, Nat.mul_add] at hk; omega
    rw [hk, hk1, Nat.mul_one]
  rw [padLength]
  omega

theorem padLength_of_isPadLength (bs len p : Nat) (hb : PadBlockOk bs) (hlen : len % 8 = 0)
    (hp : IsPadLength bs len p) : padLength (bs / 8) (len / 8) = p := by
  obtain ⟨h8, -, -⟩ := hb
  obtain ⟨h1, h2, hmod⟩ := hp
  refine padLength_eq _ _ _ h1 h2 ?_
  have hbs : bs = 8 * (bs / 8) := by omega
  have hsum : len + 8 * p = 8 * (len / 8 + p) := by omega
  rw [hsum, hbs, Nat.mul_mod_mul_left] at hmod
  omega

theorem PadBlockOk.lt_of_isPadLength {bs len p : Nat} (hb : PadBlockOk bs) (hp : IsPadLength bs len p) : p < 2 ^ 8 := by
  obtain ⟨-, -, hmax⟩ := hb
  obtain ⟨-, hle, -⟩ := hp
  omega

/-! ### The bytes appended -/

/-- p bytes of value p. -/
def padBytes (p : Nat) : Bits := (List.replicate p (bitsOf 8 p)).flatten

theorem padMessage_eq (b : Nat) (m : Bits) : padMessage b m = m ++ padBytes (padLength b (m.length / 8)) := rfl

theorem mem_padBytes_length (p : Nat) : ∀ c ∈ List.replicate p (bitsOf 8 p), c.length = 8 := fun c hc => by
  rw [List.eq_of_mem_replicate hc, bitsOf_length]

@[simp] theorem padBytes_length (p : Nat) : (padBytes p).length = 8 * p := by
  rw [padBytes, flatten_length 8 _ (mem_padBytes_length p), List.length_replicate]

theorem val_group_padBytes (p k : Nat) (hp : p < 2 ^ 8) (hk : k < p) : val (group (padBytes p) 8 k) = p := by
  have hg := group_flatten 8 k _ (mem_padBytes_length p) (by simpa using hk)
  rw [List.getElem?_replicate_of_lt hk] at hg
  rw [padBytes, ← Option.some.inj hg, val_bitsOf 8 p hp]

theorem lastByte_padBytes (p : Nat) (h1 : 1 ≤ p) (hp : p < 2 ^ 8) : lastByte (padBytes p) = p := by
  have hg := val_group_padBytes p (p - 1) hp (by omega)
  have hlo : 8 * (p - 1) = 8 * p - 8 := by omega
  have hhi : 8 * p - 8 + 8 = 8 * p := by omega
  rwa [group, hlo, hhi, ← padBytes_length] at hg

/-! ### `pad` -/

theorem encode_pad_and_mask (rd rs1 : QReg) : encode (.pad rd rs1) &&& 0xFF03FFFF = 0xC0000000 :=
  Shape.encode_and_mask (f := shapes[21]) (List.getElem_mem _) ⟨"pad", 0xC0000000, 0xFF03FFFF⟩ (by decide)
    rd rs1 0 0

/-- The first check of `pad`, as its body writes it. -/
theorem PadBlockOk.not_bad {bs : Nat} (h : PadBlockOk bs) : ¬ (bs % 8 ≠ 0 ∨ bs < 8 ∨ 2040 < bs) := by
  obtain ⟨h8, hmin, hmax⟩ := h
  omega

theorem exec_pad_ok (rd rs1 : QReg) (s : State) (p : Nat) (herr : s.err = false) (hb : PadBlockOk s.bs.toNat)
    (ht : (s.readQ rs1).length % 8 = 0) (hp : IsPadLength s.bs.toNat (s.readQ rs1).length p)
    (hfit : (s.readQ rs1).length + 8 * p ≤ 65536) :
    exec (.pad rd rs1) s = .next (s.writeQ rd (s.readQ rs1 ++ padBytes p)) := by
  have hlen := padLength_of_isPadLength _ _ p hb ht hp
  exact s.command_ok _ _ _ herr (by simp [hb.not_bad, ht, hlen, hfit, padMessage_eq])

theorem exec_pad_overflow (rd rs1 : QReg) (s : State) (p : Nat) (herr : s.err = false) (hb : PadBlockOk s.bs.toNat)
    (ht : (s.readQ rs1).length % 8 = 0) (hp : IsPadLength s.bs.toNat (s.readQ rs1).length p)
    (hfit : 65536 < (s.readQ rs1).length + 8 * p) :
    exec (.pad rd rs1) s = .next (failed s 7 (.pad rd rs1)) := by
  have hlen := padLength_of_isPadLength _ _ p hb ht hp
  exact s.command_error _ .overflow _ herr (by simp [hb.not_bad, ht, hlen, fitsQ, hfit])

theorem exec_pad_badConfig (rd rs1 : QReg) (s : State) (herr : s.err = false)
    (h : s.bs.toNat % 8 ≠ 0 ∨ s.bs.toNat < 8 ∨ 2040 < s.bs.toNat) :
    exec (.pad rd rs1) s = .next (failed s 5 (.pad rd rs1)) :=
  s.command_error _ .badConfig _ herr (if_pos h)

theorem exec_pad_lengthMismatch (rd rs1 : QReg) (s : State) (herr : s.err = false) (hb : PadBlockOk s.bs.toNat)
    (ht : (s.readQ rs1).length % 8 ≠ 0) : exec (.pad rd rs1) s = .next (failed s 2 (.pad rd rs1)) :=
  s.command_error _ .lengthMismatch _ herr (by simp [hb.not_bad, ht])

/-- Settles O48: the p of the statement is the model's pad length, and a byte holds it because a block has at most 255
bytes. -/
theorem padAppendsThePadLength : Obligations.PadAppendsThePadLength := by
  intro rd rs1 s herr
  refine ⟨fun h8 hmin hmax ht p h1 h2 hmod => ?_, exec_pad_badConfig rd rs1 s herr,
    fun h8 hmin hmax => exec_pad_lengthMismatch rd rs1 s herr ⟨h8, hmin, hmax⟩, encode_pad_and_mask rd rs1⟩
  have hb : PadBlockOk s.bs.toNat := ⟨h8, hmin, hmax⟩
  have hp : IsPadLength s.bs.toNat (s.readQ rs1).length p := ⟨h1, h2, hmod⟩
  exact ⟨fun hfit => ⟨padBytes p, exec_pad_ok rd rs1 s p herr hb ht hp hfit, padBytes_length p,
    fun k hk => val_group_padBytes p k (hb.lt_of_isPadLength hp) hk⟩, exec_pad_overflow rd rs1 s p herr hb ht hp⟩

/-! ### `unpad` -/

theorem encode_unpad_and_mask (rd rs1 : QReg) : encode (.unpad rd rs1) &&& 0xFF03FFFF = 0xC4000000 :=
  Shape.encode_and_mask (f := shapes[22]) (List.getElem_mem _) ⟨"unpad", 0xC4000000, 0xFF03FFFF⟩ (by decide)
    rd rs1 0 0

/-- The last byte of a message lies in its last part when that holds a byte. -/
theorem lastByte_append (m c : Bits) (h : 8 ≤ c.length) : lastByte (m ++ c) = lastByte c := by
  have hlo : (m ++ c).length - 8 = m.length + (c.length - 8) := by rw [List.length_append]; omega
  have hn : (m ++ c).length - (m.length + (c.length - 8)) = c.length - (c.length - 8) := by
    rw [List.length_append]; omega
  rw [lastByte, slice, hlo, hn, List.drop_length_add_append]
  rfl

theorem lastByte_of_length (c : Bits) (h : c.length = 8) : lastByte c = val c := by
  rw [lastByte, slice, h, Nat.sub_self, List.drop_zero, Nat.sub_zero, ← h, List.take_length]

theorem padAmbiguous_iff (m : Bits) :
    padAmbiguous m = true ↔ m.length / 8 = 0 ∨ lastByte m = 0 ∨ m.length / 8 < lastByte m := by
  simp [padAmbiguous, or_assoc]

theorem exec_unpad_removes (rd rs1 : QReg) (s : State) (m c : Bits) (p : Nat) (herr : s.err = false)
    (hq : s.readQ rs1 = m ++ c) (ht : (m ++ c).length % 8 = 0) (h1 : 1 ≤ p) (hc : c.length = 8 * p)
    (hlast : lastByte c = p) : exec (.unpad rd rs1) s = .next ((s.writeQ rd m).setPamb false) := by
  have hbyte : lastByte (m ++ c) = p := by rw [lastByte_append m c (by omega), hlast]
  have hclear : padAmbiguous (m ++ c) = false := by
    rw [← Bool.not_eq_true, padAmbiguous_iff, hbyte, List.length_append]
    omega
  have hkeep : (m ++ c).take ((m ++ c).length - 8 * p) = m :=
    List.take_left' (by rw [List.length_append]; omega)
  exact s.command_ok _ _ _ herr (by rw [hq, hclear, hbyte, hkeep, if_neg (not_not.mpr ht)]; rfl)

theorem exec_unpad_copies (rd rs1 : QReg) (s : State) (herr : s.err = false) (ht : (s.readQ rs1).length % 8 = 0)
    (h : padAmbiguous (s.readQ rs1) = true) :
    exec (.unpad rd rs1) s = .next ((s.writeQ rd (s.readQ rs1)).setPamb true) :=
  s.command_ok _ _ _ herr (by simp [ht, h])

theorem exec_unpad_lengthMismatch (rd rs1 : QReg) (s : State) (herr : s.err = false)
    (ht : (s.readQ rs1).length % 8 ≠ 0) : exec (.unpad rd rs1) s = .next (failed s 2 (.unpad rd rs1)) :=
  s.command_error _ .lengthMismatch _ herr (if_pos ht)

/-- Settles O49: the model's three signs of an ambiguous pad are the empty message, a last byte of 0, and one that says
more bytes than there are. -/
theorem unpadRemovesTheDeclaredLength : Obligations.UnpadRemovesTheDeclaredLength := by
  intro rd rs1 s herr
  refine ⟨fun m c p hq ht h1 hc hlast => exec_unpad_removes rd rs1 s m c p herr hq ht h1 hc hlast,
    fun m last hq hm hlast hval => ?_, fun hq => ?_, exec_unpad_lengthMismatch rd rs1 s herr,
    encode_unpad_and_mask rd rs1⟩
  · have hlen : (s.readQ rs1).length = m.length + 8 := by rw [hq, List.length_append, hlast]
    have hbyte : lastByte (s.readQ rs1) = val last := by
      rw [hq, lastByte_append m last hlast.ge, lastByte_of_length last hlast]
    refine exec_unpad_copies rd rs1 s herr (by omega) ?_
    rw [padAmbiguous_iff, hbyte]
    omega
  · have hcopy := exec_unpad_copies rd rs1 s herr (by rw [hq]; rfl) (by rw [hq]; rfl)
    rwa [hq] at hcopy

end Sys2Proof.Machine
end

section
/-! SUPPORT. The block functions on blocks of `BS` bits (rule R196), the blocks of a message (rule R194), and the `ecb`
and `cbc` commands in a state their checks pass. -/

namespace Sys2Proof.Machine

open Sys2Proof.Claims

/-! ### The block functions (rule R196) -/

/-- E or D of a cipher by direction. -/
def State.blockFunction (s : State) (c : Cipher) (inverse : Bool) : Bits → Bits :=
  if inverse then s.decBlock c else s.encBlock c

@[simp] theorem State.blockFunction_false (s : State) (c : Cipher) : s.blockFunction c false = s.encBlock c := rfl

@[simp] theorem State.blockFunction_true (s : State) (c : Cipher) : s.blockFunction c true = s.decBlock c := rfl

@[simp] theorem State.blockFunction_writeQ (s : State) (r : QReg) (b : Bits) (c : Cipher) (inverse : Bool) :
    (s.writeQ r b).blockFunction c inverse = s.blockFunction c inverse := by cases c <;> rfl

theorem State.chainReady_writeQ (s : State) (r : QReg) (b : Bits) (c : Cipher) (hr : ChainReady s c) :
    ChainReady (s.writeQ r b) c := by
  cases c with
  | feistel => exact hr
  | spn => exact hr

theorem State.bs_pos_of_ready (s : State) (c : Cipher) (hr : ChainReady s c) : 1 ≤ s.bs.toNat := by
  cases c with
  | feistel =>
    obtain ⟨⟨hb, -⟩, -⟩ := hr
    omega
  | spn =>
    obtain ⟨hb, -⟩ := hr
    exact hb

theorem State.isBlock_iff (s : State) (b : Bits) (hb : FeistelBlockOk s) : s.IsBlock b ↔ b.length = s.bs.toNat := by
  rw [State.IsBlock, State.halfBlock]
  omega

/-- On a block of `BS` bits each block function answers a block, and the other one takes it back: Feistel rounds keep
whole blocks, and `BS` is a multiple of the SPN key width, so nothing is padded. -/
theorem State.blockFunction_undo (s : State) (c : Cipher) (inverse : Bool) (hs : s.Inv) (hr : ChainReady s c) (b : Bits)
    (hb : b.length = s.bs.toNat) :
    (s.blockFunction c inverse b).length = s.bs.toNat ∧
      s.blockFunction c (!inverse) (s.blockFunction c inverse b) = b := by
  cases c with
  | feistel =>
    have ⟨_, hkf, _⟩ := hs
    have ⟨hbs, _⟩ := hr
    have hk : ∀ k ∈ s.roundKeys, s.KeepsHalf k := s.roundKeys_eq_rk hkf ▸ s.mem_rk_keepsHalf hs hr
    have hblock := (s.isBlock_iff b hbs).mpr hb
    cases inverse with
    | false =>
      obtain ⟨hlen, hundo⟩ := s.feistelRounds_undo _ hk b hblock
      exact ⟨(s.isBlock_iff _ hbs).mp hlen, hundo⟩
    | true =>
      obtain ⟨hlen, hundo⟩ := s.feistelRoundsInv_undo _ hk b hblock
      exact ⟨(s.isBlock_iff _ hbs).mp hlen, hundo⟩
  | spn =>
    obtain ⟨-, -, hspn, hmod⟩ := hr
    obtain ⟨n, hn⟩ := Nat.dvd_of_mod_eq_zero hmod
    rw [hn] at hb ⊢
    have hceil := ceilOf_of_length b n _ (s.rkw_pos_of_ready hs hspn) hb
    have hpad : padR b (s.rkw.toNat * n) = b := hb ▸ padR_self b
    cases inverse with
    | false =>
      obtain ⟨hlen, hundo⟩ := s.spnEnc_undo hs hspn b n hceil
      exact ⟨hlen, hundo.trans hpad⟩
    | true =>
      obtain ⟨hlen, hundo⟩ := s.spnDec_undo hs hspn b n hceil
      exact ⟨hlen, hundo.trans hpad⟩

theorem State.blockFunction_length (s : State) (c : Cipher) (inverse : Bool) (hs : s.Inv) (hr : ChainReady s c)
    (b : Bits) (hb : b.length = s.bs.toNat) : (s.blockFunction c inverse b).length = s.bs.toNat := by
  obtain ⟨hlen, -⟩ := s.blockFunction_undo c inverse hs hr b hb
  exact hlen

theorem State.encBlock_length (s : State) (c : Cipher) (hs : s.Inv) (hr : ChainReady s c) (b : Bits)
    (hb : b.length = s.bs.toNat) : (s.encBlock c b).length = s.bs.toNat :=
  s.blockFunction_length c false hs hr b hb

theorem State.decBlock_length (s : State) (c : Cipher) (hs : s.Inv) (hr : ChainReady s c) (b : Bits)
    (hb : b.length = s.bs.toNat) : (s.decBlock c b).length = s.bs.toNat :=
  s.blockFunction_length c true hs hr b hb

/-- Rule R196: D undoes E on a block of `BS` bits. -/
theorem State.decBlock_encBlock (s : State) (c : Cipher) (hs : s.Inv) (hr : ChainReady s c) (b : Bits)
    (hb : b.length = s.bs.toNat) : s.decBlock c (s.encBlock c b) = b := by
  obtain ⟨-, hundo⟩ := s.blockFunction_undo c false hs hr b hb
  exact hundo

/-! ### The blocks of a message (rule R194) -/

theorem splitBlocks_of_ceilOf (bs n : Nat) (m : Bits) (hn : CeilOf n m.length bs) :
    splitBlocks bs m = chunks (padR m (bs * n)) bs := by
  rw [splitBlocks, ceilDiv_eq n _ bs hn.1 hn.2, Nat.mul_comm]

theorem splitBlocks_eq_chunksN (bs n : Nat) (m : Bits) (hbs : 1 ≤ bs) (hn : CeilOf n m.length bs) :
    splitBlocks bs m = chunksN bs n (padR m (bs * n)) := by
  rw [splitBlocks_of_ceilOf bs n m hn, chunks_eq _ n bs hbs (padR_length m _ hn.1)]

/-- Block j of a message is group j of the padded message. -/
theorem splitBlocks_getElem? (bs n j : Nat) (m : Bits) (hbs : 1 ≤ bs) (hn : CeilOf n m.length bs) (hj : j < n) :
    (splitBlocks bs m)[j]? = some (group (padR m (bs * n)) bs j) := by
  rw [splitBlocks_eq_chunksN bs n m hbs hn, chunksN_getElem? bs n j _ hj]

/-- A message of whole blocks is not padded. -/
theorem splitBlocks_of_length (bs n : Nat) (m : Bits) (hbs : 1 ≤ bs) (hm : m.length = bs * n) :
    splitBlocks bs m = chunksN bs n m := by
  rw [splitBlocks_eq_chunksN bs n m hbs (ceilOf_of_length m n bs hbs hm), ← hm, padR_self]

theorem splitBlocks_lengths (bs n : Nat) (m : Bits) (hbs : 1 ≤ bs) (hn : CeilOf n m.length bs) :
    (splitBlocks bs m).length = n ∧ ∀ b ∈ splitBlocks bs m, b.length = bs := by
  rw [← ceilDiv_eq n _ bs hn.1 hn.2]
  exact splitBlocks_length bs m hbs

/-! ### The bodies of the commands -/

theorem State.chainChecks_of_ready (s : State) (c : Cipher) (hr : ChainReady s c) : s.chainChecks c = none := by
  cases c with
  | feistel => exact s.feistelChecks_of_ready hr
  | spn =>
    obtain ⟨hmin, hmax, hspn, hmod⟩ := hr
    exact s.chainChecks_spn_eq_none.mpr ⟨⟨hmin, hmax⟩, s.spnChecks_of_ready hspn, hmod⟩

theorem exec_ecbInstr (c : Cipher) (inverse : Bool) (rd rs1 : QReg) (s : State) :
    exec (ecbInstr c inverse rd rs1) s = s.command (ecbInstr c inverse rd rs1) (s.ecb c inverse rd rs1) := by
  cases c <;> cases inverse <;> rfl

theorem exec_cbcInstr (c : Cipher) (inverse : Bool) (rd rs1 rs2 : QReg) (s : State) :
    exec (cbcInstr c inverse rd rs1 rs2) s =
      s.command (cbcInstr c inverse rd rs1 rs2) (s.cbc c inverse rd rs1 rs2) := by
  cases c <;> cases inverse <;> rfl

/-- The message in whole blocks fits a register when its n blocks do (rules R194 and R197). -/
theorem State.fitsQ_chainedLength (s : State) (m : Bits) (n : Nat) (hn : CeilOf n m.length s.bs.toNat) :
    fitsQ (s.chainedLength m) = decide (s.bs.toNat * n ≤ 65536) := fitsQ_ceilDiv _ _ n hn

theorem exec_ecb_ok (c : Cipher) (inverse : Bool) (rd rs1 : QReg) (s : State) (n : Nat) (herr : s.err = false)
    (hr : ChainReady s c) (hn : CeilOf n (s.readQ rs1).length s.bs.toNat) (hfit : s.bs.toNat * n ≤ 65536) :
    exec (ecbInstr c inverse rd rs1) s =
      .next (s.writeQ rd ((splitBlocks s.bs.toNat (s.readQ rs1)).flatMap (s.blockFunction c inverse))) := by
  rw [exec_ecbInstr]
  refine s.command_ok _ _ _ herr ?_
  simp [State.ecb, s.chainChecks_of_ready c hr, s.fitsQ_chainedLength _ n hn, hfit, State.blockFunction]

theorem exec_cbc_encrypt_ok (c : Cipher) (rd rs1 rs2 : QReg) (s : State) (n : Nat) (herr : s.err = false)
    (hr : ChainReady s c) (hiv : (s.readQ rs2).length ≤ s.bs.toNat)
    (hn : CeilOf n (s.readQ rs1).length s.bs.toNat) (hfit : s.bs.toNat * n ≤ 65536) :
    exec (cbcInstr c false rd rs1 rs2) s = .next (s.writeQ rd
      (cbcEncrypt (s.encBlock c) (padL (s.readQ rs2) s.bs.toNat) (splitBlocks s.bs.toNat (s.readQ rs1)))) := by
  rw [exec_cbcInstr]
  refine s.command_ok _ _ _ herr ?_
  simp [State.cbc, s.chainChecks_of_ready c hr, s.fitsQ_chainedLength _ n hn, hfit, hiv, ivBlock]

theorem exec_cbc_decrypt_ok (c : Cipher) (rd rs1 rs2 : QReg) (s : State) (n : Nat) (herr : s.err = false)
    (hr : ChainReady s c) (hiv : (s.readQ rs2).length ≤ s.bs.toNat)
    (hn : CeilOf n (s.readQ rs1).length s.bs.toNat) (hfit : s.bs.toNat * n ≤ 65536) :
    exec (cbcInstr c true rd rs1 rs2) s = .next (s.writeQ rd
      (cbcDecrypt (s.decBlock c) (padL (s.readQ rs2) s.bs.toNat) (splitBlocks s.bs.toNat (s.readQ rs1)))) := by
  rw [exec_cbcInstr]
  refine s.command_ok _ _ _ herr ?_
  simp [State.cbc, s.chainChecks_of_ready c hr, s.fitsQ_chainedLength _ n hn, hfit, hiv, ivBlock]

end Sys2Proof.Machine
end

section
/-! PROOF. `ecb` ciphers each block alone (O50) and decryption undoes encryption (O52). -/

namespace Sys2Proof.Machine

open Sys2Proof.Claims

/-- The result of `ecb` in either direction: one block for each block of the padded message. -/
theorem State.ecb_blocks (s : State) (c : Cipher) (inverse : Bool) (m : Bits) (n : Nat) (hs : s.Inv)
    (hr : ChainReady s c) (hn : CeilOf n m.length s.bs.toNat) :
    ((splitBlocks s.bs.toNat m).flatMap (s.blockFunction c inverse)).length = s.bs.toNat * n ∧
      ∀ j < n, group ((splitBlocks s.bs.toNat m).flatMap (s.blockFunction c inverse)) s.bs.toNat j =
        s.blockFunction c inverse (group (padR m (s.bs.toNat * n)) s.bs.toNat j) := by
  have hbs := s.bs_pos_of_ready c hr
  have hpad := padR_length m _ hn.1
  have hf := s.blockFunction_length c inverse hs hr
  rw [splitBlocks_of_ceilOf _ n m hn]
  exact ⟨flatMap_chunks_length _ n _ _ hbs hpad hf, fun j hj => group_flatMap_chunks _ n j _ _ hbs hpad hf hj⟩

/-- Settles O50: both directions map the block function of their own over the blocks. -/
theorem ecbCiphersEachBlockAlone : Obligations.EcbCiphersEachBlockAlone := by
  intro c rd rs1 s n hs herr hr hn hfit
  obtain ⟨hlenE, hgroupE⟩ := s.ecb_blocks c false (s.readQ rs1) n hs hr hn
  obtain ⟨hlenD, hgroupD⟩ := s.ecb_blocks c true (s.readQ rs1) n hs hr hn
  exact ⟨⟨_, exec_ecb_ok c false rd rs1 s n herr hr hn hfit, hlenE, hgroupE⟩,
    ⟨_, exec_ecb_ok c true rd rs1 s n herr hr hn hfit, hlenD, hgroupD⟩⟩

/-- On whole blocks D after E, block by block, is the message. -/
theorem State.ecb_undo (s : State) (c : Cipher) (m : Bits) (n : Nat) (hs : s.Inv) (hr : ChainReady s c)
    (hm : m.length = s.bs.toNat * n) :
    (splitBlocks s.bs.toNat ((splitBlocks s.bs.toNat m).flatMap (s.encBlock c))).flatMap (s.decBlock c) = m := by
  have hbs := s.bs_pos_of_ready c hr
  have hE := s.encBlock_length c hs hr
  rw [splitBlocks_of_length _ n m hbs hm, ← chunks_eq m n _ hbs hm]
  have hlen := flatMap_chunks_length _ n m _ hbs hm hE
  rw [splitBlocks_of_length _ n _ hbs hlen, ← chunks_eq _ n _ hbs hlen]
  exact flatMap_chunks_undo _ n m _ _ hbs hm hE (s.decBlock_encBlock c hs hr)

/-- `ecb` of whole blocks that an earlier command left in its operand. -/
theorem exec_ecb_writeQ (c : Cipher) (inverse : Bool) (rd rs1 : QReg) (s : State) (b : Bits) (n : Nat)
    (herr : s.err = false) (hr : ChainReady s c) (hb : b.length = s.bs.toNat * n) (hfit : s.bs.toNat * n ≤ 65536) :
    exec (ecbInstr c inverse rd rs1) (s.writeQ rs1 b) = .next ((s.writeQ rs1 b).writeQ rd
      ((splitBlocks s.bs.toNat b).flatMap (s.blockFunction c inverse))) := by
  have hn := ceilOf_of_length b n _ (s.bs_pos_of_ready c hr) hb
  rw [← s.readQ_writeQ_same rs1 b] at hn
  have h := exec_ecb_ok c inverse rd rs1 (s.writeQ rs1 b) n herr (s.chainReady_writeQ rs1 b c hr) hn hfit
  rwa [State.blockFunction_writeQ, State.readQ_writeQ_same] at h

/-- Rule R198 as two commands in sequence: the second one leaves the message in its destination. -/
theorem exec_ecb_round_trip (c : Cipher) (r₁ r₂ r₃ : QReg) (s : State) (n : Nat) (hs : s.Inv) (herr : s.err = false)
    (hr : ChainReady s c) (hm : (s.readQ r₁).length = s.bs.toNat * n) :
    ∃ b : Bits, exec (ecbInstr c false r₂ r₁) s = .next (s.writeQ r₂ b) ∧
      exec (ecbInstr c true r₃ r₂) (s.writeQ r₂ b) = .next ((s.writeQ r₂ b).writeQ r₃ (s.readQ r₁)) := by
  have hn := ceilOf_of_length _ n _ (s.bs_pos_of_ready c hr) hm
  have hfit : s.bs.toNat * n ≤ 65536 := hm ▸ s.readQ_length_le hs r₁
  obtain ⟨hlen, -⟩ := s.ecb_blocks c false (s.readQ r₁) n hs hr hn
  have hD := exec_ecb_writeQ c true r₃ r₂ s _ n herr hr hlen hfit
  rw [State.blockFunction_false, State.blockFunction_true, s.ecb_undo c _ n hs hr hm] at hD
  exact ⟨_, exec_ecb_ok c false r₂ r₁ s n herr hr hn hfit, hD⟩

/-- Settles O52: what fits a register in whole blocks still does after encryption. -/
theorem ecbDecryptUndoesEncrypt : Obligations.EcbDecryptUndoesEncrypt := by
  intro c r₁ r₂ r₃ s hs herr hr hmod
  obtain ⟨n, hm⟩ := Nat.dvd_of_mod_eq_zero hmod
  obtain ⟨b, hE, hD⟩ := exec_ecb_round_trip c r₁ r₂ r₃ s n hs herr hr hm
  exact ⟨_, _, hE, hD, State.readQ_writeQ_same _ _ _⟩

end Sys2Proof.Machine
end

section
/-! PROOF. `cbc` chains on the ciphertext (O53), decryption undoes encryption (O54), and the IV decides the first block
(O55). -/

namespace Sys2Proof.Machine

open Sys2Proof.Claims

/-! ### A sequence that begins with a block -/

theorem group_append_zero (w : Nat) (x y : Bits) (hx : x.length = w) : group (x ++ y) w 0 = x := by
  subst hx
  simp [slice]

theorem group_append_succ (w j : Nat) (x y : Bits) (hx : x.length = w) : group (x ++ y) w (j + 1) = group y w j := by
  subst hx
  have hlo : x.length * (j + 1) = x.length + x.length * j := by ring
  rw [group, slice, hlo, List.drop_length_add_append, Nat.add_sub_cancel_left, group, slice, Nat.add_sub_cancel_left]

theorem chunksN_succ_append (w n : Nat) (x y : Bits) (hx : x.length = w) :
    chunksN w (n + 1) (x ++ y) = x :: chunksN w n y := by
  rw [chunksN, List.take_left' hx, List.drop_left' hx]

/-! ### CBC over blocks (rules R200 and R201) -/

/-- A block function that answers blocks of `bs` bits. -/
def KeepsBlock (bs : Nat) (f : Bits → Bits) : Prop := ∀ b : Bits, b.length = bs → (f b).length = bs

theorem xorBits_length_of_block (bs : Nat) (a b : Bits) (ha : a.length = bs) (hb : b.length = bs) :
    (xorBits a b).length = bs := by rw [xorBits_length, ha, hb, Nat.min_self]

theorem cbcEncrypt_length (bs : Nat) (e : Bits → Bits) (he : KeepsBlock bs e) (prev : Bits) (blocks : List Bits)
    (hprev : prev.length = bs) (hb : ∀ b ∈ blocks, b.length = bs) :
    (cbcEncrypt e prev blocks).length = bs * blocks.length := by
  induction blocks generalizing prev with
  | nil => simp [cbcEncrypt]
  | cons b rest ih =>
    have hhead := he _ (xorBits_length_of_block bs b prev (hb b (by simp)) hprev)
    have htail := ih _ hhead fun c hc => hb c (by simp [hc])
    rw [cbcEncrypt, List.length_append, hhead, htail, List.length_cons, Nat.mul_succ, Nat.add_comm]

/-- Block j of the ciphertext: E of plaintext block j mixed with the ciphertext block before it. -/
theorem cbcEncrypt_group (bs j : Nat) (e : Bits → Bits) (he : KeepsBlock bs e) (prev b : Bits) (blocks : List Bits)
    (hprev : prev.length = bs) (hb : ∀ b ∈ blocks, b.length = bs) (hj : blocks[j]? = some b) :
    group (cbcEncrypt e prev blocks) bs j =
      e (xorBits b (if j = 0 then prev else group (cbcEncrypt e prev blocks) bs (j - 1))) := by
  induction blocks generalizing prev j with
  | nil => simp at hj
  | cons b₀ rest ih =>
    have hhead := he _ (xorBits_length_of_block bs b₀ prev (hb b₀ (by simp)) hprev)
    rw [cbcEncrypt]
    cases j with
    | zero =>
      obtain rfl : b₀ = b := by simpa using hj
      rw [group_append_zero bs _ _ hhead, if_pos rfl]
    | succ j =>
      have hrest := ih j (e (xorBits b₀ prev)) hhead (fun c hc => hb c (by simp [hc])) (by simpa using hj)
      rw [group_append_succ bs j _ _ hhead, hrest, if_neg (Nat.succ_ne_zero j), Nat.add_sub_cancel]
      cases j with
      | zero => rw [if_pos rfl, group_append_zero bs _ _ hhead]
      | succ j => rw [if_neg (Nat.succ_ne_zero j), group_append_succ bs j _ _ hhead, Nat.add_sub_cancel]

theorem cbcDecrypt_length (bs : Nat) (d : Bits → Bits) (hd : KeepsBlock bs d) (prev : Bits) (blocks : List Bits)
    (hprev : prev.length = bs) (hb : ∀ b ∈ blocks, b.length = bs) :
    (cbcDecrypt d prev blocks).length = bs * blocks.length := by
  induction blocks generalizing prev with
  | nil => simp [cbcDecrypt]
  | cons c rest ih =>
    have hc := hb c (by simp)
    have hhead := xorBits_length_of_block bs (d c) prev (hd c hc) hprev
    have htail := ih c hc fun c' h => hb c' (by simp [h])
    rw [cbcDecrypt, List.length_append, hhead, htail, List.length_cons, Nat.mul_succ, Nat.add_comm]

/-- Block j of the plaintext: D of ciphertext block j mixed with the block before it in the sequence that begins with
the chaining value. -/
theorem cbcDecrypt_group (bs j : Nat) (d : Bits → Bits) (hd : KeepsBlock bs d) (prev c p : Bits) (blocks : List Bits)
    (hprev : prev.length = bs) (hb : ∀ b ∈ blocks, b.length = bs) (hj : blocks[j]? = some c)
    (hp : (prev :: blocks)[j]? = some p) : group (cbcDecrypt d prev blocks) bs j = xorBits (d c) p := by
  induction blocks generalizing prev j with
  | nil => simp at hj
  | cons c₀ rest ih =>
    have hc₀ := hb c₀ (by simp)
    have hhead := xorBits_length_of_block bs (d c₀) prev (hd c₀ hc₀) hprev
    rw [cbcDecrypt]
    cases j with
    | zero =>
      obtain rfl : c₀ = c := by simpa using hj
      obtain rfl : prev = p := by simpa using hp
      exact group_append_zero bs _ _ hhead
    | succ j =>
      rw [group_append_succ bs j _ _ hhead]
      exact ih j c₀ hc₀ (fun c' h => hb c' (by simp [h])) (by simpa using hj) (by simpa using hp)

/-- Rule R202 over blocks: cutting the ciphertext into blocks and decrypting them from the same chaining value gives the
blocks back. -/
theorem cbcDecrypt_cbcEncrypt (bs : Nat) (e d : Bits → Bits) (he : KeepsBlock bs e)
    (hde : ∀ b : Bits, b.length = bs → d (e b) = b) (prev : Bits) (blocks : List Bits) (hprev : prev.length = bs)
    (hb : ∀ b ∈ blocks, b.length = bs) :
    cbcDecrypt d prev (chunksN bs blocks.length (cbcEncrypt e prev blocks)) = blocks.flatten := by
  induction blocks generalizing prev with
  | nil => rfl
  | cons b rest ih =>
    have hb₀ := hb b (by simp)
    have hmix := xorBits_length_of_block bs b prev hb₀ hprev
    rw [cbcEncrypt, List.length_cons, chunksN_succ_append bs _ _ _ (he _ hmix), cbcDecrypt, hde _ hmix,
      xorBits_cancel b prev (hb₀.trans hprev.symm), ih _ (he _ hmix) fun c hc => hb c (by simp [hc]),
      List.flatten_cons]

/-- Settles O53: the n blocks of the padded message, chained from the IV's block. -/
theorem cbcChainsOnCiphertext : Obligations.CbcChainsOnCiphertext := by
  intro c rd rs1 rs2 s n hs herr hr hiv hn hfit
  have hbs := s.bs_pos_of_ready c hr
  have hprev := padL_length _ _ hiv
  have hE : KeepsBlock s.bs.toNat (s.encBlock c) := s.encBlock_length c hs hr
  have hD : KeepsBlock s.bs.toNat (s.decBlock c) := s.decBlock_length c hs hr
  obtain ⟨hcount, hb⟩ := splitBlocks_lengths _ n _ hbs hn
  have hblock (j : Nat) (hj : j < n) := splitBlocks_getElem? _ n j (s.readQ rs1) hbs hn hj
  refine ⟨⟨_, exec_cbc_encrypt_ok c rd rs1 rs2 s n herr hr hiv hn hfit, ?_,
      fun j hj => cbcEncrypt_group _ j _ hE _ _ _ hprev hb (hblock j hj)⟩,
    ⟨_, exec_cbc_decrypt_ok c rd rs1 rs2 s n herr hr hiv hn hfit, ?_,
      fun j hj => cbcDecrypt_group _ j _ hD _ _ _ _ hprev hb (hblock j hj) ?_⟩⟩
  · rw [cbcEncrypt_length _ _ hE _ _ hprev hb, hcount]
  · rw [cbcDecrypt_length _ _ hD _ _ hprev hb, hcount]
  · cases j with
    | zero => rfl
    | succ j => exact hblock j (by omega)

/-! ### Decryption undoes encryption (rule R202) -/

/-- `cbc` decryption of whole blocks that an earlier command left in its operand, which is not the IV's register. -/
theorem exec_cbc_decrypt_writeQ (c : Cipher) (rd rs1 iv : QReg) (s : State) (b : Bits) (n : Nat) (herr : s.err = false)
    (hr : ChainReady s c) (hb : b.length = s.bs.toNat * n) (hfit : s.bs.toNat * n ≤ 65536)
    (hiv : (s.readQ iv).length ≤ s.bs.toNat) (hne : rs1 ≠ iv) :
    exec (cbcInstr c true rd rs1 iv) (s.writeQ rs1 b) = .next ((s.writeQ rs1 b).writeQ rd
      (cbcDecrypt (s.decBlock c) (padL (s.readQ iv) s.bs.toNat) (splitBlocks s.bs.toNat b))) := by
  have hkept := s.readQ_writeQ_other rs1 iv b hne.symm
  have hn := ceilOf_of_length b n _ (s.bs_pos_of_ready c hr) hb
  rw [← s.readQ_writeQ_same rs1 b] at hn
  rw [← hkept] at hiv
  have h := exec_cbc_decrypt_ok c rd rs1 iv (s.writeQ rs1 b) n herr (s.chainReady_writeQ rs1 b c hr) hiv hn hfit
  rwa [← State.blockFunction_true, State.blockFunction_writeQ, State.readQ_writeQ_same, hkept] at h

/-- On whole blocks the blocks of the ciphertext, decrypted from the same chaining value, are the message. -/
theorem State.cbc_undo (s : State) (c : Cipher) (prev m : Bits) (n : Nat) (hs : s.Inv) (hr : ChainReady s c)
    (hprev : prev.length = s.bs.toNat) (hm : m.length = s.bs.toNat * n) :
    (cbcEncrypt (s.encBlock c) prev (splitBlocks s.bs.toNat m)).length = s.bs.toNat * n ∧
      cbcDecrypt (s.decBlock c) prev
        (splitBlocks s.bs.toNat (cbcEncrypt (s.encBlock c) prev (splitBlocks s.bs.toNat m))) = m := by
  have hbs := s.bs_pos_of_ready c hr
  have hE : KeepsBlock s.bs.toNat (s.encBlock c) := s.encBlock_length c hs hr
  obtain ⟨hcount, hb⟩ := splitBlocks_lengths _ n m hbs (ceilOf_of_length m n _ hbs hm)
  have hlen := cbcEncrypt_length _ _ hE prev _ hprev hb
  have hundo := cbcDecrypt_cbcEncrypt _ _ _ hE (s.decBlock_encBlock c hs hr) prev _ hprev hb
  rw [hcount] at hlen hundo
  have hjoin : (splitBlocks s.bs.toNat m).flatten = m := by
    rw [splitBlocks_of_length _ n _ hbs hm, chunksN_flatten _ n _ hm]
  exact ⟨hlen, by rw [splitBlocks_of_length _ n _ hbs hlen, hundo, hjoin]⟩

/-- Rule R202 as two commands in sequence: the second one reads the IV the first one left alone, and leaves the message
in its destination. -/
theorem exec_cbc_round_trip (c : Cipher) (r₁ r₂ r₃ iv : QReg) (s : State) (n : Nat) (hs : s.Inv) (herr : s.err = false)
    (hr : ChainReady s c) (hm : (s.readQ r₁).length = s.bs.toNat * n) (hiv : (s.readQ iv).length ≤ s.bs.toNat)
    (hne : r₂ ≠ iv) :
    ∃ b : Bits, exec (cbcInstr c false r₂ r₁ iv) s = .next (s.writeQ r₂ b) ∧
      exec (cbcInstr c true r₃ r₂ iv) (s.writeQ r₂ b) = .next ((s.writeQ r₂ b).writeQ r₃ (s.readQ r₁)) := by
  have hn := ceilOf_of_length _ n _ (s.bs_pos_of_ready c hr) hm
  have hfit : s.bs.toNat * n ≤ 65536 := hm ▸ s.readQ_length_le hs r₁
  obtain ⟨hlen, hundo⟩ := s.cbc_undo c _ (s.readQ r₁) n hs hr (padL_length _ _ hiv) hm
  have hD := exec_cbc_decrypt_writeQ c r₃ r₂ iv s _ n herr hr hlen hfit hiv hne
  rw [hundo] at hD
  exact ⟨_, exec_cbc_encrypt_ok c r₂ r₁ iv s n herr hr hiv hn hfit, hD⟩

/-- Settles O54: encryption leaves the IV's register alone, because it is not its destination. -/
theorem cbcDecryptUndoesEncrypt : Obligations.CbcDecryptUndoesEncrypt := by
  intro c r₁ r₂ r₃ iv s hs herr hr hmod hiv hne
  obtain ⟨n, hm⟩ := Nat.dvd_of_mod_eq_zero hmod
  obtain ⟨b, hE, hD⟩ := exec_cbc_round_trip c r₁ r₂ r₃ iv s n hs herr hr hm hiv hne
  exact ⟨_, _, hE, hD, State.readQ_writeQ_same _ _ _⟩

/-! ### The IV and the first block (rule R202) -/

theorem xorBits_comm (a b : Bits) : xorBits a b = xorBits b a := List.zipWith_comm_of_comm Bool.xor_comm

/-- Mixing one block with two others tells them apart. -/
theorem xorBits_left_cancel (a x y : Bits) (hx : x.length = a.length) (hy : y.length = a.length)
    (h : xorBits a x = xorBits a y) : x = y := by
  rw [← xorBits_cancel x a hx, xorBits_comm x a, h, xorBits_comm a y, xorBits_cancel y a hy]

/-- Settles O55: D takes equal first ciphertext blocks back to the first plaintext block mixed with each IV. -/
theorem cbcIvChangesTheFirstBlock : Obligations.CbcIvChangesTheFirstBlock := by
  intro c rd rs1 iv₁ iv₂ s n hs herr hr hne hn hfit hiv₁ hiv₂ hdiff
  have hbs := s.bs_pos_of_ready c hr
  have hpos : 0 < n := by
    have hlen := List.length_pos_of_ne_nil hne
    rcases Nat.eq_zero_or_pos n with rfl | h
    · omega
    · exact h
  have hE : KeepsBlock s.bs.toNat (s.encBlock c) := s.encBlock_length c hs hr
  obtain ⟨-, hb⟩ := splitBlocks_lengths _ n _ hbs hn
  have hblock := splitBlocks_getElem? _ n 0 (s.readQ rs1) hbs hn hpos
  have hb₀ := hb _ (List.mem_of_getElem? hblock)
  have hp₁ := padL_length _ _ hiv₁
  have hp₂ := padL_length _ _ hiv₂
  refine ⟨_, _, exec_cbc_encrypt_ok c rd rs1 iv₁ s n herr hr hiv₁ hn hfit,
    exec_cbc_encrypt_ok c rd rs1 iv₂ s n herr hr hiv₂ hn hfit, fun heq => hdiff ?_⟩
  rw [State.readQ_writeQ_same, State.readQ_writeQ_same, cbcEncrypt_group _ 0 _ hE _ _ _ hp₁ hb hblock,
    cbcEncrypt_group _ 0 _ hE _ _ _ hp₂ hb hblock, if_pos rfl, if_pos rfl] at heq
  have hmix := congrArg (s.decBlock c) heq
  rw [s.decBlock_encBlock c hs hr _ (xorBits_length_of_block _ _ _ hb₀ hp₁),
    s.decBlock_encBlock c hs hr _ (xorBits_length_of_block _ _ _ hb₀ hp₂)] at hmix
  exact xorBits_left_cancel _ _ _ (hp₁.trans hb₀.symm) (hp₂.trans hb₀.symm) hmix

end Sys2Proof.Machine
end

section
/-! PROOF. Whole messages padded, ciphered, deciphered and unpadded (O57). -/

namespace Sys2Proof.Machine

open Sys2Proof.Claims

/-- A message of whole bytes whose padded form has n blocks is padded with the bytes up to n blocks (rule R191). -/
theorem exists_isPadLength (bs len n : Nat) (hb : PadBlockOk bs) (ht : len % 8 = 0) (hlo : len < bs * n)
    (hhi : bs * n ≤ len + bs) : ∃ p, IsPadLength bs len p ∧ len + 8 * p = bs * n := by
  obtain ⟨h8, -, -⟩ := hb
  have hbytes : bs * n % 8 = 0 := by rw [Nat.mul_mod, h8, Nat.zero_mul, Nat.zero_mod]
  have hsum : len + 8 * ((bs * n - len) / 8) = bs * n := by omega
  exact ⟨(bs * n - len) / 8, ⟨by omega, by omega, by rw [hsum, Nat.mul_mod_right]⟩, hsum⟩

/-- `unpad` of a message with p bytes of value p appended (rule R203). -/
theorem exec_unpad_padBytes (rd rs1 : QReg) (s : State) (m : Bits) (p : Nat) (herr : s.err = false)
    (hq : s.readQ rs1 = m ++ padBytes p) (hm : m.length % 8 = 0) (h1 : 1 ≤ p) (hp : p < 2 ^ 8) :
    exec (.unpad rd rs1) s = .next ((s.writeQ rd m).setPamb false) :=
  exec_unpad_removes rd rs1 s m (padBytes p) p herr hq (by rw [List.length_append, padBytes_length]; omega) h1
    (padBytes_length p) (lastByte_padBytes p h1 hp)

/-- Settles O57: the padded message is whole blocks, so it is what decryption leaves, and its last byte is the pad
length. -/
theorem wholeMessagesRoundTrip : Obligations.WholeMessagesRoundTrip := by
  intro c r₁ r₂ r₃ iv s hs herr hr h8 hmin hmax ht n hlo hhi hfit
  have hb : PadBlockOk s.bs.toNat := ⟨h8, hmin, hmax⟩
  obtain ⟨p, hp, hsum⟩ := exists_isPadLength _ _ n hb ht hlo hhi
  have hlt := hb.lt_of_isPadLength hp
  have ⟨h1, _, _⟩ := hp
  have hpad := exec_pad_ok r₂ r₁ s p herr hb ht hp (hsum ▸ hfit)
  have hlen : (s.readQ r₁ ++ padBytes p).length = s.bs.toNat * n := by
    rw [List.length_append, padBytes_length, hsum]
  have hs₁ := s.writeQ_inv r₂ _ hs (hlen ▸ hfit)
  have hr₁ := s.chainReady_writeQ r₂ (s.readQ r₁ ++ padBytes p) c hr
  have hread := s.readQ_writeQ_same r₂ (s.readQ r₁ ++ padBytes p)
  have hunpad (t : State) (ht₃ : t.err = false) (hq : t.readQ r₂ = s.readQ r₁ ++ padBytes p) :=
    exec_unpad_padBytes r₃ r₂ t _ p ht₃ hq ht h1 hlt
  refine ⟨?_, fun hiv hne => ?_⟩
  · obtain ⟨b, hE, hD⟩ := exec_ecb_round_trip c r₂ r₂ r₂ _ n hs₁ herr hr₁ (by rwa [hread])
    rw [hread] at hD
    exact ⟨_, _, _, _, hpad, hE, hD, hunpad _ herr (State.readQ_writeQ_same _ _ _), by simp, by simp, rfl⟩
  · have hkept := s.readQ_writeQ_other r₂ iv (s.readQ r₁ ++ padBytes p) hne.symm
    obtain ⟨b, hE, hD⟩ := exec_cbc_round_trip c r₂ r₂ r₂ iv _ n hs₁ herr hr₁ (by rwa [hread]) (by rwa [hkept]) hne
    rw [hread] at hD
    exact ⟨_, _, _, _, hpad, hE, hD, hunpad _ herr (State.readQ_writeQ_same _ _ _), by simp, by simp, rfl⟩

end Sys2Proof.Machine
end

section
/-! PROOF. The errors of `ecb` and `cbc` come in order (O56). -/

namespace Sys2Proof.Machine

open Sys2Proof.Claims

/-! ### `chain_checks` (rule R195) -/

theorem State.feistelChecks_of_not_ready (s : State) (hb : FeistelBlockOk s) (hv : s.rkv = true)
    (hr : ¬ FeistelReady s) : s.feistelChecks s.rkn.toNat = some .lengthMismatch := by
  obtain ⟨hn, hw⟩ : 0 < s.rkn.toNat ∧ ¬ FeistelWidthsOk s := by
    by_contra h
    exact hr ⟨hb, hv, fun hn => by_contra fun hw => h ⟨hn, hw⟩⟩
  exact s.feistelChecks_lengthMismatch _ hb hv hn hw

theorem State.spnChecks_of_not_ready (s : State) (hv : s.rkv = true) (hr : ¬ SpnReady s) :
    s.spnChecks s.rkn.toNat = some .lengthMismatch := by
  obtain ⟨hn, hw⟩ : 0 < s.rkn.toNat ∧ ¬ SpnWidthsOk s := by
    by_contra h
    exact hr ⟨hv, fun hn => by_contra fun hw => h ⟨hn, hw⟩⟩
  exact s.spnChecks_lengthMismatch _ hv hn hw

theorem State.chainChecks_spn_badConfig (s : State) (h : s.bs.toNat = 0 ∨ 65536 < s.bs.toNat) :
    s.chainChecks .spn = some .badConfig := by
  rw [State.chainChecks, if_pos (by rwa [Nat.lt_one_iff])]

/-- With a block size in range `spn_checks` comes next, and after it the check that blocks are whole chunks. -/
theorem State.chainChecks_spn_eq (s : State) (hmin : 1 ≤ s.bs.toNat) (hmax : s.bs.toNat ≤ 65536) :
    s.chainChecks .spn =
      (s.spnChecks s.rkn.toNat).or (if s.bs.toNat % s.rkw.toNat ≠ 0 then some .lengthMismatch else none) := by
  rw [State.chainChecks, if_neg (by simp only [Config.qMax]; omega)]
  cases s.spnChecks s.rkn.toNat <;> rfl

theorem State.chainChecks_spn_noRoundKey (s : State) (hmin : 1 ≤ s.bs.toNat) (hmax : s.bs.toNat ≤ 65536)
    (hv : s.rkv = false) : s.chainChecks .spn = some .noRoundKey := by
  rw [s.chainChecks_spn_eq hmin hmax, s.spnChecks_noRoundKey _ hv, Option.some_or]

/-- Both checks of widths report LengthMismatch: the key width against the table, and the block against the key
width. -/
theorem State.chainChecks_spn_lengthMismatch (s : State) (hmin : 1 ≤ s.bs.toNat) (hmax : s.bs.toNat ≤ 65536)
    (hv : s.rkv = true) (hr : ¬ ChainReady s .spn) : s.chainChecks .spn = some .lengthMismatch := by
  rw [s.chainChecks_spn_eq hmin hmax]
  by_cases hspn : SpnReady s
  · have hmod : s.bs.toNat % s.rkw.toNat ≠ 0 := fun h => hr ⟨hmin, hmax, hspn, h⟩
    rw [s.spnChecks_of_ready hspn, if_pos hmod, Option.none_or]
  · rw [s.spnChecks_of_not_ready hv hspn, Option.some_or]

/-! ### The commands -/

/-- An error of `chain_checks` is the error of every command of the cipher. -/
theorem exec_chaining_of_checks (c : Cipher) (inverse : Bool) (rd rs1 rs2 : QReg) (s : State) (e : CmdError)
    (i : Instr) (hi : i ∈ [ecbInstr c inverse rd rs1, cbcInstr c inverse rd rs1 rs2]) (herr : s.err = false)
    (h : s.chainChecks c = some e) : exec i s = .next (s.raise e (encode i)) := by
  rcases List.mem_pair.mp hi with rfl | rfl
  · rw [exec_ecbInstr]
    exact s.command_error _ e _ herr (by rw [State.ecb, h])
  · rw [exec_cbcInstr]
    exact s.command_error _ e _ herr (by rw [State.cbc, h])

theorem exec_ecb_overflow (c : Cipher) (inverse : Bool) (rd rs1 : QReg) (s : State) (n : Nat) (herr : s.err = false)
    (hr : ChainReady s c) (hn : CeilOf n (s.readQ rs1).length s.bs.toNat) (hfit : 65536 < s.bs.toNat * n) :
    exec (ecbInstr c inverse rd rs1) s = .next (failed s 7 (ecbInstr c inverse rd rs1)) := by
  rw [exec_ecbInstr]
  exact s.command_error _ .overflow _ herr
    (by simp [State.ecb, s.chainChecks_of_ready c hr, s.fitsQ_chainedLength _ n hn, hfit])

theorem exec_cbc_lengthMismatch (c : Cipher) (inverse : Bool) (rd rs1 rs2 : QReg) (s : State) (herr : s.err = false)
    (hr : ChainReady s c) (hiv : s.bs.toNat < (s.readQ rs2).length) :
    exec (cbcInstr c inverse rd rs1 rs2) s = .next (failed s 2 (cbcInstr c inverse rd rs1 rs2)) := by
  rw [exec_cbcInstr]
  exact s.command_error _ .lengthMismatch _ herr (by simp [State.cbc, s.chainChecks_of_ready c hr, hiv])

theorem exec_cbc_overflow (c : Cipher) (inverse : Bool) (rd rs1 rs2 : QReg) (s : State) (n : Nat)
    (herr : s.err = false) (hr : ChainReady s c) (hiv : (s.readQ rs2).length ≤ s.bs.toNat)
    (hn : CeilOf n (s.readQ rs1).length s.bs.toNat) (hfit : 65536 < s.bs.toNat * n) :
    exec (cbcInstr c inverse rd rs1 rs2) s = .next (failed s 7 (cbcInstr c inverse rd rs1 rs2)) := by
  rw [exec_cbcInstr]
  exact s.command_error _ .overflow _ herr
    (by simp [State.cbc, s.chainChecks_of_ready c hr, hiv.not_gt, s.fitsQ_chainedLength _ n hn, hfit])

/-- Settles O56: `chain_checks` comes first and is one for all commands of a cipher; the IV's length and the result's
are compared after it. -/
theorem chainingErrorsInOrder : Obligations.ChainingErrorsInOrder := by
  intro c inverse rd rs1 rs2 s n herr
  refine ⟨fun i hi => ?_, fun hr hn => ⟨exec_ecb_overflow c inverse rd rs1 s n herr hr hn,
    exec_cbc_lengthMismatch c inverse rd rs1 rs2 s herr hr,
    fun hiv => exec_cbc_overflow c inverse rd rs1 rs2 s n herr hr hiv hn⟩⟩
  have hrun (e : CmdError) := exec_chaining_of_checks c inverse rd rs1 rs2 s e i hi herr
  refine ⟨?_, ?_, ?_, ?_, ?_, ?_⟩ <;> rintro rfl
  · exact fun hb => hrun .badConfig (s.feistelChecks_badConfig _ hb)
  · exact fun h => hrun .badConfig (s.chainChecks_spn_badConfig h)
  · exact fun hb hv => hrun .noRoundKey (s.feistelChecks_noRoundKey _ hb hv)
  · exact fun hmin hmax hv => hrun .noRoundKey (s.chainChecks_spn_noRoundKey hmin hmax hv)
  · exact fun hb hv hr => hrun .lengthMismatch (s.feistelChecks_of_not_ready hb hv hr)
  · exact fun hmin hmax hv hr => hrun .lengthMismatch (s.chainChecks_spn_lengthMismatch hmin hmax hv hr)

end Sys2Proof.Machine
end

section
/-! SUPPORT. The word of a command without operands, the words of its opcode that are none (rules R92, R95 and R98), and
what a word written to `CMD` can do about the latch (rules R211 and R223). -/

namespace Sys2Proof.Laws

/-! ### Words -/

/-- One word alone decodes to a well-formed command, the command's own. -/
theorem decode_eq_some_iff_eq_encode (w : Word) (i : Instr) (hi : i.WellFormed = true) :
    decode w = some i ↔ w = encode i := by
  constructor
  · intro h
    exact (encodeOfDecodeIsIdentity w i h).2.symm
  · rintro rfl
    exact decodeOfEncodeIsIdentity i hi

/-- Where an opcode has one row of the table, a word with that opcode is the word of the row's command or is illegal. -/
theorem decode_eq_none_of_opcode {f : Shape} (hf : f ∈ shapes) (op : Nat) (hop : op < 2 ^ 6)
    (hrow : ∀ g ∈ shapes, g.opVar / 4 = op → g.opVar = f.opVar) (w : Word)
    (hw : w.extractLsb' 26 6 = BitVec.ofNat 6 op) (hne : w ≠ encode (f.command w)) : decode w = none := by
  refine Option.eq_none_iff_forall_ne_some.mpr fun i h => ?_
  obtain ⟨g, hg, hcovers, -⟩ := (decode_eq_some_iff w i).mp h
  have ⟨hbyte, _⟩ := hcovers
  have hopcode : field w 31 24 / 4 = op := by
    have hval := congrArg BitVec.toNat hw
    simp only [BitVec.extractLsb'_toNat, Nat.shiftRight_eq_div_pow, BitVec.toNat_ofNat] at hval
    simp only [field]
    omega
  obtain rfl := opVar_injective_on_shapes hg hf (hrow g hg (hbyte ▸ hopcode))
  exact hne (Shape.encode_command (lawful_of_mem g hg) w hcovers).symm

theorem decode_nop_iff (w : Word) : decode w = some .nop ↔ w = 0xE0000000 :=
  decode_eq_some_iff_eq_encode w .nop (by decide)

theorem decode_clrerr_iff (w : Word) : decode w = some .clrerr ↔ w = 0xE4000000 :=
  decode_eq_some_iff_eq_encode w .clrerr (by decide)

theorem decode_eq_none_of_nop_opcode (w : Word) (hw : w.extractLsb' 26 6 = 0x38) (hne : w ≠ 0xE0000000) :
    decode w = none :=
  decode_eq_none_of_opcode (f := shapes[31]) (List.getElem_mem _) 0x38 (by decide) (by decide) w hw hne

theorem decode_eq_none_of_clrerr_opcode (w : Word) (hw : w.extractLsb' 26 6 = 0x39) (hne : w ≠ 0xE4000000) :
    decode w = none :=
  decode_eq_none_of_opcode (f := shapes[32]) (List.getElem_mem _) 0x39 (by decide) (by decide) w hw hne

end Sys2Proof.Laws

namespace Sys2Proof.Machine

/-! ### A write of `CMD` -/

/-- An illegal word raises IllegalCommand (rule R98). -/
theorem State.csrWrite_cmd_illegal (s : State) (w : Word) (hd : decode w = none) (herr : s.err = false) :
    s.csrWrite 0x00 w = .next { s with err := true, errcode := 4, errinfo := w } := by
  show s.commandWord w = _
  simp [State.commandWord, hd, State.unlessLatched, herr, State.raise, errorCode]

/-- While an error is latched an illegal word is dropped (rule R223). -/
theorem State.csrWrite_cmd_illegal_latched (s : State) (w : Word) (hd : decode w = none) (herr : s.err = true) :
    s.csrWrite 0x00 w = .next s := by
  show s.commandWord w = _
  simp [State.commandWord, hd, State.unlessLatched, herr]

theorem exec_of_latched (i : Instr) (s : State) (hi : i ≠ .clrerr) (herr : s.err = true) : exec i s = .next s := by
  obtain ⟨t, ht⟩ := exec_next i s
  rw [ht, exec_latched i s t ht hi herr]

/-! ### Ways out of the error state (rule R211) -/

/-- Only the word of `clrerr` leaves the error state. -/
theorem State.eq_clrerr_of_commandWord (s t : State) (w : Word) (herr : s.err = true) (h : s.commandWord w = .next t)
    (ht : t.err = false) : w = 0xE4000000 := by
  have hne : t ≠ s := by
    rintro rfl
    simp [herr] at ht
  cases hd : decode w with
  | none => exact absurd (Host.Outcome.next.inj (h.symm.trans (s.csrWrite_cmd_illegal_latched w hd herr))) hne
  | some i =>
    rw [State.commandWord, hd] at h
    have hi : i = .clrerr := by
      by_contra hi
      exact hne (exec_latched i s t h hi herr)
    exact (Laws.decode_clrerr_iff w).mp (hi ▸ hd)

/-- No register but `CMD` has a write that touches the latch. -/
@[simp] theorem State.storeCsr_err (s : State) (v : Word) (r : Csr) : (s.storeCsr v r).err = s.err := by
  cases r with
  | qlen =>
    rw [State.storeCsr]
    split <;> rfl
  | _ => rfl

/-- A write that leaves the error state is the one of `clrerr`'s word to `CMD`. -/
theorem State.eq_clrerr_of_csrWrite (s t : State) (a : Nat) (v : Word) (herr : s.err = true)
    (h : s.csrWrite a v = .next t) (ht : t.err = false) : a = 0x00 ∧ v = 0xE4000000 := by
  obtain ⟨hcmd, hw⟩ | ⟨r, -, -, rfl⟩ | ⟨-, rfl⟩ := s.csrWrite_cases t a v h
  · exact ⟨csrOf_eq_some a .cmd hcmd, s.eq_clrerr_of_commandWord t v herr hw ht⟩
  · simp [herr] at ht
  · simp [herr] at ht

/-- A step that leaves the error state serves `clrerr` or a reset. -/
theorem step_leaves_error (s t : State) (herr : s.err = true) (h : step s = .next t) (ht : t.err = false) :
    ∃ rest, s.pending = .write 0x00 4 0xE4000000 :: rest ∨ s.pending = .rst :: rest := by
  obtain ⟨-, rfl⟩ | ⟨e, rest, hp, ⟨_, _, -, -, rfl⟩ | ⟨a, n, v, rfl, ha, hw⟩ | ⟨rfl, -⟩⟩ := step_cases s t h
  · simp [herr] at ht
  · simp [herr] at ht
  · obtain ⟨rfl, -⟩ := (accessRefusal_eq_none a n).mp ha
    obtain ⟨rfl, rfl⟩ := State.eq_clrerr_of_csrWrite { s with pending := rest } t a v herr hw ht
    exact ⟨rest, .inl hp⟩
  · exact ⟨rest, .inr hp⟩

end Sys2Proof.Machine
end

section
/-! PROOF. The system commands: `nop` (O58), `clrerr` (O59) and `mov` (O60). -/

namespace Sys2Proof.Machine

open Sys2Proof.Claims Sys2Proof.Laws

/-- `nop` changes nothing, dropped or executed. -/
theorem exec_nop (s : State) : exec .nop s = .next s := by
  cases herr : s.err with
  | false => exact s.command_ok s .nop _ herr rfl
  | true => exact exec_of_latched .nop s (by decide) herr

/-- Settles O58: any other word of the opcode is illegal. -/
theorem nopChangesNothing : Obligations.NopChangesNothing :=
  ⟨exec_nop, decode_nop_iff, fun s w herr hw hne =>
    s.csrWrite_cmd_illegal w (decode_eq_none_of_nop_opcode w hw hne) herr⟩

theorem exec_clrerr (s : State) : exec .clrerr s = .next s.clearLatch := rfl

@[simp] theorem State.irq_clearLatch (s : State) : s.clearLatch.irq = false := rfl

/-- Settles O59: `clrerr` does not ask for the latch, every other command does, and no other access but reset touches
it. -/
theorem clrerrClearsTheLatch : Obligations.ClrerrClearsTheLatch := by
  refine ⟨fun s => ⟨exec_clrerr s, fun t ht => ?_⟩, exec_of_latched, step_leaves_error, decode_clrerr_iff,
    fun s w hw hne => ?_⟩
  · obtain rfl := Host.Outcome.next.inj ((exec_clrerr s).symm.trans ht)
    exact s.irq_clearLatch
  · have hd := decode_eq_none_of_clrerr_opcode w hw hne
    exact ⟨s.csrWrite_cmd_illegal w hd, s.csrWrite_cmd_illegal_latched w hd⟩

theorem encode_mov_and_mask (rd rs1 : QReg) : encode (.mov rd rs1) &&& 0xFF03FFFF = 0xE8000000 :=
  Shape.encode_and_mask (f := shapes[33]) (List.getElem_mem _) ⟨"mov", 0xE8000000, 0xFF03FFFF⟩ (by decide) rd rs1 0 0

theorem exec_mov (rd rs1 : QReg) (s : State) (herr : s.err = false) :
    exec (.mov rd rs1) s = .next (s.writeQ rd (s.readQ rs1)) :=
  s.command_ok _ (.mov rd rs1) _ herr rfl

/-- Settles O60: `mov` makes no check, so its body is the copy. -/
theorem movCopiesARegister : Obligations.MovCopiesARegister := fun rd rs1 s herr =>
  ⟨exec_mov rd rs1 s herr, encode_mov_and_mask rd rs1⟩

end Sys2Proof.Machine
end

section
/-! SUPPORT. Where the errors of a command come from (rules R220 and R221): the bodies of the commands report the errors
of their own row only, and what they write leaves the latch alone. -/

namespace Sys2Proof.Machine

open Sys2Proof.Claims

/-! ### Checks and bodies -/

/-- A body raises no error outside the given codes, and the state it writes keeps the latch (rules R221 and R222). -/
def State.RaisesOnly (s : State) (codes : List (BitVec 3)) : Except CmdError State → Prop
  | .ok t => t.err = s.err
  | .error e => errorCode e ∈ codes

theorem State.raisesOnly_ok (s t : State) (codes : List (BitVec 3)) (h : t.err = s.err) :
    s.RaisesOnly codes (.ok t) := h

theorem State.raisesOnly_error (s : State) (codes : List (BitVec 3)) (e : CmdError) (h : errorCode e ∈ codes) :
    s.RaisesOnly codes (.error e) := h

/-- The check at the head of a body adds its own error to those of the rest. -/
theorem State.raisesOnly_check (s : State) (codes : List (BitVec 3)) (c : Prop) [Decidable c] (e : CmdError)
    (y : Except CmdError State) (he : errorCode e ∈ codes) (hy : s.RaisesOnly codes y) :
    s.RaisesOnly codes (if c then .error e else y) := by
  split
  · exact s.raisesOnly_error codes e he
  · exact hy

/-- The checks of rule R171 report BadConfig, NoRoundKey or LengthMismatch. -/
theorem State.feistelChecks_codes (s : State) (nk : Nat) (e : CmdError) (h : s.feistelChecks nk = some e) :
    errorCode e ∈ ([2, 5, 6] : List (BitVec 3)) := by
  unfold State.feistelChecks at h
  split_ifs at h <;> cases h <;> decide

/-- The checks of rule R182 report NoRoundKey or LengthMismatch. -/
theorem State.spnChecks_codes (s : State) (nk : Nat) (e : CmdError) (h : s.spnChecks nk = some e) :
    errorCode e ∈ ([2, 6] : List (BitVec 3)) := by
  unfold State.spnChecks at h
  split_ifs at h <;> cases h <;> decide

/-- The checks of rule R195 report BadConfig, NoRoundKey or LengthMismatch. -/
theorem State.chainChecks_codes (s : State) (c : Cipher) (e : CmdError) (h : s.chainChecks c = some e) :
    errorCode e ∈ ([2, 5, 6] : List (BitVec 3)) := by
  cases c with
  | feistel => exact s.feistelChecks_codes _ e h
  | spn =>
    by_cases hbs : 1 ≤ s.bs.toNat ∧ s.bs.toNat ≤ 65536
    · obtain ⟨hmin, hmax⟩ := hbs
      rw [s.chainChecks_spn_eq hmin hmax, Option.or_eq_some_iff] at h
      obtain hspn | ⟨-, hblock⟩ := h
      · exact List.subset_def.mp (by decide) (s.spnChecks_codes _ e hspn)
      · split_ifs at hblock
        cases hblock
        decide
    · rw [s.chainChecks_spn_badConfig (by omega)] at h
      cases h
      decide

/-- The format rules report InvalidFormat (rule R121). -/
theorem detect_code (c : List Nat) (e : CmdError) (h : detect c = .error e) : e = .invalidFormat := by
  unfold detect at h
  split_ifs at h
  cases h
  rfl

/-! ### The bodies that several commands share -/

theorem State.sub4_raisesOnly (s : State) (inverse : Bool) (rd rs1 : QReg) :
    s.RaisesOnly [7] (s.sub4 inverse rd rs1) :=
  s.raisesOnly_check _ _ _ _ (by decide) (s.raisesOnly_ok _ _ rfl)

theorem State.perm_raisesOnly (s : State) (inverse : Bool) (rd rs1 : QReg) :
    s.RaisesOnly [7] (s.perm inverse rd rs1) :=
  s.raisesOnly_check _ _ _ _ (by decide) (s.raisesOnly_ok _ _ rfl)

theorem State.oneFeistelRound_raisesOnly (s : State) (inverse : Bool) (rd rs1 : QReg) (imm : Nat) :
    s.RaisesOnly [2, 5, 6] (s.oneFeistelRound inverse rd rs1 imm) :=
  s.raisesOnly_check _ _ _ _ (by decide) <| s.raisesOnly_check _ _ _ _ (by decide) <|
    s.raisesOnly_check _ _ _ _ (by decide) <| s.raisesOnly_check _ _ _ _ (by decide) (s.raisesOnly_ok _ _ rfl)

theorem State.feistelBlock_raisesOnly (s : State) (inverse : Bool) (rd rs1 : QReg) :
    s.RaisesOnly [2, 5, 6] (s.feistelBlock inverse rd rs1) := by
  unfold State.feistelBlock
  split
  next e h => exact s.raisesOnly_error _ e (s.feistelChecks_codes _ e h)
  next => exact s.raisesOnly_check _ _ _ _ (by decide) (s.raisesOnly_ok _ _ rfl)

theorem State.oneSpnRound_raisesOnly (s : State) (inverse : Bool) (rd rs1 : QReg) (imm : Nat) :
    s.RaisesOnly [2, 6, 7] (s.oneSpnRound inverse rd rs1 imm) :=
  s.raisesOnly_check _ _ _ _ (by decide) <| s.raisesOnly_check _ _ _ _ (by decide) <|
    s.raisesOnly_check _ _ _ _ (by decide) (s.raisesOnly_ok _ _ rfl)

theorem State.spnSequence_raisesOnly (s : State) (inverse : Bool) (rd rs1 : QReg) :
    s.RaisesOnly [2, 6, 7] (s.spnSequence inverse rd rs1) := by
  unfold State.spnSequence
  split
  next e h => exact s.raisesOnly_error _ e (List.subset_def.mp (by decide) (s.spnChecks_codes _ e h))
  next => exact s.raisesOnly_check _ _ _ _ (by decide) (s.raisesOnly_ok _ _ rfl)

theorem State.ecb_raisesOnly (s : State) (c : Cipher) (inverse : Bool) (rd rs1 : QReg) :
    s.RaisesOnly [2, 5, 6, 7] (s.ecb c inverse rd rs1) := by
  unfold State.ecb
  split
  next e h => exact s.raisesOnly_error _ e (List.subset_def.mp (by decide) (s.chainChecks_codes c e h))
  next => exact s.raisesOnly_check _ _ _ _ (by decide) (s.raisesOnly_ok _ _ rfl)

theorem State.cbc_raisesOnly (s : State) (c : Cipher) (inverse : Bool) (rd rs1 rs2 : QReg) :
    s.RaisesOnly [2, 5, 6, 7] (s.cbc c inverse rd rs1 rs2) := by
  unfold State.cbc
  split
  next e h => exact s.raisesOnly_error _ e (List.subset_def.mp (by decide) (s.chainChecks_codes c e h))
  next =>
    exact s.raisesOnly_check _ _ _ _ (by decide) <|
      s.raisesOnly_check _ _ _ _ (by decide) (s.raisesOnly_ok _ _ rfl)

/-! ### The commands -/

/-- Every command but `clrerr` runs a body that raises the errors of the command's row of rule R221 only. -/
theorem exec_eq_command_raisesOnly (i : Instr) (s : State) (h : i ≠ .clrerr) :
    ∃ body, exec i s = s.command i body ∧ s.RaisesOnly (mayRaise i) body := by
  cases i with
  | clrerr => exact absurd rfl h
  | tobits rd rs1 =>
    refine ⟨_, rfl, s.raisesOnly_check [1] _ _ _ (by decide) ?_⟩
    split
    next e hd =>
      obtain rfl := detect_code _ e hd
      exact s.raisesOnly_error [1] _ (by decide)
    next => exact s.raisesOnly_ok _ _ rfl
  | frombits rd rs1 => exact ⟨_, rfl, s.raisesOnly_check [1] _ _ _ (by decide) (s.raisesOnly_ok _ _ rfl)⟩
  | tohex rd rs1 => exact ⟨_, rfl, s.raisesOnly_check [7] _ _ _ (by decide) (s.raisesOnly_ok _ _ rfl)⟩
  | fromhex rd rs1 =>
    exact ⟨_, rfl, s.raisesOnly_check [1] _ _ _ (by decide) <|
      s.raisesOnly_check [1] _ _ _ (by decide) (s.raisesOnly_ok _ _ rfl)⟩
  | xor rd rs1 rs2 => exact ⟨_, rfl, s.raisesOnly_check [2] _ _ _ (by decide) (s.raisesOnly_ok _ _ rfl)⟩
  | sub4 rd rs1 => exact ⟨_, rfl, s.sub4_raisesOnly _ rd rs1⟩
  | sub4I rd rs1 => exact ⟨_, rfl, s.sub4_raisesOnly _ rd rs1⟩
  | perm rd rs1 => exact ⟨_, rfl, s.perm_raisesOnly _ rd rs1⟩
  | permI rd rs1 => exact ⟨_, rfl, s.perm_raisesOnly _ rd rs1⟩
  | pdflt => exact ⟨_, rfl, s.raisesOnly_check [5] _ _ _ (by decide) (s.raisesOnly_ok _ _ rfl)⟩
  | pload =>
    exact ⟨_, rfl, s.raisesOnly_check [3, 5] _ _ _ (by decide) <|
      s.raisesOnly_check [3, 5] _ _ _ (by decide) (s.raisesOnly_ok _ _ rfl)⟩
  | ksched rs1 =>
    exact ⟨_, rfl, s.raisesOnly_check [2, 5] _ _ _ (by decide) <|
      s.raisesOnly_check [2, 5] _ _ _ (by decide) (s.raisesOnly_ok _ _ rfl)⟩
  | rkget rd imm => exact ⟨_, rfl, s.raisesOnly_check [6] _ _ _ (by decide) (s.raisesOnly_ok _ _ rfl)⟩
  | frnd rd rs1 imm => exact ⟨_, rfl, s.oneFeistelRound_raisesOnly _ rd rs1 imm⟩
  | frndI rd rs1 imm => exact ⟨_, rfl, s.oneFeistelRound_raisesOnly _ rd rs1 imm⟩
  | feisE rd rs1 => exact ⟨_, rfl, s.feistelBlock_raisesOnly _ rd rs1⟩
  | feisD rd rs1 => exact ⟨_, rfl, s.feistelBlock_raisesOnly _ rd rs1⟩
  | srnd rd rs1 imm => exact ⟨_, rfl, s.oneSpnRound_raisesOnly _ rd rs1 imm⟩
  | srndI rd rs1 imm => exact ⟨_, rfl, s.oneSpnRound_raisesOnly _ rd rs1 imm⟩
  | spnE rd rs1 => exact ⟨_, rfl, s.spnSequence_raisesOnly _ rd rs1⟩
  | spnD rd rs1 => exact ⟨_, rfl, s.spnSequence_raisesOnly _ rd rs1⟩
  | pad rd rs1 =>
    exact ⟨_, rfl, s.raisesOnly_check [2, 5, 7] _ _ _ (by decide) <| s.raisesOnly_check [2, 5, 7] _ _ _ (by decide) <|
      s.raisesOnly_check [2, 5, 7] _ _ _ (by decide) (s.raisesOnly_ok _ _ rfl)⟩
  | unpad rd rs1 =>
    refine ⟨_, rfl, s.raisesOnly_check [2] _ _ _ (by decide) ?_⟩
    split <;> exact s.raisesOnly_ok _ _ rfl
  | ecbEF rd rs1 => exact ⟨_, rfl, s.ecb_raisesOnly _ _ rd rs1⟩
  | ecbDF rd rs1 => exact ⟨_, rfl, s.ecb_raisesOnly _ _ rd rs1⟩
  | ecbES rd rs1 => exact ⟨_, rfl, s.ecb_raisesOnly _ _ rd rs1⟩
  | ecbDS rd rs1 => exact ⟨_, rfl, s.ecb_raisesOnly _ _ rd rs1⟩
  | cbcEF rd rs1 rs2 => exact ⟨_, rfl, s.cbc_raisesOnly _ _ rd rs1 rs2⟩
  | cbcDF rd rs1 rs2 => exact ⟨_, rfl, s.cbc_raisesOnly _ _ rd rs1 rs2⟩
  | cbcES rd rs1 rs2 => exact ⟨_, rfl, s.cbc_raisesOnly _ _ rd rs1 rs2⟩
  | cbcDS rd rs1 rs2 => exact ⟨_, rfl, s.cbc_raisesOnly _ _ rd rs1 rs2⟩
  | nop => exact ⟨_, rfl, s.raisesOnly_ok _ _ rfl⟩
  | mov rd rs1 => exact ⟨_, rfl, s.raisesOnly_ok (s.writeQ rd _) _ rfl⟩

/-- A command that sets the latch raised an error of its row, and did nothing else (rules R221 and R222). -/
theorem exec_sets_latch (i : Instr) (s t : State) (herr : s.err = false) (h : exec i s = .next t) (ht : t.err = true) :
    ∃ e, errorCode e ∈ mayRaise i ∧ t = s.raise e (encode i) := by
  have hi : i ≠ .clrerr := by
    rintro rfl
    obtain rfl := Host.Outcome.next.inj h
    cases ht
  obtain ⟨body, hexec, hbody⟩ := exec_eq_command_raisesOnly i s hi
  rw [hexec] at h
  obtain ⟨hlatched, -⟩ | ⟨-, rfl⟩ | ⟨-, e, rfl, ht'⟩ := s.command_cases t i body h
  · simp [herr] at hlatched
  · have hkept : t.err = s.err := hbody
    simp [herr, ht] at hkept
  · exact ⟨e, hbody, ht'⟩

end Sys2Proof.Machine
end

section
/-! PROOF. The error latch: error entry (O14), the errors of each command (O15), and what is dropped while an error is
latched (O16). -/

namespace Sys2Proof.Machine

open Sys2Proof.Claims

/-! ### Error entry (rules R221 and R222) -/

/-- Settles O15: what sets the latch is an error of the command's row. -/
theorem commandsRaiseOnlyTheirErrors : Obligations.CommandsRaiseOnlyTheirErrors := by
  intro i s t herr h ht
  obtain ⟨e, he, rfl⟩ := exec_sets_latch i s t herr h ht
  exact he

/-- A word that decodes runs its command. -/
theorem State.csrWrite_cmd_legal (s : State) (w : Word) (i : Instr) (hd : decode w = some i) :
    s.csrWrite 0x00 w = exec i s := by
  show s.commandWord w = _
  rw [State.commandWord, hd]

/-- Settles O14: an illegal word raises IllegalCommand, a legal one runs its command, whose encoding is the word. -/
theorem errorEntryWritesOnlyTheLatch : Obligations.ErrorEntryWritesOnlyTheLatch := by
  intro s t w herr h ht
  cases hd : decode w with
  | none =>
    rw [s.csrWrite_cmd_illegal w hd herr] at h
    exact ⟨.illegalCommand, (Host.Outcome.next.inj h).symm⟩
  | some i =>
    rw [s.csrWrite_cmd_legal w i hd] at h
    obtain ⟨e, -, rfl⟩ := exec_sets_latch i s t herr h ht
    obtain ⟨-, rfl⟩ := Laws.encodeOfDecodeIsIdentity w i hd
    exact ⟨e, rfl⟩

/-! ### Accesses while an error is latched (rule R223) -/

/-- A word other than that of `clrerr` is dropped, whether it decodes or not. -/
theorem State.csrWrite_cmd_dropped (s : State) (w : Word) (herr : s.err = true) (hw : w ≠ 0xE4000000) :
    s.csrWrite 0x00 w = .next s := by
  cases hd : decode w with
  | none => exact s.csrWrite_cmd_illegal_latched w hd herr
  | some i =>
    rw [s.csrWrite_cmd_legal w i hd]
    refine exec_of_latched i s ?_ herr
    rintro rfl
    exact hw ((Laws.decode_clrerr_iff w).mp hd)

/-- Storing into a register does not look at the latch. -/
theorem State.storeCsr_with_err (s : State) (b : Bool) (v : Word) (r : Csr) :
    { s with err := b }.storeCsr v r = { s.storeCsr v r with err := b } := by
  cases r with
  | qlen =>
    rw [State.storeCsr, State.storeCsr]
    split <;> rfl
  | _ => rfl

/-- A write elsewhere than to `CMD` has one effect, latched or not. -/
theorem State.csrWrite_with_err (s t : State) (b : Bool) (a : Nat) (v : Word) (ha : a ≠ 0x00)
    (h : s.csrWrite a v = .next t) : { s with err := b }.csrWrite a v = .next { t with err := b } := by
  obtain ⟨hcmd, -⟩ | ⟨r, hr, hcsr, rfl⟩ | ⟨hnone, rfl⟩ := s.csrWrite_cases t a v h
  · exact absurd (csrOf_eq_some a .cmd hcmd) ha
  · rw [csrOf_eq_some a r hcsr, State.csrWrite_csrAddr _ r v hr, s.storeCsr_with_err b v r]
  · simp only [State.csrWrite, hnone]

/-- `STATUS` alone shows the latch. -/
theorem State.csrRead_with_err (s : State) (b : Bool) (a : Nat) (ha : a ≠ 0x04) :
    { s with err := b }.csrRead a = s.csrRead a := by
  cases hr : csrOf a with
  | none => simp only [State.csrRead, hr]
  | some r =>
    have haddr := csrOf_eq_some a r hr
    rw [haddr, State.csrRead_csrAddr, State.csrRead_csrAddr]
    cases r with
    | status => exact absurd haddr ha
    | _ => rfl

/-- Settles O16: writes of `CMD` by the word, the other accesses because they do not look at the latch. -/
theorem latchedErrorDropsEveryWordButClrerr : Obligations.LatchedErrorDropsEveryWordButClrerr := by
  intro s herr
  refine ⟨fun w => s.csrWrite_cmd_dropped w herr, ?_, fun a ha v => ?_,
    fun a ha => (s.csrRead_with_err false a ha).symm⟩
  · rw [s.csrWrite_cmd_legal _ .clrerr ((Laws.decode_clrerr_iff _).mpr rfl), exec_clrerr, State.clearLatch]
  · obtain ⟨t, ht⟩ := { s with err := false }.csrWrite_next a v
    have hlatched := State.csrWrite_with_err _ t true a v ha ht
    have hs : { s with err := true } = s := by rw [← herr]
    exact ⟨t, ht, hs ▸ hlatched⟩

end Sys2Proof.Machine
end

section
/-! PROOF. The reset input and the idle step (O13). -/

namespace Sys2Proof.Machine

theorem step_rst (s : State) (rest : List HostEvent) (hp : s.pending = .rst :: rest) :
    step s = .next { s with pending := rest }.afterRst := by
  simp only [step, State.serveNext, hp, State.serve]

theorem step_idle (s : State) (hp : s.pending = []) : step s = .next s := by
  rw [step, State.serveNext, hp]

theorem builtinSbox_getElem (x : Fin 16) : builtinSbox[x].toNat = (Config.sbox x).val := by
  simp [builtinSbox]

/-- The entries are 1-based (rule R8). -/
theorem builtinPbox16_getElem (p : Fin 16) : builtinPbox16[p].toNat = (Config.pbox16 p).val + 1 := by
  have := (Config.pbox16 p).isLt
  simp [builtinPbox16]
  omega

/-- Settles O13: a reset does not look at the latch, and the tables of `State.reset` are the built-in ones. -/
theorem rstResetsAndNoAccessIdles : Obligations.RstResetsAndNoAccessIdles :=
  ⟨step_rst, step_idle, builtinSbox_getElem, builtinPbox16_getElem⟩

end Sys2Proof.Machine
end
